-- ==== Sys2Proof/Word.lean ====
section
/-!
DEFINITION. The words of the block: bytes, samples, addresses, the two channels, a pair of like things
indexed by a channel, and the three kinds of access an operation reaches the block by (R86).
-/
namespace Sys2Proof

/-- One byte of the data space (R50); a framebuffer byte is a palette index (R74). -/
abbrev Byte := BitVec 8

/-- One sample: an unsigned 16-bit word whose value is a level (R68). -/
abbrev Sample := BitVec 16

/-- A byte address of the data space or of the peripheral space (R48). -/
abbrev Addr := BitVec 32

/-- A scanline index, the 9-bit field that selects a generator operation (R18, R75). -/
abbrev LineIdx := BitVec 9

/-- The two DMA channels, which are also the names of the two scanline buffers (R15, R25). -/
inductive Chan where
  | a
  | b
deriving DecidableEq, Repr, Inhabited

/-- `peer(A) = B`, `peer(B) = A` (R15). -/
def Chan.peer : Chan → Chan
  | .a => .b
  | .b => .a

/-- Two like things, one for each channel: the `X`-indexed state elements of R27 to R33 and R45. -/
structure Pair (α : Type) where
  a : α
  b : α
deriving DecidableEq, Repr

/-- The element of channel `x`. -/
def Pair.get {α : Type} (p : Pair α) : Chan → α
  | .a => p.a
  | .b => p.b

/-- The pair with channel `x`'s element replaced. -/
def Pair.set {α : Type} (p : Pair α) (x : Chan) (v : α) : Pair α :=
  match x with
  | .a => { p with a := v }
  | .b => { p with b := v }

/-- What reaches the block as one operation, still encoded (R86): a host port access `(rw, offset, data)` (R77),
an event word (R80), or a generator call: a buffer and a scanline index (R75, R87). -/
inductive Access where
  /-- A host port access; `write` is the `rw` bit. The data of a read is not looked at (R77). -/
  | host (write : Bool) (offset : BitVec 8) (data : BitVec 32)
  /-- A 32-bit event word. -/
  | event (word : BitVec 32)
  /-- A direct call of the generator for buffer `x` and scanline index `idx`. -/
  | gen (x : Chan) (idx : LineIdx)
deriving DecidableEq, Repr, Inhabited

end Sys2Proof
end

