-- ==== Sys2Proof/Config.lean ====
section
/-!
DEFINITION. The parameters of the block: the fixed geometry of R6 to R11, the launch parameters of R12 (one record,
carried unchanged in the state: log entry 1), and the free values, which have no body.
-/
namespace Sys2Proof

/-! ### Fixed geometry (R6 to R11) -/

/-- `SAMPLES_PER_LINE` (R6). -/
abbrev samplesPerLine : Nat := 908
/-- `LINES_PER_FRAME` (R6). -/
abbrev linesPerFrame : Nat := 262
/-- `FB_WIDTH` (R7). -/
abbrev fbWidth : Nat := 320
/-- `FB_HEIGHT` (R7). -/
abbrev fbHeight : Nat := 240
/-- `FB_BYTES` (R7). -/
abbrev fbBytes : Nat := 76800
/-- The palette's size: 256 entries of 4 samples of 2 bytes (R8, R51). -/
abbrev palBytes : Nat := 2048
/-- A scanline buffer's size: 908 samples of 2 bytes (R51). -/
abbrev bufBytes : Nat := 1816
/-- `HSYNC_LEN` (R9). -/
abbrev hsyncLen : Nat := 68
/-- `BP_PRE_LEN` (R9). -/
abbrev bpPreLen : Nat := 8
/-- `BURST_CYCLES` (R9). -/
abbrev burstCycles : Nat := 9
/-- `BP_POST_LEN` (R9). -/
abbrev bpPostLen : Nat := 60
/-- `BURST_START` (R9). -/
abbrev burstStart : Nat := 76
/-- `ACTIVE_START` (R9): 68 + 8 + 36 + 60. -/
abbrev activeStart : Nat := 172
/-- `ACTIVE_SAMPLES` (R9). -/
abbrev activeSamples : Nat := 640
/-- `PREEQ_SYNC_LEN` (R9). -/
abbrev preeqSyncLen : Nat := 840
/-- `PREEQ_BLANK_LEN` (R9). -/
abbrev preeqBlankLen : Nat := 68

/-- `SYS_CLK_HZ_REQUIRED` (R11). -/
abbrev sysClkHzRequired : Nat := 315000000
/-- `PWM_TOP` (R11; 10, not 11: C3). -/
abbrev pwmTop : BitVec 16 := 10
/-- `PWM_DIV` = 2.0 as the fixed-point value of R36: 8 integer bits and 4 fraction bits. -/
abbrev pwmDiv : BitVec 12 := 0x020
/-- The programmed transfer count, 908 (R29). -/
abbrev transferCount : BitVec 32 := 908

/-- `CYCLES_PER_SAMPLE` (R11, R139): the period `(top + 1) × div` in system cycles, `div` in sixteenths (R36). -/
def cyclesPerSample : Nat := (pwmTop.toNat + 1) * pwmDiv.toNat / 16

/-- System cycles of one line, which is also the deadline budget of one peer run (R181). -/
def cyclesPerLine : Nat := samplesPerLine * cyclesPerSample

/-- System cycles of one frame (R181). -/
def cyclesPerFrame : Nat := linesPerFrame * cyclesPerLine

/-! ### Launch parameters (R12) -/

/-- `BOTH_BITS_POLICY`: what the handler services when both completion bits are read set (R126, D35). -/
inductive BothBitsPolicy where
  | serviceEach
  | aElseB
deriving DecidableEq, Repr

/-- `RENDER_FLAG_CLEAR`: the "rendering active" flag after a non-active line (R87, D39). -/
inductive RenderFlagClear where
  | clearOnNonactive
  | sticky
deriving DecidableEq, Repr

/-- The parameters the source leaves open, with the domains of spec/92_eei_decisions.md. They are parameters, not
state of the block (R17); the record is fixed at launch. -/
structure Config where
  /-- `SYS_CLK_HZ`: the system clock the platform programmed. -/
  sysClkHz : Nat
  /-- `FREE_DMA_CHANNELS`, 0..12. -/
  freeDmaChannels : Fin 13
  /-- `CH_A`, 0..11. -/
  chA : Fin 12
  /-- `CH_B`, 0..11, distinct from `CH_A`. -/
  chB : Fin 12
  /-- `OUT_PIN`, a pin 0..29; an even pin is refused at launch (R156). -/
  outPin : Fin 30
  /-- `BUF_A_BASE`. -/
  bufABase : Addr
  /-- `BUF_B_BASE`. -/
  bufBBase : Addr
  /-- `PAL_BASE`. -/
  palBase : Addr
  /-- `FB_BASE`. -/
  fbBase : Addr
  /-- `CC_B_ADDR`, where the DMA writes: 2-byte aligned and outside the data regions, or the launch is refused (R56; log
  entry 14). -/
  ccBAddr : Addr
  /-- `BOTH_BITS_POLICY`. -/
  bothBits : BothBitsPolicy
  /-- `RENDER_FLAG_CLEAR`. -/
  renderFlagClear : RenderFlagClear
  /-- `DIAG`: whether the debug diagnostics exist (D48). -/
  diag : Bool
deriving DecidableEq, Repr

/-- The hardware channel number of channel `x`. -/
def Config.chNum (c : Config) : Chan → Fin 12
  | .a => c.chA
  | .b => c.chB

/-- `BUF_X_BASE`. -/
def Config.bufBase (c : Config) : Chan → Addr
  | .a => c.bufABase
  | .b => c.bufBBase

/-- `PWM_SLICE = (OUT_PIN >> 1) & 7` (R12). -/
def Config.pwmSlice (c : Config) : Fin 8 := Fin.ofNat 8 (c.outPin.val / 2)

/-- The launch parameters of `State.reset`: the parameter values that spec/95_test_vectors.md assumes and one valid
placement in the SRAM of R60, with R60's informative `CC_B_ADDR`.
DESIGN CHOICE (log entry 1): the spec leaves every one of these open. -/
def Config.standard : Config where
  sysClkHz := 315000000
  freeDmaChannels := 12
  chA := 0
  chB := 1
  outPin := 27
  bufABase := 0x20000000
  bufBBase := 0x20000718
  palBase := 0x20000E30
  fbBase := 0x20001630
  ccBAddr := 0x40050072
  bothBits := .serviceEach
  renderFlagClear := .clearOnNonactive
  diag := true

/-! ### Free values: no body, so nothing can be proved of them (log entries 3 and 4) -/

/-- The access the environment of the block makes next where the schedule in the state names none: every interleaving
of the agents is a run (R158, D44). Applied to the state's counter `tick`. -/
opaque Config.freeAccess : Nat → Access

/-- What IRQ_SERVICE takes for an UNWRITTEN `scan_idx` (R14, R18: no rule names a fault for it). -/
opaque Config.freeScanIdx : Nat → LineIdx

/-- What TRIGGER loads from an UNWRITTEN `count_reload` (R14, R29: no rule names a fault for it). -/
opaque Config.freeCountReload : Nat → BitVec 32

end Sys2Proof
end

