-- ==== Sys2Proof/Syntax.lean ====
section
/-!
DEFINITION. The operations of the block, one constructor for each row of spec/opcode_table.json.
-/
namespace Sys2Proof

/-- The 17 operations. A generator operation carries the buffer it fills and the scanline index that selected it
(R75, R87). -/
inductive Instr where
  /-- PAL_WRITE index, B, R, G (R101). -/
  | palWrite (index blue red green : BitVec 8)
  /-- START (R144); its data word is ignored (R78). -/
  | start
  /-- RD_FRAME_COUNT (R145). -/
  | rdFrameCount
  /-- RD_RENDER_ACTIVE (R146). -/
  | rdRenderActive
  /-- PWM_WRAP (R136). -/
  | pwmWrap
  /-- DMA_XFER X (R116). -/
  | dmaXfer (x : Chan)
  /-- DMA_COMPLETE X (R117). -/
  | dmaComplete (x : Chan)
  /-- IRQ_ENTRY (R125). -/
  | irqEntry
  /-- IRQ_SERVICE (R127). -/
  | irqService
  /-- IRQ_RETURN (R128). -/
  | irqReturn
  /-- FB_WRITE offset, byte (R147). -/
  | fbWrite (offset : BitVec 17) (byte : Byte)
  /-- GEN_TEST X, s (R99). -/
  | genTest (x : Chan) (idx : LineIdx)
  /-- GEN_PREEQ (R88). -/
  | genPreeq (x : Chan) (idx : LineIdx)
  /-- GEN_VSYNC (R89). -/
  | genVsync (x : Chan) (idx : LineIdx)
  /-- GEN_ACTIVE (R90). -/
  | genActive (x : Chan) (idx : LineIdx)
  /-- GEN_BOTTOM (R91). -/
  | genBottom (x : Chan) (idx : LineIdx)
  /-- GEN_NOWRITE (R92). -/
  | genNowrite (x : Chan) (idx : LineIdx)
deriving DecidableEq, Repr

end Sys2Proof
end

