-- ==== Sys2Proof/WellFormed.lean ====
section
/-!
DEFINITION. Which operations are well formed: a framebuffer offset inside the framebuffer (R83 (e)) and, for a
generator operation, a scanline index of its own region (R75).
-/
namespace Sys2Proof

/-- The check of an operation's operands. -/
def Instr.wellFormed : Instr → Bool
  | .palWrite _ _ _ _ => true
  | .start => true
  | .rdFrameCount => true
  | .rdRenderActive => true
  | .pwmWrap => true
  | .dmaXfer _ => true
  | .dmaComplete _ => true
  | .irqEntry => true
  | .irqService => true
  | .irqReturn => true
  | .fbWrite offset _ => decide (offset.toNat < fbBytes)
  | .genTest _ _ => true
  | .genPreeq _ idx => decide (idx.toNat ≤ 1)
  | .genVsync _ idx => decide (10 ≤ idx.toNat ∧ idx.toNat ≤ 11)
  | .genActive _ idx => decide (36 ≤ idx.toNat ∧ idx.toNat < 276)
  | .genBottom _ idx => decide (276 ≤ idx.toNat ∧ idx.toNat ≤ 277)
  | .genNowrite _ idx =>
    decide ((2 ≤ idx.toNat ∧ idx.toNat ≤ 9) ∨ (12 ≤ idx.toNat ∧ idx.toNat ≤ 35) ∨ 278 ≤ idx.toNat)

end Sys2Proof
end

