-- ==== Sys2Proof/Decode.lean ====
section
/-!
DEFINITION. The decoder, total on every access and rejecting by name (R83, R86); after it the encoder, written from the
same tables (R75, R78 to R80); and the opcode table's own numbering of an operation's bits.
-/
namespace Sys2Proof

/-! ### The scanline-index classifier (R75, R76) -/

/-- The five regions of scanline indices (R75). -/
inductive Region where
  | preeq
  | vsync
  | active
  | bottom
  | nowrite
deriving DecidableEq, Repr

/-- The source's cascade of comparisons on `s` (R76). -/
def classify (idx : LineIdx) : Region :=
  let n := idx.toNat
  if n < 2 then .preeq
  else if n = 10 ∨ n = 11 then .vsync
  else if 36 ≤ n ∧ n < 276 then .active
  else if n = 276 ∨ n = 277 then .bottom
  else .nowrite

/-! ### Decoding -/

/-- Why an access is no operation (R83). -/
inductive DecodeError where
  /-- A host selector not in the table of R78: R83 (a). -/
  | hostSelector
  /-- An event code 0x0 or 0x9..0xF: R83 (c). -/
  | eventCode
  /-- An event word with a non-zero bit outside its operands: R83 (c). -/
  | eventBits
  /-- A framebuffer offset of 76,800 or more: R83 (e). -/
  | fbOffset
deriving DecidableEq, Repr

/-- A channel or buffer operand bit: 0 = A, 1 = B (R80). -/
def chanOfBit (bit : Bool) : Chan := if bit then .b else .a

/-- The operand bit of a channel or buffer (R80). -/
def bitOfChan : Chan → Bool
  | .a => false
  | .b => true

/-- An event word with no operands: every bit below the code is 0 (R80). -/
def decodeNoOperand (w : BitVec 32) (i : Instr) : Except DecodeError Instr :=
  if w.extractLsb' 0 28 = 0 then .ok i else .error .eventBits

/-- An event word whose one operand is the channel in bit 0 (R80). -/
def decodeChanOperand (w : BitVec 32) (op : Chan → Instr) : Except DecodeError Instr :=
  if w.extractLsb' 1 27 = 0 then .ok (op (chanOfBit (w.getLsbD 0))) else .error .eventBits

/-- FB_WRITE's operands: `[24:8]` the offset, `[7:0]` the byte; an offset past the framebuffer is refused (R80, R83 (e)). -/
def decodeFbWrite (w : BitVec 32) : Except DecodeError Instr :=
  if w.extractLsb' 25 3 = 0 then
    let offset := w.extractLsb' 8 17
    if offset.toNat < fbBytes then .ok (.fbWrite offset (w.extractLsb' 0 8)) else .error .fbOffset
  else .error .eventBits

/-- GEN_TEST's operands: `[9]` the buffer, `[8:0]` the scanline index (R80). -/
def decodeGenTest (w : BitVec 32) : Except DecodeError Instr :=
  if w.extractLsb' 10 18 = 0 then .ok (.genTest (chanOfBit (w.getLsbD 9)) (w.extractLsb' 0 9))
  else .error .eventBits

/-- An event word, by its code in `[31:28]` (R80, R86). -/
def decodeEvent (w : BitVec 32) : Except DecodeError Instr :=
  match (w.extractLsb' 28 4).toNat with
  | 1 => decodeNoOperand w .pwmWrap
  | 2 => decodeChanOperand w .dmaXfer
  | 3 => decodeChanOperand w .dmaComplete
  | 4 => decodeNoOperand w .irqEntry
  | 5 => decodeNoOperand w .irqService
  | 6 => decodeNoOperand w .irqReturn
  | 7 => decodeFbWrite w
  | 8 => decodeGenTest w
  | _ => .error .eventCode

/-- The 9-bit selector `{rw, offset[7:0]}` (R77). -/
def selector (write : Bool) (offset : BitVec 8) : BitVec 9 := BitVec.ofBool write ++ offset

/-- PAL_WRITE's data word: `[31:24]` index, `[23:16]` B, `[15:8]` R, `[7:0]` G (R79). -/
def decodePalData (data : BitVec 32) : Instr :=
  .palWrite (data.extractLsb' 24 8) (data.extractLsb' 16 8) (data.extractLsb' 8 8) (data.extractLsb' 0 8)

/-- A host access, by its selector (R78, R86). -/
def decodeHost (write : Bool) (offset : BitVec 8) (data : BitVec 32) : Except DecodeError Instr :=
  match (selector write offset).toNat with
  | 0x100 => .ok (decodePalData data)
  | 0x104 => .ok .start
  | 0x008 => .ok .rdFrameCount
  | 0x00C => .ok .rdRenderActive
  | _ => .error .hostSelector

/-- A generator call, by its scanline index (R75, R86). -/
def decodeGen (x : Chan) (idx : LineIdx) : Instr :=
  match classify idx with
  | .preeq => .genPreeq x idx
  | .vsync => .genVsync x idx
  | .active => .genActive x idx
  | .bottom => .genBottom x idx
  | .nowrite => .genNowrite x idx

/-- The decoder (R86). -/
def decode : Access → Except DecodeError Instr
  | .host write offset data => decodeHost write offset data
  | .event w => decodeEvent w
  | .gen x idx => .ok (decodeGen x idx)

/-! ### Encoding -/

/-- An event word without operands. -/
def encodeNoOperand (code : BitVec 4) : Access := .event (code ++ (0 : BitVec 28))

/-- An event word with a channel in bit 0. -/
def encodeChanOperand (code : BitVec 4) (x : Chan) : Access :=
  .event (code ++ (0 : BitVec 27) ++ BitVec.ofBool (bitOfChan x))

/-- The access of an operation, from the tables of R75, R78, R79 and R80. Where the data of a host access is ignored
or not written, it is 0 (log entry 19). -/
def encode : Instr → Access
  | .palWrite index blue red green => .host true 0x00 (index ++ blue ++ red ++ green)
  | .start => .host true 0x04 0
  | .rdFrameCount => .host false 0x08 0
  | .rdRenderActive => .host false 0x0C 0
  | .pwmWrap => encodeNoOperand 0x1
  | .dmaXfer x => encodeChanOperand 0x2 x
  | .dmaComplete x => encodeChanOperand 0x3 x
  | .irqEntry => encodeNoOperand 0x4
  | .irqService => encodeNoOperand 0x5
  | .irqReturn => encodeNoOperand 0x6
  | .fbWrite offset byte => .event ((0x7 : BitVec 4) ++ (0 : BitVec 3) ++ offset ++ byte)
  | .genTest x idx => .event ((0x8 : BitVec 4) ++ (0 : BitVec 18) ++ BitVec.ofBool (bitOfChan x) ++ idx)
  | .genPreeq x idx => .gen x idx
  | .genVsync x idx => .gen x idx
  | .genActive x idx => .gen x idx
  | .genBottom x idx => .gen x idx
  | .genNowrite x idx => .gen x idx

/-! ### The opcode table's numbering -/

/-- The access that spec/opcode_table.json writes as `nbits` bits of value `w`: 32 bits are an event word; 9 bits (in
whole bytes 16) are a host selector if R78 lists it, with data 0, and otherwise a scanline index, of buffer A
(log entry 10). A short word with a bit above the nine is no row's: it is laid out as an event word of the unused
code 0, which the decoder refuses. -/
def tableAccess (nbits w : Nat) : Access :=
  if 32 ≤ nbits ∨ 512 ≤ w then .event (BitVec.ofNat 32 w)
  else if w = 0x100 then .host true 0x00 0
  else if w = 0x104 then .host true 0x04 0
  else if w = 0x008 then .host false 0x08 0
  else if w = 0x00C then .host false 0x0C 0
  else .gen .a (BitVec.ofNat 9 w)

/-- What the decoder reads from an operation whose bits, as the opcode table numbers them, are `w`. -/
def decodeTableWord (nbits w : Nat) : Option Instr :=
  match decode (tableAccess nbits w) with
  | .ok i => some i
  | .error _ => none

end Sys2Proof
end

