-- ==== Sys2Proof/Machine/State.lean ====
section
/-!
DEFINITION. The state of the block as plain data (R17 to R46), the reasons a step can stop, and the power-on state of
the standard launch (R169).
-/
namespace Sys2Proof.Machine

/-- The faults of R153, in the order of their codes 1 to 12. A fault ends the run; every one of them is SAFE: the model
stops where the chip would go on in a way the spec gives no value to. -/
inductive Fault where
  /-- Code 1, raised by START: the system clock is not 315 MHz. Safe. -/
  | clock
  /-- Code 2, raised by START: fewer than two free DMA channels. Safe. -/
  | dmaAlloc
  /-- Code 3, raised by START: the engine has already started. Safe. -/
  | startTwice
  /-- Code 4, raised by PAL_WRITE: the engine has already started. Safe. -/
  | palAfterStart
  /-- Code 5, raised by PAL_WRITE: a computed sample above 11; no input reaches it (R107). Safe. -/
  | palRange
  /-- Code 6, raised by GEN_ACTIVE: a pixel names a palette sample never written. Safe. -/
  | palUnwritten
  /-- Code 7, raised by GEN_ACTIVE: the cursor was never written. Safe. -/
  | cursor
  /-- Code 8, raised by GEN_ACTIVE: the line would read past the framebuffer. Safe. -/
  | fbRange
  /-- Code 9, raised by TRIGGER: the channel's buffer still awaits its refill. Safe. -/
  | deadline
  /-- Code 10, raised by DMA_XFER: the read address is outside the channel's own buffer. Safe. -/
  | staleRead
  /-- Code 11, raised by DMA_XFER: the sample read was never written. Safe. -/
  | bufUnwritten
  /-- Code 12, raised by TRIGGER: the channel is already busy. Safe. -/
  | internal
deriving DecidableEq, Repr

/-- Where the model gives no outcome. The refusals of R156 that a step can meet (REFUSE_PORT, REFUSE_EVENT) are not
here: they are a next state with the mark `refused` set (log entry 6). -/
inductive Refusal where
  /-- Answered by `exec`'s arm of an operation that has no meaning yet. Safe. -/
  | notModelled (mnemonic : String)
  /-- Answered by the event operations when the named agent has no step: "the model gives it no outcome" (R84, D49;
  log entry 5). Safe. -/
  | notEnabled
  /-- REFUSE_PLACEMENT (R156), answered by the launch, never by a step: the launch has no initial state. Safe. -/
  | placement
deriving DecidableEq, Repr

/-- The bytes of the data space: (address, byte) cells in the canonical form of `Memory.wf`. -/
abbrev Memory := List Host.Cell

/-- The unit of a DMA transfer. -/
inductive DataSize where
  | byte
  | halfword
  | word
deriving DecidableEq, Repr

/-- The control fields of a DMA channel (R30), the inactive ones included. -/
structure DmaCtrl where
  en : Bool
  dataSize : DataSize
  incrRead : Bool
  incrWrite : Bool
  /-- The data request: the wrap of this PWM slice. -/
  treqSel : Fin 8
  /-- The hardware number of the channel chained to. -/
  chainTo : Fin 12
  irqQuiet : Bool
  /-- Ring wrapping: the ring size, 0 for none, and which address it wraps. -/
  ringSize : BitVec 4
  ringSel : Bool
  byteSwap : Bool
  sniff : Bool
  highPriority : Bool
deriving DecidableEq, Repr

/-- The registers of one DMA channel (R27 to R31). `none` is the spec's value UNWRITTEN (R14). -/
structure Dma where
  readAddr : Option Addr
  writeAddr : Option Addr
  countReload : Option (BitVec 32)
  count : BitVec 32
  ctrl : Option DmaCtrl
  busy : Bool
deriving DecidableEq, Repr

/-- The PWM slice (R35 to R40). `none` is UNWRITTEN. -/
structure Pwm where
  en : Bool
  /-- The divider, 8 integer bits and 4 fraction bits. -/
  div : Option (BitVec 12)
  top : Option (BitVec 16)
  /-- The compare value as last written. -/
  ccB : BitVec 16
  /-- The compare value in effect in the current period. -/
  cmpB : BitVec 16
  /-- The counter; no rule steps or reads it (R140). -/
  ctr : Option (BitVec 16)
deriving DecidableEq, Repr

/-- The handler's own state (R42). -/
structure Handler where
  active : Bool
  /-- The channels this entry still has to service, in order. -/
  todo : List Chan
deriving DecidableEq, Repr

/-- The state of the block, element by element of R18 to R46, and the model's own fields: `cfg`, `inbox`, `tick`,
`hostReads` (log entries 1, 4 and 11). `none` is the spec's value UNWRITTEN. -/
structure State where
  /-- The launch parameters (R12); no step changes them. -/
  cfg : Config
  /-- `st.scan_idx` (R18). -/
  scanIdx : Option LineIdx
  /-- `st.cursor` (R19). -/
  cursor : Option (BitVec 17)
  /-- `st.frame_count` (R20). -/
  frameCount : BitVec 32
  /-- `st.render_active` (R21). -/
  renderActive : Bool
  /-- `st.started` (R22). -/
  started : Bool
  /-- `st.fault` (R23), `none` for NONE. -/
  fault : Option Fault
  /-- `st.refused` (R23). -/
  refused : Bool
  /-- The data space: palette, scanline buffers and framebuffer (R24 to R26, R50). -/
  mem : Memory
  /-- `st.dma[X]` (R27 to R31). -/
  dma : Pair Dma
  /-- `st.intr[X]` (R32). -/
  intr : Pair Bool
  /-- `st.inte[X]` (R33). -/
  inte : Pair Bool
  /-- `st.pwm` (R35 to R40). -/
  pwm : Pwm
  /-- `st.dreq` (R41). -/
  dreq : Nat
  /-- `st.h` (R42). -/
  handler : Handler
  /-- `st.pend[X]` (R45). -/
  pend : Pair Bool
  /-- `st.dma_hist` (R46). -/
  dmaHist : List (BitVec 16)
  /-- `st.out_hist` (R46). -/
  outHist : List (BitVec 16)
  /-- The accesses placed from outside, next first. -/
  inbox : List Access
  /-- The index of the free values; every step advances it. -/
  tick : Nat
  /-- The data words returned to the host, in order. -/
  hostReads : List (BitVec 32)
deriving DecidableEq, Repr

/-- A DMA channel at power-on (R169). -/
def Dma.powerOn : Dma where
  readAddr := none
  writeAddr := none
  countReload := none
  count := 0
  ctrl := none
  busy := false

/-- The PWM slice at power-on (R169). -/
def Pwm.powerOn : Pwm where
  en := false
  div := none
  top := none
  ccB := 0
  cmpB := 0
  ctr := none

/-- The power-on state of R169 for the launch parameters `cfg` and a memory that holds FB_INIT. -/
def State.powerOn (cfg : Config) (mem : Memory) : State where
  cfg := cfg
  scanIdx := none
  cursor := none
  frameCount := 0
  renderActive := false
  started := false
  fault := none
  refused := false
  mem := mem
  dma := ⟨Dma.powerOn, Dma.powerOn⟩
  intr := ⟨false, false⟩
  inte := ⟨false, false⟩
  pwm := Pwm.powerOn
  dreq := 0
  handler := ⟨false, []⟩
  pend := ⟨false, false⟩
  dmaHist := []
  outHist := []
  inbox := []
  tick := 0
  hostReads := []

/-- The machine right after reset: the power-on state of R169 for the standard launch parameters (log entry 1) and an
all-zero FB_INIT (log entry 2), with nothing listed in memory and nothing in the schedule. -/
def State.reset : State := State.powerOn Config.standard []

end Sys2Proof.Machine
end

