-- ==== Sys2Proof/Machine/Memory.lean ====
section
/-!
DEFINITION. The data space (R48 to R57): what an unlisted address reads as, the canonical form, reads and writes. Byte
order is decided here and nowhere else.
-/
namespace Sys2Proof.Machine

/-- What an address that memory does not list reads as: 0 inside the framebuffer (log entry 2), UNWRITTEN elsewhere
(R24, R25). -/
def Memory.unlisted (cfg : Config) (addr : Nat) : Option Byte :=
  if cfg.fbBase.toNat ≤ addr ∧ addr < cfg.fbBase.toNat + fbBytes then some 0 else none

/-- The canonical form: addresses strictly rising, and no cell equal to what its address reads as unlisted. -/
abbrev Memory.wf (cfg : Config) (m : Memory) : Prop :=
  m.Pairwise (fun c d => c.1 < d.1) ∧ ∀ c ∈ m, Memory.unlisted cfg c.1 ≠ some c.2

/-- The byte a list of cells gives an address, if it lists it. -/
def Memory.cell : Memory → Nat → Option Byte
  | [], _ => none
  | c :: rest, addr => if c.1 = addr then some c.2 else Memory.cell rest addr

/-- `MemRead(addr, 1)`; `none` is UNWRITTEN (R15, R50). -/
def Memory.read1 (cfg : Config) (m : Memory) (addr : Nat) : Option Byte :=
  match Memory.cell m addr with
  | some v => some v
  | none => Memory.unlisted cfg addr

/-- `MemRead(addr, 2)`, least significant byte at the lowest address (R52); UNWRITTEN if a byte of it is. -/
def Memory.read2 (cfg : Config) (m : Memory) (addr : Nat) : Option (BitVec 16) :=
  match Memory.read1 cfg m addr, Memory.read1 cfg m (addr + 1) with
  | some lo, some hi => some (hi ++ lo)
  | _, _ => none

/-- `MemRead(addr, 4)`: the pair `{sample at addr + 2, sample at addr}` (R52, R73). -/
def Memory.read4 (cfg : Config) (m : Memory) (addr : Nat) : Option (BitVec 32) :=
  match Memory.read2 cfg m addr, Memory.read2 cfg m (addr + 2) with
  | some lo, some hi => some (hi ++ lo)
  | _, _ => none

/-- The two bytes of a sample, in address order (R52). -/
def sampleBytes (v : BitVec 16) : List Byte := [v.extractLsb' 0 8, v.extractLsb' 8 8]

/-- The four bytes of a word, in address order: its low sample, then its high sample (R52, R73). -/
def wordBytes (w : BitVec 32) : List Byte := sampleBytes (w.extractLsb' 0 16) ++ sampleBytes (w.extractLsb' 16 16)

/-- The cells of a run of bytes from `addr` on, less those that read so unlisted. -/
def Memory.cellsOf (cfg : Config) : Nat → List Byte → Memory
  | _, [] => []
  | addr, v :: rest =>
    if Memory.unlisted cfg addr = some v then Memory.cellsOf cfg (addr + 1) rest
    else (addr, v) :: Memory.cellsOf cfg (addr + 1) rest

/-- Stores a run of bytes from `addr` on; every write of the block goes through here. -/
def Memory.writeBytes (cfg : Config) (m : Memory) (addr : Nat) (bytes : List Byte) : Memory :=
  m.filter (fun c => decide (c.1 < addr)) ++ Memory.cellsOf cfg addr bytes
    ++ m.filter (fun c => decide (addr + bytes.length ≤ c.1))

/-- Stores a run of samples from sample `n` of the array at `base` on (R15's `buf[X][n]`, `pal[j]`). -/
def Memory.writeSamples (cfg : Config) (m : Memory) (base : Addr) (n : Nat) (vs : List Sample) : Memory :=
  Memory.writeBytes cfg m (base.toNat + 2 * n) (vs.flatMap sampleBytes)

/-- The sample `n` of the array of samples at `base`. -/
def Memory.sample (cfg : Config) (m : Memory) (base : Addr) (n : Nat) : Option Sample :=
  Memory.read2 cfg m (base.toNat + 2 * n)

end Sys2Proof.Machine
end

