-- ==== Sys2Proof/Machine/Operands.lean ====
section
/-!
DEFINITION. The operand forms: the arrays of R15 as reads of the state, the pixel addressing of R72 to R74, the colour
encoder's arithmetic (R102 to R105), and the constant lines of samples (R69, R70, R88, R89).
-/
namespace Sys2Proof.Machine

/-! ### The arrays of R15 -/

/-- `buf[X][n]` (R15); `none` is UNWRITTEN. -/
def State.buf (s : State) (x : Chan) (n : Nat) : Option Sample := Memory.sample s.cfg s.mem (s.cfg.bufBase x) n

/-- `pal[j]` (R15, R71). -/
def State.pal (s : State) (j : Nat) : Option Sample := Memory.sample s.cfg s.mem s.cfg.palBase j

/-- `fb[o]` (R15, R74). -/
def State.fb (s : State) (o : Nat) : Option Byte := Memory.read1 s.cfg s.mem (s.cfg.fbBase.toNat + o)

/-- One byte of the data space, by its address. -/
def State.byteAt (s : State) (addr : Nat) : Option Byte := Memory.read1 s.cfg s.mem addr

/-! ### Levels (R69, R70) -/

/-- `SYNC`. -/
abbrev syncLevel : Sample := 0
/-- `BURST_LOW`. -/
abbrev burstLow : Sample := 1
/-- `BLANK`, which is also black. -/
abbrev blankLevel : Sample := 2
/-- `BURST_HIGH`. -/
abbrev burstHigh : Sample := 3
/-- The largest level of the colour encoder (R68, R101). -/
abbrev maxLevel : Nat := 11

/-- The four-sample burst pattern (R70). -/
def burst : List Sample := [blankLevel, burstLow, blankLevel, burstHigh]

/-- The 908 samples of a pre-equalizing line (R88). -/
def preeqSamples : List Sample :=
  List.replicate preeqSyncLen syncLevel ++ List.replicate preeqBlankLen blankLevel

/-- The 908 samples of a vertical-sync line (R89). -/
def vsyncSamples : List Sample :=
  List.replicate hsyncLen syncLevel ++ List.replicate bpPreLen blankLevel
    ++ (List.replicate burstCycles burst).flatten
    ++ List.replicate (samplesPerLine - (burstStart + 4 * burstCycles)) blankLevel

/-- The 640 samples a bottom-blank line writes (R91). -/
def bottomSamples : List Sample := List.replicate activeSamples blankLevel

/-- The subcarrier phase of sample `n` of a line, in degrees (R98). -/
def phaseOf (n : Nat) : Nat := n % 4 * 90

/-- How many of the `top + 1` counter steps of a period the pin is high at a level (R138). -/
def highSteps (level top : Nat) : Nat := min level (top + 1)

/-! ### Pixels (R72 to R74, R90) -/

/-- The phase offset of pixel `k` of a line (R72). -/
def phaseOffset (k : Nat) : Nat := 2 * (k % 2)

/-- The palette sample index of pixel `k` with palette index `p` (R72). -/
def pixelPalIndex (p : Byte) (k : Nat) : Nat := 4 * p.toNat + phaseOffset k

/-- The aligned pair of palette samples that pixel `k` of a line copies, the line's row starting at framebuffer offset
`cur`; `none` where one of the two is UNWRITTEN (R90). -/
def pixelWord (cfg : Config) (m : Memory) (cur k : Nat) : Option (BitVec 32) :=
  match Memory.read1 cfg m (cfg.fbBase.toNat + cur + k) with
  | some p => Memory.read4 cfg m (cfg.palBase.toNat + 2 * pixelPalIndex p k)
  | none => none

/-- The pairs of the `n` pixels from `k` on, or `none` at the first pixel that names an UNWRITTEN sample (R90, R155). -/
def pixelWords (cfg : Config) (m : Memory) (cur : Nat) : Nat → Nat → Option (List (BitVec 32))
  | _, 0 => some []
  | k, n + 1 =>
    match pixelWord cfg m cur k with
    | none => none
    | some w =>
      match pixelWords cfg m cur (k + 1) n with
      | none => none
      | some ws => some (w :: ws)

/-! ### The colour encoder (R102 to R105) -/

/-- `LUMA(R, G, B)` (R102). -/
def luma (red green blue : Byte) : Nat := (77 * red.toNat + 150 * green.toNat + 29 * blue.toNat + 128) / 256

/-- The numerator of phase offset `q` for luminance `y` and colour differences `db`, `dr` (R104). -/
def numerator (q : Fin 4) (y : Nat) (db dr : Int) : Int :=
  match q with
  | 0 => y * 1792 + db * 441 + dr * 1361 + 2 * 65536 + 32768
  | 1 => y * 1792 + db * 764 + dr * (-786) + 2 * 65536 + 32768
  | 2 => y * 1792 - db * 441 - dr * 1361 + 2 * 65536 + 32768
  | 3 => y * 1792 - db * 764 - dr * (-786) + 2 * 65536 + 32768

/-- `PHASE_SAMPLE`: 0 for a negative numerator, else its floor quotient by 65536 (R105). -/
def phaseSample (q : Fin 4) (y : Nat) (db dr : Int) : Nat :=
  if numerator q y db dr < 0 then 0 else (numerator q y db dr / 65536).toNat

/-- The sample value of phase offset `q` for a colour, before the range check (R101, R103). -/
def encodePhase (q : Fin 4) (red green blue : Byte) : Nat :=
  let y := luma red green blue
  phaseSample q y ((blue.toNat : Int) - y) ((red.toNat : Int) - y)

/-- The four sample values of a colour, in phase order (R101). -/
def encodeColour (red green blue : Byte) : List Nat :=
  [encodePhase 0 red green blue, encodePhase 1 red green blue, encodePhase 2 red green blue,
    encodePhase 3 red green blue]

/-! ### UNWRITTEN operands (log entry 3) -/

/-- The line IRQ_SERVICE generates: `scan_idx`, or a free value while it is UNWRITTEN. -/
def State.lineToMake (s : State) : LineIdx :=
  match s.scanIdx with
  | some v => v
  | none => Config.freeScanIdx s.tick

/-- What TRIGGER loads into `count`: `count_reload`, or a free value while it is UNWRITTEN. -/
def State.reloadValue (s : State) (x : Chan) : BitVec 32 :=
  match (s.dma.get x).countReload with
  | some v => v
  | none => Config.freeCountReload s.tick

/-- `(idx + 1) mod 262` (R127). -/
def nextLine (idx : LineIdx) : LineIdx := BitVec.ofNat 9 ((idx.toNat + 1) % linesPerFrame)

end Sys2Proof.Machine
end

