-- ==== Sys2Proof/Machine/Flags.lean ====
section
/-!
DEFINITION. The status flags and what is computed from them: the masked interrupt status and its line (R34), the
service list (R126), the enabling conditions (R114, R125, R127, R128, R136), the "rendering active" flag (R87), and the
fault codes (R153).
-/
namespace Sys2Proof.Machine

/-- `ints[X] = intr[X] AND inte[X]` (R34). -/
def State.ints (s : State) (x : Chan) : Bool := s.intr.get x && s.inte.get x

/-- `irq_line = ints[A] OR ints[B]` (R34, R157). -/
def State.irqLine (s : State) : Bool := s.ints .a || s.ints .b

/-- `SERVICE_LIST(sA, sB)` (R126). -/
def serviceList (policy : BothBitsPolicy) (sA sB : Bool) : List Chan :=
  match sA, sB with
  | true, false => [.a]
  | false, true => [.b]
  | true, true =>
    match policy with
    | .serviceEach => [.a, .b]
    | .aElseB => [.a]
  | false, false => []

/-- PWM_WRAP is enabled, the fault mark apart (R136). -/
def pwmWrapEnabled (s : State) : Bool := s.started && s.pwm.en

/-- DMA_XFER X is enabled, the fault mark apart (R114). -/
def dmaXferEnabled (x : Chan) (s : State) : Bool :=
  s.started && (s.dma.get x).busy && decide (0 < (s.dma.get x).count.toNat) && decide (0 < s.dreq)

/-- IRQ_ENTRY is enabled, the fault mark apart (R125). -/
def irqEntryEnabled (s : State) : Bool := s.started && s.irqLine && !s.handler.active

/-- IRQ_SERVICE is enabled, the fault mark apart (R127). -/
def irqServiceEnabled (s : State) : Bool := s.handler.active && !s.handler.todo.isEmpty

/-- IRQ_RETURN is enabled, the fault mark apart (R128). -/
def irqReturnEnabled (s : State) : Bool := s.handler.active && s.handler.todo.isEmpty

/-- Whether the agent of an operation has this step in `s`, the fault mark apart (R84): the events by their rules, every
other operation always. -/
def enabled (i : Instr) (s : State) : Bool :=
  match i with
  | .palWrite _ _ _ _ => true
  | .start => true
  | .rdFrameCount => true
  | .rdRenderActive => true
  | .pwmWrap => pwmWrapEnabled s
  | .dmaXfer x => dmaXferEnabled x s
  | .dmaComplete _ => true
  | .irqEntry => irqEntryEnabled s
  | .irqService => irqServiceEnabled s
  | .irqReturn => irqReturnEnabled s
  | .fbWrite _ _ => true
  | .genTest _ _ => true
  | .genPreeq _ _ => true
  | .genVsync _ _ => true
  | .genActive _ _ => true
  | .genBottom _ _ => true
  | .genNowrite _ _ => true

/-- Whether an operation may stand as a step of its own in `s`: DMA_COMPLETE never (R83 (d)); a bare generator call as
GEN_TEST does, only before START (R99; log entry 9); every other operation always. -/
def schedulable (i : Instr) (s : State) : Bool :=
  match i with
  | .palWrite _ _ _ _ => true
  | .start => true
  | .rdFrameCount => true
  | .rdRenderActive => true
  | .pwmWrap => true
  | .dmaXfer _ => true
  | .dmaComplete _ => false
  | .irqEntry => true
  | .irqService => true
  | .irqReturn => true
  | .fbWrite _ _ => true
  | .genTest _ _ => true
  | .genPreeq _ _ => !s.started
  | .genVsync _ _ => !s.started
  | .genActive _ _ => !s.started
  | .genBottom _ _ => !s.started
  | .genNowrite _ _ => !s.started

/-- What `render_active` becomes after a generator operation (R87): unchanged without the diagnostics; 1 after an active
line; after another line 0 or unchanged, as `RENDER_FLAG_CLEAR` says (D39). -/
def renderAfter (cfg : Config) (active old : Bool) : Bool :=
  if cfg.diag then
    if active then true
    else
      match cfg.renderFlagClear with
      | .clearOnNonactive => false
      | .sticky => old
  else old

/-- The flag update of R87 after a generator operation. -/
def markRender (active : Bool) (s : State) : State :=
  { s with renderActive := renderAfter s.cfg active s.renderActive }

/-- What `frame_count` becomes after a bottom-blank line: one more, modulo 2^32, on line 276 with the diagnostics
(R20, R91). -/
def frameAfter (cfg : Config) (idx : LineIdx) (old : BitVec 32) : BitVec 32 :=
  if idx = 276 ∧ cfg.diag = true then old + 1 else old

/-- The fault code of R153. -/
def Fault.code : Fault → Nat
  | .clock => 1
  | .dmaAlloc => 2
  | .startTwice => 3
  | .palAfterStart => 4
  | .palRange => 5
  | .palUnwritten => 6
  | .cursor => 7
  | .fbRange => 8
  | .deadline => 9
  | .staleRead => 10
  | .bufUnwritten => 11
  | .internal => 12

/-- The code `st.fault` holds: 0 for NONE (R153). -/
def State.faultCode (s : State) : Nat :=
  match s.fault with
  | none => 0
  | some f => f.code

end Sys2Proof.Machine
end

