-- ==== Sys2Proof/Machine/Ops.lean ====
section
/-!
DEFINITION. The named operations that the meanings share: ending a step (R152, R156, R84), the generator (R87 to R92),
configuring, triggering and completing a DMA channel (R113, R115, R117), and one DMA transfer (R116).
-/
namespace Sys2Proof.Machine

/-- How a step ends (R16): in a next state, a fault, or without an outcome. -/
abbrev Result := Host.Outcome State Fault Refusal

/-! ### Ending a step -/

/-- Runs `k` if the step exists: a faulted machine has no step and keeps its fault (R152), and a step that is not
enabled has no outcome (R84; log entry 5). -/
def whenEnabled (en : Bool) (s : State) (k : Result) : Result :=
  match s.fault with
  | some f => .fault f
  | none => if en then k else .refused .notEnabled

/-- The step's outcome from an operation that may fault (R152). -/
def finish : Except Fault State → Result
  | .ok s => .next s
  | .error f => .fault f

/-- The reasons of R156 that a step can meet. -/
inductive RefuseReason where
  /-- REFUSE_PORT. -/
  | port
  /-- REFUSE_EVENT. -/
  | event
deriving DecidableEq, Repr

/-- The state after `refuse(REASON)`: the mark is set and nothing else changes; the reason is not recorded (R23, R156). -/
def State.markRefused (_reason : RefuseReason) (s : State) : State := { s with refused := true }

/-- `refuse(REASON)`: the other agents keep their steps, so it is a next state (R156; log entry 6). -/
def refuse (reason : RefuseReason) (s : State) : Result := .next (s.markRefused reason)

/-- The refusal of an access that is no operation (R83). -/
def DecodeError.reason : DecodeError → RefuseReason
  | .hostSelector => .port
  | .eventCode => .event
  | .eventBits => .event
  | .fbOffset => .event

/-! ### The generator -/

/-- Stores a run of samples from sample `n` of buffer `x` on. -/
def State.fillBuf (s : State) (x : Chan) (n : Nat) (vs : List Sample) : State :=
  { s with mem := Memory.writeSamples s.cfg s.mem (s.cfg.bufBase x) n vs }

/-- GEN_PREEQ with R87's flag update (R88). -/
def linePreeq (x : Chan) (s : State) : State := markRender false (s.fillBuf x 0 preeqSamples)

/-- GEN_VSYNC with R87's flag update (R89). -/
def lineVsync (x : Chan) (s : State) : State := markRender false (s.fillBuf x 0 vsyncSamples)

/-- The cursor an active line starts from: reset at line 36 (R90). -/
def lineCursor (idx : LineIdx) (s : State) : Option (BitVec 17) := if idx = 36 then some 0 else s.cursor

/-- The stores of an active line: the pairs `ws` of its pixels from sample 172 on, and the cursor one row further (R90). -/
def State.storePixels (s : State) (x : Chan) (cur : BitVec 17) (ws : List (BitVec 32)) : State :=
  { s with
    mem := Memory.writeBytes s.cfg s.mem ((s.cfg.bufBase x).toNat + 2 * activeStart) (ws.flatMap wordBytes)
    cursor := some (cur + 320) }

/-- GEN_ACTIVE with R87's flag update: the checks in the order of R155, then the stores (R90; log entry 13). -/
def lineActive (x : Chan) (idx : LineIdx) (s : State) : Except Fault State :=
  match lineCursor idx s with
  | none => .error .cursor
  | some cur =>
    if fbBytes < cur.toNat + fbWidth then .error .fbRange
    else
      match pixelWords s.cfg s.mem cur.toNat 0 fbWidth with
      | none => .error .palUnwritten
      | some ws => .ok (markRender true (s.storePixels x cur ws))

/-- GEN_BOTTOM with R87's flag update; the frame counter advances on line 276 (R91). -/
def lineBottom (x : Chan) (idx : LineIdx) (s : State) : State :=
  markRender false
    (State.fillBuf { s with frameCount := frameAfter s.cfg idx s.frameCount } x activeStart bottomSamples)

/-- GEN_NOWRITE with R87's flag update (R92). -/
def lineNowrite (s : State) : State := markRender false s

/-- `GENERATE(X, s)` (R87). -/
def generate (x : Chan) (idx : LineIdx) (s : State) : Except Fault State :=
  match classify idx with
  | .preeq => .ok (linePreeq x s)
  | .vsync => .ok (lineVsync x s)
  | .active => lineActive x idx s
  | .bottom => .ok (lineBottom x idx s)
  | .nowrite => .ok (lineNowrite s)

/-! ### The DMA channels -/

/-- The control fields that CONFIGURE writes, the ones the source does not name inactive (R30, D13; log entry 17). -/
def ctrlValue (cfg : Config) (x : Chan) : DmaCtrl where
  en := true
  dataSize := .halfword
  incrRead := true
  incrWrite := false
  treqSel := cfg.pwmSlice
  chainTo := cfg.chNum x.peer
  irqQuiet := false
  ringSize := 0
  ringSel := false
  byteSwap := false
  sniff := false
  highPriority := false

/-- `CONFIGURE(X)` (R113). -/
def configure (x : Chan) (s : State) : State :=
  { s with
    dma := s.dma.set x
      { readAddr := some (s.cfg.bufBase x)
        writeAddr := some s.cfg.ccBAddr
        countReload := some transferCount
        count := 0
        ctrl := some (ctrlValue s.cfg x)
        busy := false } }

/-- `TRIGGER(Y)` (R115): the read address is not reloaded. -/
def trigger (y : Chan) (s : State) : Except Fault State :=
  if (s.dma.get y).busy = true then .error .internal
  else if s.pend.get y = true then .error .deadline
  else .ok { s with dma := s.dma.set y { s.dma.get y with busy := true, count := s.reloadValue y } }

/-- `DMA_COMPLETE(X)` (R117): not busy, the completion bit and the ownership mark set, then the peer triggered. -/
def completeRun (x : Chan) (s : State) : Except Fault State :=
  trigger x.peer
    { s with
      dma := s.dma.set x { s.dma.get x with busy := false }
      intr := s.intr.set x true
      pend := s.pend.set x true }

/-- Whether a byte address lies inside channel `x`'s own buffer (R116). -/
def inOwnBuf (cfg : Config) (x : Chan) (addr : Addr) : Bool :=
  decide ((cfg.bufBase x).toNat ≤ addr.toNat ∧ addr.toNat < (cfg.bufBase x).toNat + bufBytes)

/-- The state after a transfer of the sample `v` from `addr`, its completion apart: the request is answered, `v` goes to
the compare register (R120) and the record, the read address and the count move on (R116). -/
def State.moveSample (s : State) (x : Chan) (addr : Addr) (v : Sample) : State :=
  { s with
    dreq := s.dreq - 1
    pwm := { s.pwm with ccB := v }
    dmaHist := s.dmaHist ++ [v]
    dma := s.dma.set x { s.dma.get x with readAddr := some (addr + 2), count := (s.dma.get x).count - 1 } }

/-- `DMA_XFER(X)` (R116). An UNWRITTEN read address is no address of the buffer (log entry 3). -/
def transfer (x : Chan) (s : State) : Except Fault State :=
  match (s.dma.get x).readAddr with
  | none => .error .staleRead
  | some addr =>
    if inOwnBuf s.cfg x addr = false then .error .staleRead
    else
      match Memory.read2 s.cfg s.mem addr.toNat with
      | none => .error .bufUnwritten
      | some v =>
        let s1 := s.moveSample x addr v
        if (s1.dma.get x).count = 0 then completeRun x s1 else .ok s1

end Sys2Proof.Machine
end

