-- ==== Sys2Proof/Machine/Environment.lean ====
section
/-!
DEFINITION. The environment: the content producer's FB_WRITE (R147) and the test harness's GEN_TEST (R99).
-/
namespace Sys2Proof.Machine

/-- FB_WRITE offset, byte (R147). -/
def execFbWrite (offset : BitVec 17) (byte : Byte) (s : State) : Result :=
  whenEnabled true s <|
    if fbBytes ≤ offset.toNat then refuse .event s
    else .next { s with mem := Memory.writeBytes s.cfg s.mem (s.cfg.fbBase.toNat + offset.toNat) [byte] }

/-- GEN_TEST X, s (R99): a direct call of the generator, refused once the engine has started. -/
def execGenTest (x : Chan) (idx : LineIdx) (s : State) : Result :=
  whenEnabled true s <| if s.started = true then refuse .event s else finish (generate x idx s)

end Sys2Proof.Machine
end

