-- ==== Sys2Proof/Machine/Generator.lean ====
section
/-!
DEFINITION. The five region operations of the generator as operations of their own: each with the flag update that R87
makes after it.
-/
namespace Sys2Proof.Machine

/-- GEN_PREEQ (R88). -/
def execGenPreeq (x : Chan) (s : State) : Result := whenEnabled true s (.next (linePreeq x s))

/-- GEN_VSYNC (R89). -/
def execGenVsync (x : Chan) (s : State) : Result := whenEnabled true s (.next (lineVsync x s))

/-- GEN_ACTIVE (R90). -/
def execGenActive (x : Chan) (idx : LineIdx) (s : State) : Result := whenEnabled true s (finish (lineActive x idx s))

/-- GEN_BOTTOM (R91). -/
def execGenBottom (x : Chan) (idx : LineIdx) (s : State) : Result := whenEnabled true s (.next (lineBottom x idx s))

/-- GEN_NOWRITE (R92): no sample of the buffer is written. -/
def execGenNowrite (s : State) : Result := whenEnabled true s (.next (lineNowrite s))

end Sys2Proof.Machine
end

