-- ==== Sys2Proof/Machine/HostPort.lean ====
section
/-!
DEFINITION. The host's operations: PAL_WRITE (R101), START (R144), RD_FRAME_COUNT (R145), RD_RENDER_ACTIVE (R146).
-/
namespace Sys2Proof.Machine

/-- PAL_WRITE index, B, R, G (R101): a fault after START; else the four samples of the entry, each checked against the
largest level. -/
def execPalWrite (index blue red green : BitVec 8) (s : State) : Result :=
  whenEnabled true s <|
    if s.started = true then .fault .palAfterStart
    else if (encodeColour red green blue).any (fun v => decide (maxLevel < v)) = true then .fault .palRange
    else
      .next
        { s with
          mem := Memory.writeSamples s.cfg s.mem s.cfg.palBase (4 * index.toNat)
            ((encodeColour red green blue).map (BitVec.ofNat 16)) }

/-- The slice and both channels as START configures them (R135, R113, R144). -/
def startConfigured (s : State) : State :=
  configure .b (configure .a
    { s with pwm := { s.pwm with div := some pwmDiv, top := some pwmTop, ccB := 0, cmpB := 0 } })

/-- The writes of START between its two generated lines and the trigger of channel A (R144). -/
def startEnabled (s : State) : State :=
  { s with
    scanIdx := some 2
    intr := ⟨false, false⟩
    inte := ⟨true, true⟩
    dreq := 0
    pwm := { s.pwm with en := true }
    started := true }

/-- START (R144), its checks in the order of R155. -/
def execStart (s : State) : Result :=
  whenEnabled true s <|
    if s.started = true then .fault .startTwice
    else if s.cfg.sysClkHz ≠ sysClkHzRequired then .fault .clock
    else if s.cfg.freeDmaChannels.val < 2 then .fault .dmaAlloc
    else
      finish <|
        (generate .a 0 (startConfigured s)).bind fun s1 =>
          (generate .b 1 s1).bind fun s2 => trigger .a (startEnabled s2)

/-- RD_FRAME_COUNT (R145): returns the counter to the host; refused without the diagnostics (R83 (b)). -/
def execRdFrameCount (s : State) : Result :=
  whenEnabled true s <|
    if s.cfg.diag = true then .next { s with hostReads := s.hostReads ++ [s.frameCount] } else refuse .port s

/-- RD_RENDER_ACTIVE (R146): returns the zero-extended flag to the host; refused without the diagnostics (R83 (b)). -/
def execRdRenderActive (s : State) : Result :=
  whenEnabled true s <|
    if s.cfg.diag = true then
      .next { s with hostReads := s.hostReads ++ [(BitVec.ofBool s.renderActive).setWidth 32] }
    else refuse .port s

end Sys2Proof.Machine
end

