-- ==== Sys2Proof/Machine/Irq.lean ====
section
/-!
DEFINITION. The completion-interrupt handler: taking the interrupt (R125), servicing a channel (R127) and returning
(R128). The one interrupt of the block is taken here and nowhere else (R157 to R160).
-/
namespace Sys2Proof.Machine

/-- Entering the handler: one read of the masked status, the bits read as 1 cleared, and the list of channels to
service (R125, R126). No other state is saved or changed (R159). -/
def enterHandler (s : State) : State :=
  { s with
    intr := ⟨s.intr.a && !s.ints .a, s.intr.b && !s.ints .b⟩
    handler := ⟨true, serviceList s.cfg.bothBits (s.ints .a) (s.ints .b)⟩ }

/-- Returning from the handler restores nothing (R128, R160). -/
def leaveHandler (s : State) : State := { s with handler := { s.handler with active := false } }

/-- The writes of a service after its generation: the read address back to the buffer's base, the next scanline index,
the buffer handed back (R127). -/
def handBack (x : Chan) (line : LineIdx) (s : State) : State :=
  { s with
    dma := s.dma.set x { s.dma.get x with readAddr := some (s.cfg.bufBase x) }
    scanIdx := some (nextLine line)
    pend := s.pend.set x false }

/-- Refilling the buffer of channel `x`, the rest of the service list being `rest` (R127). -/
def service (x : Chan) (rest : List Chan) (s : State) : Except Fault State :=
  (generate x s.lineToMake { s with handler := { s.handler with todo := rest } }).bind fun s1 =>
    .ok (handBack x s.lineToMake s1)

/-- IRQ_ENTRY (R125). -/
def execIrqEntry (s : State) : Result := whenEnabled (irqEntryEnabled s) s (.next (enterHandler s))

/-- IRQ_SERVICE (R127): the channel is the head of the service list. -/
def execIrqService (s : State) : Result :=
  whenEnabled (irqServiceEnabled s) s <|
    match s.handler.todo with
    | [] => .refused .notEnabled
    | x :: rest => finish (service x rest s)

/-- IRQ_RETURN (R128). -/
def execIrqReturn (s : State) : Result := whenEnabled (irqReturnEnabled s) s (.next (leaveHandler s))

end Sys2Proof.Machine
end

