-- ==== Sys2Proof/Machine/Pwm.lean ====
section
/-!
DEFINITION. The PWM sample clock: PWM_WRAP (R136).
-/
namespace Sys2Proof.Machine

/-- PWM_WRAP (R136): the compare value last written is latched for the new period and recorded, and one more data
request is counted. -/
def execPwmWrap (s : State) : Result :=
  whenEnabled (pwmWrapEnabled s) s <|
    .next
      { s with
        pwm := { s.pwm with cmpB := s.pwm.ccB }
        outHist := s.outHist ++ [s.pwm.ccB]
        dreq := s.dreq + 1 }

end Sys2Proof.Machine
end

