-- ==== Sys2Proof/Machine/Transport.lean ====
section
/-!
DEFINITION. The ping-pong transport: DMA_XFER (R116) and DMA_COMPLETE (R117).
-/
namespace Sys2Proof.Machine

/-- DMA_XFER X (R116), enabled by R114. -/
def execDmaXfer (x : Chan) (s : State) : Result := whenEnabled (dmaXferEnabled x s) s (finish (transfer x s))

/-- DMA_COMPLETE X (R117): what the operation does inside the DMA_XFER that ends the run. Given as a step of its own it
is refused (R83 (d)): that is `present`'s check, not this meaning's (log entry 8). -/
def execDmaComplete (x : Chan) (s : State) : Result := whenEnabled true s (finish (completeRun x s))

end Sys2Proof.Machine
end

