-- ==== Sys2Proof/Machine/Dispatch.lean ====
section
/-!
DEFINITION. Which meaning each operation has: one arm for each constructor of Instr.
-/
namespace Sys2Proof.Machine

def exec (i : Instr) (s : State) : Host.Outcome State Fault Refusal :=
  match i with
  | .palWrite index blue red green => Sys2Proof.Machine.execPalWrite index blue red green s
  | .start => Sys2Proof.Machine.execStart s
  | .rdFrameCount => Sys2Proof.Machine.execRdFrameCount s
  | .rdRenderActive => Sys2Proof.Machine.execRdRenderActive s
  | .pwmWrap => Sys2Proof.Machine.execPwmWrap s
  | .dmaXfer x => Sys2Proof.Machine.execDmaXfer x s
  | .dmaComplete x => Sys2Proof.Machine.execDmaComplete x s
  | .irqEntry => Sys2Proof.Machine.execIrqEntry s
  | .irqService => Sys2Proof.Machine.execIrqService s
  | .irqReturn => Sys2Proof.Machine.execIrqReturn s
  | .fbWrite offset byte => Sys2Proof.Machine.execFbWrite offset byte s
  | .genTest x idx => Sys2Proof.Machine.execGenTest x idx s
  | .genPreeq x _ => Sys2Proof.Machine.execGenPreeq x s
  | .genVsync x _ => Sys2Proof.Machine.execGenVsync x s
  | .genActive x idx => Sys2Proof.Machine.execGenActive x idx s
  | .genBottom x idx => Sys2Proof.Machine.execGenBottom x idx s
  | .genNowrite _ _ => Sys2Proof.Machine.execGenNowrite s

end Sys2Proof.Machine
end

