-- ==== Sys2Proof/Machine/Present.lean ====
section
/-!
DEFINITION. How an access becomes a step (R84, R86): decoded, checked for standing as a step of its own, and executed;
and how the free choice of the environment becomes one.
-/
namespace Sys2Proof.Machine

/-- The step that an access placed in the schedule makes in `s`: an access that is no operation is refused (R83), an
operation that may not stand as a step of its own too (R83 (d), R99), and any other is executed (R86). -/
def present (acc : Access) (s : State) : Result :=
  match decode acc with
  | .error e => refuse (DecodeError.reason e) s
  | .ok i => if schedulable i s then exec i s else refuse .event s

/-- Whether an access is a step some agent has in `s` (R84): it always is where it is refused. -/
def hasStep (acc : Access) (s : State) : Bool :=
  match decode acc with
  | .error _ => true
  | .ok i => if schedulable i s then enabled i s else true

/-- The step of a freely chosen access: an agent that is not enabled has no step, so nothing happens (R84, R114). -/
def presentFree (acc : Access) (s : State) : Result := if hasStep acc s then present acc s else .next s

/-- The state once an access has been taken: the schedule left over, and the index of the free values moved on. -/
def State.advance (s : State) (rest : List Access) : State := { s with inbox := rest, tick := s.tick + 1 }

/-- Fetching from the schedule: its next access, if it has one, and the state with it taken. -/
def takeAccess (s : State) : Option Access × State :=
  match s.inbox with
  | [] => (none, s.advance [])
  | acc :: rest => (some acc, s.advance rest)

/-- One step: none after a fault (R152); else the next access of the schedule, or, where it names none, any access the
environment may choose (R158; log entry 4). -/
def stepOf (s : State) : Result :=
  match s.fault with
  | some f => .fault f
  | none =>
    match takeAccess s with
    | (some acc, s1) => present acc s1
    | (none, s1) => presentFree (Config.freeAccess s.tick) s1

/-- The state with an access placed first in the schedule. -/
def State.withAccess (s : State) (acc : Access) : State := { s with inbox := acc :: s.inbox }

end Sys2Proof.Machine
end

