-- ==== Sys2Proof/Machine/Step.lean ====
section
/-!
DEFINITION. One step of the machine, and how an operation is placed to be the next step.
-/
namespace Sys2Proof.Machine

/-- One step (`stepOf`). -/
def step (s : State) : Host.Outcome State Fault Refusal := stepOf s

/-- `s` with the operation whose bits, as spec/opcode_table.json numbers them, are `w` placed first in the schedule, so
that the next step runs it (log entry 4). -/
def State.withFetchWord (s : State) (nbits w : Nat) : State := s.withAccess (tableAccess nbits w)

end Sys2Proof.Machine
end

