-- ==== Sys2Proof/Machine/Layout.lean ====
section
/-!
DEFINITION. The informative RP2040 register words of R81 and R82 and addresses of R60, as views of the abstract fields;
no step reads them (R49; log entry 25).
-/
namespace Sys2Proof.Machine

/-- The code of `DATA_SIZE` in a control word (R81). -/
def DataSize.code : DataSize → Nat
  | .byte => 0
  | .halfword => 1
  | .word => 2

/-- The `CTRL` word of a channel (R81), its read-only bits left 0. -/
def ctrlWord (c : DmaCtrl) : BitVec 32 :=
  (0 : BitVec 8) ++ BitVec.ofBool c.sniff ++ BitVec.ofBool c.byteSwap ++ BitVec.ofBool c.irqQuiet
    ++ BitVec.ofNat 6 (24 + c.treqSel.val) ++ BitVec.ofNat 4 c.chainTo.val ++ BitVec.ofBool c.ringSel ++ c.ringSize
    ++ BitVec.ofBool c.incrWrite ++ BitVec.ofBool c.incrRead ++ BitVec.ofNat 2 c.dataSize.code
    ++ BitVec.ofBool c.highPriority ++ BitVec.ofBool c.en

/-- The `CSR` word of the slice: only `EN` can be set, since the slice runs free, trailing-edge and not inverted
(R35, R82). -/
def pwmCsrWord (p : Pwm) : BitVec 32 := (0 : BitVec 31) ++ BitVec.ofBool p.en

/-- The address of the upper half of slice `n`'s compare register (R60). -/
def ccBAddrOfSlice (n : Nat) : Addr := BitVec.ofNat 32 (0x40050000 + 0x14 * n + 0x0C + 2)

end Sys2Proof.Machine
end

