-- ==== Sys2Proof/Machine/Launch.lean ====
section
/-!
DEFINITION. The launch: the placement check (R51, R53 to R55, R156) and the power-on state for any launch parameters and
any framebuffer contents (R26, R169).
-/
namespace Sys2Proof.Machine

/-- The four data regions, each a base and a size in bytes (R51). -/
def dataRegions (cfg : Config) : List (Nat × Nat) :=
  [(cfg.fbBase.toNat, fbBytes), (cfg.palBase.toNat, palBytes), (cfg.bufABase.toNat, bufBytes),
    (cfg.bufBBase.toNat, bufBytes)]

/-- Two regions share no byte. -/
def regionsApart (r t : Nat × Nat) : Bool := decide (r.1 + r.2 ≤ t.1 ∨ t.1 + t.2 ≤ r.1)

/-- A region's base is 4-byte aligned (R53 to R55) and the region ends inside the 32-bit data space (R50; log entry 14). -/
def regionPlaced (r : Nat × Nat) : Bool := decide (r.1 % 4 = 0 ∧ r.1 + r.2 ≤ 2 ^ 32)

/-- `CC_B_ADDR` is 2-byte aligned (R56) and its two bytes lie in none of the data regions: the domain "aligned, disjoint"
that spec/92_eei_decisions.md gives it. That a launch outside that domain is refused is the model's reading (log
entry 14). -/
def sinkPlaced (cfg : Config) : Bool :=
  decide (cfg.ccBAddr.toNat % 2 = 0) && (dataRegions cfg).all (regionsApart (cfg.ccBAddr.toNat, 2))

/-- Whether the launch is accepted: aligned, pairwise disjoint regions (R51), an odd output pin (R12, R156), two
distinct channels (R12; log entry 14) and a sink of the DMA that is aligned and apart from the regions (R56; log
entry 14). -/
def placementOk (cfg : Config) : Bool :=
  (dataRegions cfg).all regionPlaced
    && decide ((dataRegions cfg).Pairwise (fun r t => regionsApart r t = true))
    && decide (cfg.outPin.val % 2 = 1)
    && decide (cfg.chA ≠ cfg.chB)
    && sinkPlaced cfg

/-- The power-on state of a launch with FB_INIT `fbInit`; REFUSE_PLACEMENT where the placement is not valid: such a
launch has no initial state (R156). -/
def launch (cfg : Config) (fbInit : Vector Byte fbBytes) : Except Refusal State :=
  if placementOk cfg = true then .ok (State.powerOn cfg (Memory.cellsOf cfg cfg.fbBase.toNat fbInit.toList))
  else .error .placement

end Sys2Proof.Machine
end

