-- ==== Sys2Proof/Machine/Program.lean ====
section
/-!
DEFINITION. Programs of the block (R84): sequences of accesses, and the pseudo-operations BEAT, BEATS, HANDLE, PACED and
LOAD_PALETTE with their expansions.
-/
namespace Sys2Proof.Machine

/-- Going on from a next state. -/
def andThen (r : Result) (k : State → Result) : Result :=
  match r with
  | .next s => k s
  | .fault f => .fault f
  | .refused e => .refused e

/-- The step that one access makes. -/
def runAccess (acc : Access) (s : State) : Result := step (s.withAccess acc)

/-- A program: its accesses, in order. -/
def runProgram : List Access → State → Result
  | [], s => .next s
  | acc :: rest, s => andThen (runAccess acc s) (runProgram rest)

/-- The channel with `busy = 1` (R84's `X`); at most one is (R118). -/
def busyChan (s : State) : Option Chan :=
  if s.dma.a.busy = true then some .a else if s.dma.b.busy = true then some .b else none

/-- `BEAT` (R84). -/
def beat (s : State) : Result :=
  andThen (runAccess (encode .pwmWrap) s) fun s1 =>
    match busyChan s1 with
    | some x => runAccess (encode (.dmaXfer x)) s1
    | none => .refused .notEnabled

/-- `BEATS n` (R84). -/
def beats : Nat → State → Result
  | 0, s => .next s
  | n + 1, s => andThen (beat s) (beats n)

/-- `HANDLE` (R84): IRQ_ENTRY, one IRQ_SERVICE for each entry of the service list, IRQ_RETURN. -/
def handleIrq (s : State) : Result :=
  andThen (runAccess (encode .irqEntry) s) fun s1 =>
    runProgram (List.replicate s1.handler.todo.length (encode .irqService) ++ [encode .irqReturn]) s1

/-- `PACED n` (R84): n beats, each followed by HANDLE if the interrupt line is high. -/
def paced : Nat → State → Result
  | 0, s => .next s
  | n + 1, s =>
    andThen (beat s) fun s1 =>
      if s1.irqLine = true then andThen (handleIrq s1) (paced n) else paced n s1

/-- `LOAD_PALETTE T` (R84), the table given as (R, G, B) triples from index 0 on. -/
def loadPalette (table : List (Byte × Byte × Byte)) : List Access :=
  table.zipIdx.map fun e => encode (.palWrite (BitVec.ofNat 8 e.2) e.1.2.2 e.1.1 e.1.2.1)

end Sys2Proof.Machine
end

