-- ==== Sys2Proof/Safety.lean ====
section
/-!
DEFINITION. Runs and the premises of claims: LAUNCH_OK (R172), HANDLER_PROMPT (R174), DMA_PACE (R177), FB_QUIET (R178), weak
fairness (R179), the end of a run (R183); the lines the engine emits (R97); and the invariants of the block before and
after START.
-/
namespace Sys2Proof.Machine

/-! ### Runs -/

/-- `Run s accs t`: the accesses `accs`, each as one step, lead from `s` to `t` without a fault or a refused outcome. -/
inductive Run : State → List Access → State → Prop where
  | done (s : State) : Run s [] s
  | more {s s' t : State} {acc : Access} {rest : List Access} :
      step (s.withAccess acc) = .next s' → Run s' rest t → Run s (acc :: rest) t

/-- What a claim of `n` samples counts (R183): the periods output, or the samples the DMA has sent. -/
inductive Stream where
  | output
  | dma
deriving DecidableEq, Repr

/-- How many samples of the stream there have been. -/
def Stream.sent : Stream → State → Nat
  | .output, s => s.outHist.length
  | .dma, s => s.dmaHist.length

/-- `u` is the end of a run for a claim of `n` samples, `accs` being the steps from START's state `t` (R183): the first
state after START in which `n` samples have been sent, and a state without a fault. -/
structure RunEnded (stream : Stream) (n : Nat) (t : State) (accs : List Access) (u : State) : Prop where
  afterStart : ∃ s, exec .start s = .next t
  run : Run t accs u
  reached : stream.sent u = n
  first : ∀ before after v, accs = before ++ after → after ≠ [] → Run t before v → stream.sent v ≠ n
  noFault : u.fault = none

/-- An endless run: the states, and the access that leads from each to the next. -/
def EndlessRun (states : Nat → State) (accs : Nat → Access) : Prop :=
  ∀ k, step ((states k).withAccess (accs k)) = .next (states (k + 1))

/-! ### Premises -/

/-- Every one of the 1,024 palette samples has been written (R172, its simplest form). -/
abbrev paletteLoaded (s : State) : Prop := ∀ j < 1024, (s.pal j).isSome = true

/-- The byte `p` is held by the framebuffer at some step of the run that makes `accs` from `s` on: it is there at the
start, or a step of the producer writes it (R26, R172). -/
def byteHeld (s : State) (accs : List Access) (p : Byte) : Prop :=
  (∃ o < fbBytes, s.fb o = some p) ∨ ∃ acc ∈ accs, ∃ offset, decode acc = .ok (.fbWrite offset p)

/-- The palette has a sample for every byte that the framebuffer holds at a step of the run (R172). -/
def paletteCovers (s : State) (accs : List Access) : Prop :=
  ∀ p, byteHeld s accs p → ∀ q < 4, (s.pal (4 * p.toNat + q)).isSome = true

/-- LAUNCH_OK (R172) for a START in `s` and the steps `accs` after it. -/
structure LaunchOk (s : State) (accs : List Access) : Prop where
  placed : placementOk s.cfg = true
  clock : s.cfg.sysClkHz = sysClkHzRequired
  channels : 2 ≤ s.cfg.freeDmaChannels.val
  covers : paletteCovers s accs

/-- DMA_PACE (R177): before every PWM_WRAP of the run no request is outstanding. -/
def dmaPace : State → List Access → Prop
  | _, [] => True
  | s, acc :: rest =>
    (decode acc = .ok .pwmWrap → s.dreq = 0) ∧ ∀ s', step (s.withAccess acc) = .next s' → dmaPace s' rest

/-- What the deadline is about: a run of channel `x` completed, or channel `x` serviced. -/
inductive Mark where
  | completed (x : Chan)
  | serviced (x : Chan)
deriving DecidableEq, Repr

/-- The mark that an access leaves when it is the step made in `s`: the transfer that ends a run, or a service. -/
def markOf (acc : Access) (s : State) : Option Mark :=
  match decode acc with
  | .ok (.dmaXfer x) => if (s.dma.get x).count = 1 then some (.completed x) else none
  | .ok .irqService => s.handler.todo.head?.map .serviced
  | _ => none

/-- The marks of a run, in order, up to where it stops. -/
def marks : State → List Access → List Mark
  | _, [] => []
  | s, acc :: rest =>
    (markOf acc s).toList ++
      match step (s.withAccess acc) with
      | .next s' => marks s' rest
      | _ => []

/-- Channel `x` is serviced before its peer completes, as far as the marks go. -/
def servedFirst (x : Chan) : List Mark → Bool
  | [] => true
  | .serviced y :: rest => if y = x then true else servedFirst x rest
  | .completed y :: rest => if y = x.peer then false else servedFirst x rest

/-- The channels whose runs completed, in order. -/
def completions : List Mark → List Chan
  | [] => []
  | .completed x :: rest => x :: completions rest
  | .serviced _ :: rest => completions rest

/-- The channels serviced, in order. -/
def services : List Mark → List Chan
  | [] => []
  | .completed _ :: rest => services rest
  | .serviced x :: rest => x :: services rest

/-- HANDLER_PROMPT (R174): after every completion of a channel its service comes before the next completion of the
peer. -/
def handlerPrompt : List Mark → Bool
  | [] => true
  | .completed x :: rest => servedFirst x rest && handlerPrompt rest
  | .serviced _ :: rest => handlerPrompt rest

/-- Line `l` is being made: the handler is active, and its service is about to make the line or has just made it. On the
chip the generation of the line lies between the handler's entry and its return (R127, R178), so that this is when it
could overlap a write; the model makes it at one instant in between (log entry 16). -/
def makingLine (s : State) (l : Nat) : Prop :=
  s.handler.active = true ∧
    s.scanIdx = some (BitVec.ofNat 9 ((if s.handler.todo = [] then l + 1 else l) % linesPerFrame))

/-- The access writes a byte of framebuffer row `row`. -/
def writesRow (row : Nat) (acc : Access) : Prop :=
  ∃ offset byte, decode acc = .ok (.fbWrite offset byte) ∧
    fbWidth * row ≤ offset.toNat ∧ offset.toNat < fbWidth * (row + 1)

/-- FB_QUIET for framebuffer row `row` (R178): no write of the row while the line that shows it, `row + 36`, is being
made. -/
def fbQuiet (row : Nat) : State → List Access → Prop
  | _, [] => True
  | s, acc :: rest =>
    (makingLine s (row + 36) → ¬writesRow row acc) ∧
      ∀ s', step (s.withAccess acc) = .next s' → fbQuiet row s' rest

/-! ### Fairness (R179) -/

/-- The agents of R5. -/
inductive Agent where
  | pwm
  | dma (x : Chan)
  | irq
  | env
  | host
deriving DecidableEq, Repr

/-- The agent whose step an operation is; `none` for those that no agent takes (R99, R117). -/
def agentOf : Instr → Option Agent
  | .palWrite _ _ _ _ => some .host
  | .start => some .host
  | .rdFrameCount => some .host
  | .rdRenderActive => some .host
  | .pwmWrap => some .pwm
  | .dmaXfer x => some (.dma x)
  | .dmaComplete _ => none
  | .irqEntry => some .irq
  | .irqService => some .irq
  | .irqReturn => some .irq
  | .fbWrite _ _ => some .env
  | .genTest _ _ => none
  | .genPreeq _ _ => none
  | .genVsync _ _ => none
  | .genActive _ _ => none
  | .genBottom _ _ => none
  | .genNowrite _ _ => none

/-- The agent has a step in `s`. -/
def agentEnabled (agent : Agent) (s : State) : Prop :=
  s.fault = none ∧ ∃ i, agentOf i = some agent ∧ enabled i s = true

/-- The access is a step of the agent. -/
def isStepOf (agent : Agent) (acc : Access) : Prop := ∃ i, decode acc = .ok i ∧ agentOf i = some agent

/-- Weak fairness (R179) of an endless run: an agent of the block, once it stays enabled, takes a step. The host and the
content producer, which act at their own pace, are never made to (R147, R149; log entry 15). -/
def WeaklyFair (states : Nat → State) (accs : Nat → Access) : Prop :=
  ∀ agent ∈ [Agent.pwm, .dma .a, .dma .b, .irq], ∀ k, (∀ j, k ≤ j → agentEnabled agent (states j)) →
    ∃ j, k ≤ j ∧ isStepOf agent (accs j)

/-! ### The lines the engine emits (R97) -/

/-- Sample `n` of a pre-equalizing line (R88, R97). -/
def preeqSample (n : Nat) : Sample := if n < 840 then syncLevel else blankLevel

/-- Sample `n` of a vertical-sync line (R89, R97): sync, blank, nine bursts from sample 76 on, blank. -/
def vsyncSample (n : Nat) : Sample :=
  if n < 68 then syncLevel
  else if n < 76 then blankLevel
  else if n < 112 then
    (if (n - 76) % 4 = 1 then burstLow else if (n - 76) % 4 = 3 then burstHigh else blankLevel)
  else blankLevel

/-- Sample `n` of line `l` as the running engine emits it, by the table of R97; `none` for the pixel samples of an
active line. -/
def lineSample (l n : Nat) : Option Sample :=
  if l < 10 then some (preeqSample n)
  else if l < 36 then some (vsyncSample n)
  else if activeStart ≤ n ∧ n < activeStart + activeSamples then none
  else some (vsyncSample n)

/-- Buffer `x` holds line `l`: all of its samples are written, and those the table of R97 gives have the table's value. -/
abbrev holdsLine (s : State) (x : Chan) (l : Nat) : Prop :=
  ∀ n < samplesPerLine, ∃ v, s.buf x n = some v ∧ ∀ w, lineSample l n = some w → v = w

/-! ### When a line can be generated -/

/-- The generator can make line `idx` (R90): a line of another region always; an active line if its cursor has a value,
its row lies in the framebuffer, and the two samples that each of its pixels names have been written. -/
def lineReady (s : State) (idx : LineIdx) : Prop :=
  classify idx = .active →
    ∃ cur, lineCursor idx s = some cur ∧ cur.toNat + 320 ≤ 76800 ∧
      ∀ k < 320, ∀ p, s.fb (cur.toNat + k) = some p →
        (s.pal (4 * p.toNat + 2 * (k % 2))).isSome = true ∧ (s.pal (4 * p.toNat + 2 * (k % 2) + 1)).isSome = true

/-! ### Invariants -/

/-- Every listed byte of memory lies in one of the four regions (R50). -/
abbrev memoryInRegions (s : State) : Prop :=
  ∀ c ∈ s.mem, ∃ r ∈ dataRegions s.cfg, r.1 ≤ c.1 ∧ c.1 < r.1 + r.2

/-- The form of the data that every state of the block has: memory canonical and inside the four regions (R50), the
scanline index below 262 (R18) and the cursor at most 76,800 (R19). -/
structure DataOk (s : State) : Prop where
  memWf : Memory.wf s.cfg s.mem
  memPlaced : memoryInRegions s
  scanBound : ∀ v, s.scanIdx = some v → v.toNat < linesPerFrame
  cursorBound : ∀ v, s.cursor = some v → v.toNat ≤ fbBytes

/-- The block before START (R169, R171): whatever the host, the producer and the harness have done, no internal agent
has had a step. -/
structure BeforeStart (s : State) : Prop where
  placed : placementOk s.cfg = true
  notStarted : s.started = false
  noFault : s.fault = none
  pwmOff : s.pwm.en = false
  notBusy : s.dma.a.busy = false ∧ s.dma.b.busy = false
  noIntr : s.intr = ⟨false, false⟩
  masked : s.inte = ⟨false, false⟩
  noPend : s.pend = ⟨false, false⟩
  noRequest : s.dreq = 0
  handlerIdle : s.handler = ⟨false, []⟩
  noDmaHist : s.dmaHist = []
  noOutHist : s.outHist = []

/-- The channel that sends the `m`-th run: A for an even `m` (R122). -/
def chanOf (m : Nat) : Chan := if m % 2 = 0 then .a else .b

/-- The running engine in the middle of run `m`, `x` the busy channel (R96, R118, R122, R134): `x` owns its buffer and
has `count` transfers left; its peer has either been handed back, with the next line in its buffer, or still awaits its
service, its completion bit set or its service listed. -/
structure Running (s : State) (m : Nat) (x : Chan) : Prop where
  placed : placementOk s.cfg = true
  isStarted : s.started = true
  noFault : s.fault = none
  pwmOn : s.pwm.en = true
  unmasked : s.inte = ⟨true, true⟩
  turn : x = chanOf m
  busy : (s.dma.get x).busy = true
  peerIdle : (s.dma.get x.peer).busy = false
  reload : ∀ y, (s.dma.get y).countReload = some transferCount
  countPos : 0 < (s.dma.get x).count.toNat
  countMax : (s.dma.get x).count.toNat ≤ samplesPerLine
  reading : (s.dma.get x).readAddr
    = some (s.cfg.bufBase x + BitVec.ofNat 32 (2 * (samplesPerLine - (s.dma.get x).count.toNat)))
  ownedByDma : s.pend.get x = false
  noIntr : s.intr.get x = false
  idleTodo : s.handler.active = false → s.handler.todo = []
  histLength : s.dmaHist.length = samplesPerLine * m + (samplesPerLine - (s.dma.get x).count.toNat)
  sending : holdsLine s x (m % linesPerFrame)
  peer :
    (s.pend.get x.peer = false ∧ s.intr.get x.peer = false ∧ s.handler.todo = []
      ∧ (s.dma.get x.peer).readAddr = some (s.cfg.bufBase x.peer)
      ∧ s.scanIdx = some (BitVec.ofNat 9 ((m + 2) % linesPerFrame))
      ∧ holdsLine s x.peer ((m + 1) % linesPerFrame))
    ∨ (0 < m ∧ s.pend.get x.peer = true
      ∧ ((s.intr.get x.peer = true ∧ s.handler.todo = [])
        ∨ (s.intr.get x.peer = false ∧ s.handler.todo = [x.peer]))
      ∧ s.scanIdx = some (BitVec.ofNat 9 ((m + 1) % linesPerFrame))
      ∧ holdsLine s x.peer ((m - 1) % linesPerFrame))
  cursorAt : ∀ v, s.scanIdx = some v → 36 < v.toNat → s.cursor = some (BitVec.ofNat 17 (fbWidth * (v.toNat - 36)))
  emitted : ∀ i < s.dmaHist.length, ∀ w,
    lineSample (i / samplesPerLine % linesPerFrame) (i % samplesPerLine) = some w → s.dmaHist[i]? = some w

/-- The invariant of the block: before START, or running. -/
def EngineInv (s : State) : Prop := BeforeStart s ∨ ∃ m x, Running s m x

end Sys2Proof.Machine
end

