-- ==== Sys2Proof/Certificates/Slice0/Obligations.lean ====
section
/-!
DEFINITION. The statements for the provers. Each docstring names the rules it formalises; a clause that is the model's own
choice names its log entry.
-/

open Sys2Proof Sys2Proof.Machine

/-! ### Launch and reset -/

/-- R169: the power-on state of every accepted launch, element by element, for any FB_INIT (R26). -/
def Obligations.LaunchGivesPowerOnState : Prop :=
  ∀ (cfg : Config) (fbInit : Vector Byte fbBytes) (s : State), launch cfg fbInit = .ok s →
    s.scanIdx = none ∧ s.cursor = none ∧ s.frameCount = 0 ∧ s.renderActive = false ∧ s.started = false ∧
    s.fault = none ∧ s.refused = false ∧
    (∀ j < 1024, s.pal j = none) ∧ (∀ x, ∀ n < 908, s.buf x n = none) ∧
    (∀ (o : Nat) (h : o < fbBytes), s.fb o = some fbInit[o]) ∧
    (∀ x, (s.dma.get x).readAddr = none ∧ (s.dma.get x).writeAddr = none ∧ (s.dma.get x).countReload = none ∧
      (s.dma.get x).count = 0 ∧ (s.dma.get x).ctrl = none ∧ (s.dma.get x).busy = false ∧
      s.intr.get x = false ∧ s.inte.get x = false ∧ s.pend.get x = false) ∧
    s.pwm.en = false ∧ s.pwm.div = none ∧ s.pwm.top = none ∧ s.pwm.ccB = 0 ∧ s.pwm.cmpB = 0 ∧ s.pwm.ctr = none ∧
    s.dreq = 0 ∧ s.handler.active = false ∧ s.handler.todo = [] ∧ s.dmaHist = [] ∧ s.outHist = []

/-- R51, R12, R56, R156: which launches have an initial state. That a region ends inside the 32-bit data space, that the
two channels differ, and that the launch refuses a `CC_B_ADDR` that is odd or inside a region, is the model's reading (log
entry 14). -/
def Obligations.LaunchRefusesBadPlacement : Prop :=
  ∀ (cfg : Config) (fbInit : Vector Byte fbBytes),
    (launch cfg fbInit = .error .placement ∨ ∃ s, launch cfg fbInit = .ok s) ∧
    ((∃ s, launch cfg fbInit = .ok s) ↔
      ((∀ r ∈ dataRegions cfg, r.1 % 4 = 0 ∧ r.1 + r.2 ≤ 2 ^ 32) ∧
        (∀ a, ∀ r ∈ dataRegions cfg, ∀ t ∈ dataRegions cfg,
          r.1 ≤ a ∧ a < r.1 + r.2 → t.1 ≤ a ∧ a < t.1 + t.2 → r = t) ∧
        cfg.bufABase ≠ cfg.bufBBase ∧ cfg.outPin.val % 2 = 1 ∧ cfg.chA ≠ cfg.chB ∧
        cfg.ccBAddr.toNat % 2 = 0 ∧
        ∀ r ∈ dataRegions cfg, ∀ a, a = cfg.ccBAddr.toNat ∨ a = cfg.ccBAddr.toNat + 1 → ¬(r.1 ≤ a ∧ a < r.1 + r.2)))

/-- The reset state is the launch of the standard parameters with an all-zero FB_INIT: the model's choice (log entries 1
and 2). -/
def Obligations.ResetIsStandardLaunch : Prop :=
  launch Config.standard (Vector.replicate fbBytes 0) = .ok State.reset

/-! ### Steps -/

/-- R86: a step takes the next access of the schedule, decodes it, and is the meaning of the operation decoded. What the
step adds around it is the model's (log entry 4): the access leaves the schedule and the index of the free values moves
on. -/
def Obligations.StepRunsDecodedAccess : Prop :=
  ∀ (s : State) (acc : Access) (rest : List Access) (i : Instr),
    s.fault = none → s.inbox = acc :: rest → decode acc = .ok i → schedulable i s = true →
      step s = exec i { s with inbox := rest, tick := s.tick + 1 }

/-- R83 (a) to (e), R99: the accesses with no meaning, from their bits; each sets the mark and changes nothing else of the
block (R156). Setting the mark as a next state is log entry 6. -/
def Obligations.RefusedAccessesSetTheMark : Prop :=
  ∀ (s : State) (acc : Access) (rest : List Access), s.fault = none → s.inbox = acc :: rest →
    (match acc with
      | .host write offset _ =>
        ((write, offset) ∉ [(true, 0x00#8), (true, 0x04#8), (false, 0x08#8), (false, 0x0C#8)]) ∨
          (write = false ∧ (offset = 0x08#8 ∨ offset = 0x0C#8) ∧ s.cfg.diag = false)
      | .event w =>
        (let code := w.toNat / 2 ^ 28
         code = 0 ∨ 9 ≤ code ∨ code = 3 ∨ (code = 1 ∧ w.toNat % 2 ^ 28 ≠ 0) ∨
          (code = 2 ∧ w.toNat % 2 ^ 28 / 2 ≠ 0) ∨ (4 ≤ code ∧ code ≤ 6 ∧ w.toNat % 2 ^ 28 ≠ 0) ∨
          (code = 7 ∧ (w.toNat % 2 ^ 28 / 2 ^ 25 ≠ 0 ∨ 76800 ≤ w.toNat % 2 ^ 25 / 2 ^ 8)) ∨
          (code = 8 ∧ (w.toNat % 2 ^ 28 / 2 ^ 10 ≠ 0 ∨ s.started = true)))
      | .gen _ _ => s.started = true) →
      step s = .next { s with inbox := rest, tick := s.tick + 1, refused := true }

/-- R152, R23: after a fault no agent has a step, and the fault is never cleared. That `step` and `exec` then answer the
fault that the state holds is the model's reading (log entry 7). -/
def Obligations.FaultedMachineHasNoStep : Prop :=
  ∀ (s : State) (f : Fault), s.fault = some f → step s = .fault f ∧ ∀ i, exec i s = .fault f

/-- R156, R23: whatever sets the mark `refused` changes nothing else, and nothing clears it. -/
def Obligations.RefusalChangesNothingElse : Prop :=
  ∀ (i : Instr) (s t : State), exec i s = .next t →
    (s.refused = true → t.refused = true) ∧ (t.refused ≠ s.refused → t = { s with refused := true })

/-- R84 with R114, R125, R127, R128, R136: exactly when the named agent has its step. Answering `notEnabled` otherwise is
the model's choice (log entry 5). -/
def Obligations.EventsRunExactlyWhenEnabled : Prop :=
  ∀ s : State, s.fault = none →
    (exec .pwmWrap s = .refused .notEnabled ↔ ¬(s.started = true ∧ s.pwm.en = true)) ∧
    (∀ x, exec (.dmaXfer x) s = .refused .notEnabled ↔
      ¬(s.started = true ∧ (s.dma.get x).busy = true ∧ (s.dma.get x).count ≠ 0 ∧ 0 < s.dreq)) ∧
    (exec .irqEntry s = .refused .notEnabled ↔
      ¬(s.started = true ∧ s.handler.active = false ∧
        ((s.intr.a = true ∧ s.inte.a = true) ∨ (s.intr.b = true ∧ s.inte.b = true)))) ∧
    (exec .irqService s = .refused .notEnabled ↔ ¬(s.handler.active = true ∧ s.handler.todo ≠ [])) ∧
    (exec .irqReturn s = .refused .notEnabled ↔ ¬(s.handler.active = true ∧ s.handler.todo = []))

/-- R158, R84: where the schedule names no access, the step is that of the access freely chosen: the operation it decodes
to, where some agent has that step; the refusal, where it is no operation or may not stand as a step; and nothing exactly
where its agent does not have it. The free choice is the model's form of R158's "either order" (log entry 4). -/
def Obligations.FreeStepIsSomeAgentsStep : Prop :=
  ∀ (s : State) (acc : Access), s.fault = none → s.inbox = [] → acc = Config.freeAccess s.tick →
    (∀ i, decode acc = .ok i → schedulable i s = true → enabled i s = true →
      step s = exec i { s with tick := s.tick + 1 } ∧ step s ≠ .refused .notEnabled) ∧
    (∀ i, decode acc = .ok i → schedulable i s = true → enabled i s = false →
      step s = .next { s with tick := s.tick + 1 } ∧ exec i s = .refused .notEnabled) ∧
    ((∀ i, decode acc = .ok i → schedulable i s = false) →
      step s = .next { s with tick := s.tick + 1, refused := true })

/-! ### Encodings -/

/-- R75, R78 to R80: words written out from the tables. -/
def Obligations.TableWordsDecode : Prop :=
  decodeTableWord 16 0x100 = some (.palWrite 0 0 0 0) ∧ decodeTableWord 16 0x104 = some .start ∧
  decode (.host true 0x00 0x0200FF00) = .ok (.palWrite 2 0 255 0) ∧ decode (.host false 0x0C 0) = .ok .rdRenderActive ∧
  decodeTableWord 32 0x10000000 = some .pwmWrap ∧ decodeTableWord 32 0x20000001 = some (.dmaXfer .b) ∧
  decodeTableWord 32 0x50000000 = some .irqService ∧ decodeTableWord 32 0x70014001 = some (.fbWrite 320 1) ∧
  decodeTableWord 32 0x80000225 = some (.genTest .b 37) ∧ decodeTableWord 16 0x00A = some (.genVsync .a 10)

/-- R75, R76: the cascade of comparisons selects by the match and mask of the table, and by the ranges where it has
none. -/
def Obligations.ClassifierMatchesTable : Prop :=
  ∀ idx : LineIdx,
    (classify idx = .preeq ↔ idx &&& 0x1FE = 0x000) ∧ (classify idx = .vsync ↔ idx &&& 0x1FE = 0x00A) ∧
    (classify idx = .active ↔ 36 ≤ idx.toNat ∧ idx.toNat < 276) ∧ (classify idx = .bottom ↔ idx &&& 0x1FE = 0x114) ∧
    (classify idx = .nowrite ↔
      (2 ≤ idx.toNat ∧ idx.toNat ≤ 9) ∨ (12 ≤ idx.toNat ∧ idx.toNat ≤ 35) ∨ 278 ≤ idx.toNat)

/-- R75, R77 to R80, R86: the encoding of a well-formed operation decodes to it, with every operand. -/
def Obligations.DecodeEncodeRoundTrip : Prop := ∀ i : Instr, i.wellFormed = true → decode (encode i) = .ok i

/-- R83, R85, R86: what decodes is well formed, and its word is the one encoding of the operation, the ignored data of a
host access apart. -/
def Obligations.DecodedAccessIsItsEncoding : Prop :=
  ∀ (acc : Access) (i : Instr), decode acc = .ok i →
    i.wellFormed = true ∧
      (match acc with
        | .host write offset data =>
          encode i = .host write offset (if write = true ∧ offset = 0x00#8 then data else 0)
        | .event w => encode i = .event w
        | .gen x idx => encode i = .gen x idx)

/-! ### The host's operations -/

/-- R106 (operation: R101; arithmetic: R102 to R105): before START a PAL_WRITE stores the four encoded samples and nothing else;
after START it faults. -/
def Obligations.PalWriteStoresEncodedColour : Prop :=
  ∀ (index blue red green : BitVec 8) (s : State), s.fault = none →
    (s.started = true → exec (.palWrite index blue red green) s = .fault .palAfterStart) ∧
    (s.started = false →
      ∃ t, exec (.palWrite index blue red green) s = .next t ∧ t = { s with mem := t.mem } ∧
        (∀ a, a < s.cfg.palBase.toNat + 8 * index.toNat ∨ s.cfg.palBase.toNat + 8 * index.toNat + 8 ≤ a →
          t.byteAt a = s.byteAt a) ∧
        (∀ y db dr : Int, y = (77 * (red.toNat : Int) + 150 * green.toNat + 29 * blue.toNat + 128) / 256 →
          db = blue.toNat - y → dr = red.toNat - y →
          ∀ (q : Nat) (n : Int), (q, n) ∈
              [(0, y * 1792 + db * 441 + dr * 1361 + 2 * 65536 + 32768),
                (1, y * 1792 + db * 764 + dr * (-786) + 2 * 65536 + 32768),
                (2, y * 1792 - db * 441 - dr * 1361 + 2 * 65536 + 32768),
                (3, y * 1792 - db * 764 - dr * (-786) + 2 * 65536 + 32768)] →
            ∃ v : Sample, t.pal (4 * index.toNat + q) = some v ∧ v.toNat ≤ 11 ∧
              (v.toNat : Int) = if n < 0 then 0 else n / 65536))

/-- R107: the ranges of the four numerators and samples over all colours; so FAULT_PAL_RANGE is never raised. -/
def Obligations.EncoderStaysInRange : Prop :=
  (∀ red green blue : Byte,
    let y := luma red green blue
    let n := fun q => numerator q y ((blue.toNat : Int) - y) ((red.toNat : Int) - y)
    (162350 ≤ n 0 ∧ n 0 ≤ 622290 ∧ 2 ≤ encodePhase 0 red green blue ∧ encodePhase 0 red green blue ≤ 9) ∧
    (102060 ≤ n 1 ∧ n 1 ≤ 682580 ∧ 1 ≤ encodePhase 1 red green blue ∧ encodePhase 1 red green blue ≤ 10) ∧
    (82141 ≤ n 2 ∧ n 2 ≤ 702499 ∧ 1 ≤ encodePhase 2 red green blue ∧ encodePhase 2 red green blue ≤ 10) ∧
    (20350 ≤ n 3 ∧ n 3 ≤ 764290 ∧ encodePhase 3 red green blue ≤ 11)) ∧
  ∀ (index blue red green : BitVec 8) (s : State), s.fault = none →
    exec (.palWrite index blue red green) s ≠ .fault .palRange

/-- R109, R110: the collapsed numerators, their symmetry about the luma term, and that a grey has four equal samples. -/
def Obligations.EncoderIsSymmetric : Prop :=
  ∀ red green blue : Byte,
    (let y := luma red green blue
     let n := fun q => numerator q y ((blue.toNat : Int) - y) ((red.toNat : Int) - y)
     n 0 = -10 * y + 441 * blue.toNat + 1361 * red.toNat + 163840 ∧
     n 1 = 1814 * y + 764 * blue.toNat - 786 * red.toNat + 163840 ∧
     n 2 = 3594 * y - 441 * blue.toNat - 1361 * red.toNat + 163840 ∧
     n 3 = 1770 * y - 764 * blue.toNat + 786 * red.toNat + 163840 ∧
     n 0 + n 2 = 2 * (1792 * y + 163840) ∧ n 1 + n 3 = 2 * (1792 * y + 163840)) ∧
    (red = green → green = blue → ∀ q, encodePhase q red green blue = (1792 * red.toNat + 163840) / 65536)

/-- R144, R170, R155: START's three faults in their order; else the state it leaves, element by element, and what it
leaves alone. -/
def Obligations.StartLeavesEngineRunning : Prop :=
  ∀ s : State, s.fault = none →
    (s.started = true → exec .start s = .fault .startTwice) ∧
    (s.started = false → s.cfg.sysClkHz ≠ 315000000 → exec .start s = .fault .clock) ∧
    (s.started = false → s.cfg.sysClkHz = 315000000 → s.cfg.freeDmaChannels.val < 2 →
      exec .start s = .fault .dmaAlloc) ∧
    (s.started = false → s.cfg.sysClkHz = 315000000 → 2 ≤ s.cfg.freeDmaChannels.val → placementOk s.cfg = true →
      s.pend.a = false →
      ∃ t, exec .start s = .next t ∧
        t = { s with
          scanIdx := some 2, renderActive := t.renderActive, started := true, mem := t.mem, dma := t.dma,
          intr := ⟨false, false⟩, inte := ⟨true, true⟩, dreq := 0,
          pwm := { s.pwm with en := true, div := some 0x020, top := some 10, ccB := 0, cmpB := 0 } } ∧
        t.renderActive =
          (if s.cfg.diag = true ∧ s.cfg.renderFlagClear = .clearOnNonactive then false else s.renderActive) ∧
        (∀ x, (t.dma.get x).readAddr = some (s.cfg.bufBase x) ∧ (t.dma.get x).writeAddr = some s.cfg.ccBAddr ∧
          (t.dma.get x).countReload = some 908 ∧ (t.dma.get x).ctrl = some
            { en := true, dataSize := .halfword, incrRead := true, incrWrite := false, treqSel := s.cfg.pwmSlice,
              chainTo := s.cfg.chNum x.peer, irqQuiet := false, ringSize := 0, ringSel := false, byteSwap := false,
              sniff := false, highPriority := false }) ∧
        t.dma.a.count = 908 ∧ t.dma.a.busy = true ∧ t.dma.b.count = 0 ∧ t.dma.b.busy = false ∧
        (∀ x, ∀ n < 908, t.buf x n = some (if n < 840 then 0 else 2)) ∧
        (∀ a, (∀ x, a < (s.cfg.bufBase x).toNat ∨ (s.cfg.bufBase x).toNat + 1816 ≤ a) → t.byteAt a = s.byteAt a))

/-- R145, R149: the read returns the frame counter and changes no state of the block; without the diagnostics it is
refused. Where the returned word goes is log entry 11. -/
def Obligations.RdFrameCountReturnsCounter : Prop :=
  ∀ s : State, s.fault = none →
    exec .rdFrameCount s =
      .next (if s.cfg.diag = true then { s with hostReads := s.hostReads ++ [s.frameCount] }
        else { s with refused := true })

/-- R146, R149: the same for the zero-extended "rendering active" flag (log entry 11). -/
def Obligations.RdRenderActiveReturnsFlag : Prop :=
  ∀ s : State, s.fault = none →
    exec .rdRenderActive s =
      .next (if s.cfg.diag = true then
          { s with hostReads := s.hostReads ++ [if s.renderActive = true then 1 else 0] }
        else { s with refused := true })

/-- R151, R149: after START a host access faults exactly if it is a PAL_WRITE or a START, and otherwise returns its word or
is refused. Where a returned word goes, the list `hostReads`, is the model's choice (log entry 11). -/
def Obligations.HostAfterStartOnlyReads : Prop :=
  ∀ (s : State) (write : Bool) (offset : BitVec 8) (data : BitVec 32), s.fault = none → s.started = true →
    (write = true → offset = 0x00#8 → step (s.withAccess (.host write offset data)) = .fault .palAfterStart) ∧
    (write = true → offset = 0x04#8 → step (s.withAccess (.host write offset data)) = .fault .startTwice) ∧
    (write = false → offset = 0x08#8 → s.cfg.diag = true →
      step (s.withAccess (.host write offset data)) =
        .next { s with tick := s.tick + 1, hostReads := s.hostReads ++ [s.frameCount] }) ∧
    (write = false → offset = 0x0C#8 → s.cfg.diag = true →
      step (s.withAccess (.host write offset data)) =
        .next { s with tick := s.tick + 1, hostReads := s.hostReads ++ [if s.renderActive = true then 1 else 0] }) ∧
    (¬(write = true ∧ (offset = 0x00#8 ∨ offset = 0x04#8)) →
      ¬(write = false ∧ (offset = 0x08#8 ∨ offset = 0x0C#8) ∧ s.cfg.diag = true) →
      step (s.withAccess (.host write offset data)) = .next { s with tick := s.tick + 1, refused := true })

/-! ### The sample clock and the transport -/

/-- R136: PWM_WRAP's event word, when it has its step, and that it latches the compare value last written, records it,
counts one request, and changes nothing else. -/
def Obligations.PwmWrapLatchesCompare : Prop :=
  decode (.event 0x10000000) = .ok .pwmWrap ∧
  ∀ s : State,
    ((∃ t, exec .pwmWrap s = .next t) ↔ s.fault = none ∧ s.started = true ∧ s.pwm.en = true) ∧
    ∀ t, exec .pwmWrap s = .next t →
      t = { s with
        pwm := { s.pwm with cmpB := s.pwm.ccB }, outHist := s.outHist ++ [s.pwm.ccB], dreq := s.dreq + 1 }

/-- R116, R120: a transfer that does not end the run. -/
def Obligations.DmaXferMovesOneSample : Prop :=
  ∀ (x : Chan) (s : State) (addr : Addr) (v : Sample), s.fault = none → s.started = true →
    (s.dma.get x).busy = true → 1 < (s.dma.get x).count.toNat → 0 < s.dreq → (s.dma.get x).readAddr = some addr →
    (s.cfg.bufBase x).toNat ≤ addr.toNat → addr.toNat < (s.cfg.bufBase x).toNat + 1816 →
    Memory.read2 s.cfg s.mem addr.toNat = some v →
      exec (.dmaXfer x) s = .next { s with
        dreq := s.dreq - 1, pwm := { s.pwm with ccB := v }, dmaHist := s.dmaHist ++ [v],
        dma := s.dma.set x { s.dma.get x with readAddr := some (addr + 2), count := (s.dma.get x).count - 1 } }

/-- R116, R117, R115: the transfer that ends a run completes the channel and triggers its peer, in the same step, without
reloading the peer's read address. -/
def Obligations.LastTransferChainsPeer : Prop :=
  ∀ (x : Chan) (s : State) (addr : Addr) (v : Sample) (r : BitVec 32), s.fault = none → s.started = true →
    (s.dma.get x).busy = true → (s.dma.get x).count = 1 → 0 < s.dreq → (s.dma.get x).readAddr = some addr →
    (s.cfg.bufBase x).toNat ≤ addr.toNat → addr.toNat < (s.cfg.bufBase x).toNat + 1816 →
    Memory.read2 s.cfg s.mem addr.toNat = some v →
    (s.dma.get x.peer).busy = false → s.pend.get x.peer = false → (s.dma.get x.peer).countReload = some r →
      exec (.dmaXfer x) s = .next { s with
        dreq := s.dreq - 1, pwm := { s.pwm with ccB := v }, dmaHist := s.dmaHist ++ [v],
        intr := s.intr.set x true, pend := s.pend.set x true,
        dma := (s.dma.set x { s.dma.get x with readAddr := some (addr + 2), count := 0, busy := false }).set x.peer
          { s.dma.get x.peer with busy := true, count := r } }

/-- R116, R115, R155: the faults of an enabled transfer, in the order of its checks. That an UNWRITTEN read address counts
as outside the buffer is log entry 3. -/
def Obligations.DmaXferFaultsInOrder : Prop :=
  ∀ (x : Chan) (s : State), s.fault = none → s.started = true → (s.dma.get x).busy = true →
    (s.dma.get x).count ≠ 0 → 0 < s.dreq →
    (((s.dma.get x).readAddr = none ∨ ∃ addr, (s.dma.get x).readAddr = some addr ∧
        (addr.toNat < (s.cfg.bufBase x).toNat ∨ (s.cfg.bufBase x).toNat + 1816 ≤ addr.toNat)) →
      exec (.dmaXfer x) s = .fault .staleRead) ∧
    ∀ addr, (s.dma.get x).readAddr = some addr → (s.cfg.bufBase x).toNat ≤ addr.toNat →
      addr.toNat < (s.cfg.bufBase x).toNat + 1816 →
      (Memory.read2 s.cfg s.mem addr.toNat = none → exec (.dmaXfer x) s = .fault .bufUnwritten) ∧
      (Memory.read2 s.cfg s.mem addr.toNat ≠ none → (s.dma.get x).count = 1 → (s.dma.get x.peer).busy = true →
        exec (.dmaXfer x) s = .fault .internal) ∧
      (Memory.read2 s.cfg s.mem addr.toNat ≠ none → (s.dma.get x).count = 1 → (s.dma.get x.peer).busy = false →
        s.pend.get x.peer = true → exec (.dmaXfer x) s = .fault .deadline)

/-- R117, R115: what DMA_COMPLETE does, and the faults of its trigger. As a step of its own it is refused
(RefusedAccessesSetTheMark; log entry 8). -/
def Obligations.DmaCompleteHandsOver : Prop :=
  ∀ (x : Chan) (s : State), s.fault = none →
    ((s.dma.get x.peer).busy = true → exec (.dmaComplete x) s = .fault .internal) ∧
    ((s.dma.get x.peer).busy = false → s.pend.get x.peer = true → exec (.dmaComplete x) s = .fault .deadline) ∧
    (∀ r, (s.dma.get x.peer).busy = false → s.pend.get x.peer = false → (s.dma.get x.peer).countReload = some r →
      exec (.dmaComplete x) s = .next { s with
        intr := s.intr.set x true, pend := s.pend.set x true,
        dma := (s.dma.set x { s.dma.get x with busy := false }).set x.peer
          { s.dma.get x.peer with busy := true, count := r } })

/-! ### The interrupt handler -/

/-- R125, R126: the entry's event word, when it has its step, and that it clears the enabled completion bits it read and
lists their channels; nothing else changes. -/
def Obligations.IrqEntryReadsAndClears : Prop :=
  decode (.event 0x40000000) = .ok .irqEntry ∧
  (∀ s : State, (∃ t, exec .irqEntry s = .next t) ↔
    s.started = true ∧ s.fault = none ∧ s.irqLine = true ∧ s.handler.active = false) ∧
  ∀ s : State, s.fault = none → s.started = true → s.handler.active = false →
    ∀ sA sB : Bool, sA = (s.intr.a && s.inte.a) → sB = (s.intr.b && s.inte.b) → (sA || sB) = true →
      exec .irqEntry s = .next { s with
        intr := ⟨if sA = true then false else s.intr.a, if sB = true then false else s.intr.b⟩
        handler := ⟨true,
          if sA = true ∧ sB = true then
            (match s.cfg.bothBits with
              | .serviceEach => [.a, .b]
              | .aElseB => [.a])
          else if sA = true then [.a] else [.b]⟩ }

/-- R127: the service generates the current line into the channel's buffer, puts its read address back, advances the
index modulo 262 and hands the buffer back; what the generation itself does is its own statement. A line that cannot be
made raises the generator's fault. -/
def Obligations.IrqServiceRefillsChannel : Prop :=
  ∀ (s : State) (x : Chan) (rest : List Chan) (idx : LineIdx), s.fault = none → s.handler.active = true →
    s.handler.todo = x :: rest → s.scanIdx = some idx →
    (lineReady s idx →
      ∃ g, generate x idx { s with handler := ⟨true, rest⟩ } = .ok g ∧
        exec .irqService s = .next { g with
          dma := s.dma.set x { s.dma.get x with readAddr := some (s.cfg.bufBase x) }
          scanIdx := some (BitVec.ofNat 9 ((idx.toNat + 1) % 262))
          pend := s.pend.set x false }) ∧
    (¬lineReady s idx →
      ∃ f ∈ [Fault.palUnwritten, .cursor, .fbRange], generate x idx s = .error f ∧ exec .irqService s = .fault f)

/-- R128: the return's event word, when it has its step, and that it ends the handler and restores nothing. -/
def Obligations.IrqReturnEndsHandler : Prop :=
  decode (.event 0x60000000) = .ok .irqReturn ∧
  ∀ s : State,
    ((∃ t, exec .irqReturn s = .next t) ↔ s.fault = none ∧ s.handler.active = true ∧ s.handler.todo = []) ∧
    ∀ t, exec .irqReturn s = .next t → t = { s with handler := ⟨false, []⟩ }

/-- R129: a completion while the handler is active is kept; the handler cannot be entered while active, and after the
return it can. The answer `notEnabled` to an entry that is not there is the model's choice (log entry 5). -/
def Obligations.CompletionDuringHandlerIsKept : Prop :=
  ∀ (x : Chan) (s t : State), s.handler.active = true → s.inte = ⟨true, true⟩ →
    (s.dma.get x).count = 1 → exec (.dmaXfer x) s = .next t →
      t.intr.get x = true ∧ t.irqLine = true ∧ exec .irqEntry t = .refused .notEnabled ∧
      ∀ u, exec .irqReturn t = .next u → u.intr.get x = true ∧ ∃ v, exec .irqEntry u = .next v

/-! ### The environment -/

/-- R147: the producer's write sets one framebuffer byte and nothing else; an offset past the framebuffer is refused. -/
def Obligations.FbWriteStoresOneByte : Prop :=
  ∀ (offset : BitVec 17) (byte : Byte) (s : State), s.fault = none →
    (offset.toNat < 76800 →
      ∃ t, exec (.fbWrite offset byte) s = .next t ∧ t = { s with mem := t.mem } ∧ t.fb offset.toNat = some byte ∧
        ∀ a, a ≠ s.cfg.fbBase.toNat + offset.toNat → t.byteAt a = s.byteAt a) ∧
    (76800 ≤ offset.toNat → exec (.fbWrite offset byte) s = .next { s with refused := true })

/-- R99: before START a test call is the generator's; after it, it is refused. -/
def Obligations.GenTestCallsGenerator : Prop :=
  ∀ (x : Chan) (idx : LineIdx) (s : State), s.fault = none →
    (s.started = true → exec (.genTest x idx) s = .next { s with refused := true }) ∧
    (s.started = false → lineReady s idx → ∃ t, generate x idx s = .ok t ∧ exec (.genTest x idx) s = .next t) ∧
    (s.started = false → ∀ f, generate x idx s = .error f → exec (.genTest x idx) s = .fault f)

/-! ### The generator -/

/-- R87: the generator on any index is the operation that the classifier selects for it, and on a line that can be made
it completes. -/
def Obligations.GeneratorDispatchesByRegion : Prop :=
  ∀ (x : Chan) (idx : LineIdx) (s : State), s.fault = none →
    exec (decodeGen x idx) s = (match generate x idx s with
      | .ok t => .next t
      | .error f => .fault f) ∧
    ((∃ t, generate x idx s = .ok t) ↔ lineReady s idx)

/-- R88: which indices select GEN_PREEQ, the 908 samples it writes, and its frame; the flag update is R87's. -/
def Obligations.GenPreeqWritesLine : Prop :=
  (∀ (x : Chan) (idx : LineIdx), decodeGen x idx = .genPreeq x idx ↔ idx = 0 ∨ idx = 1) ∧
  ∀ (x : Chan) (idx : LineIdx) (s : State), s.fault = none →
    ∃ t, exec (.genPreeq x idx) s = .next t ∧
      (∀ n < 908, t.buf x n = some (if n < 840 then 0 else 2)) ∧
      (∀ a, a < (s.cfg.bufBase x).toNat ∨ (s.cfg.bufBase x).toNat + 1816 ≤ a → t.byteAt a = s.byteAt a) ∧
      t = { s with
        mem := t.mem
        renderActive :=
          if s.cfg.diag = true ∧ s.cfg.renderFlagClear = .clearOnNonactive then false else s.renderActive }

/-- R89: which indices select GEN_VSYNC, the 908 samples it writes (the burst is R70's), and its frame; the flag update is
R87's. -/
def Obligations.GenVsyncWritesLine : Prop :=
  (∀ (x : Chan) (idx : LineIdx), decodeGen x idx = .genVsync x idx ↔ idx = 10 ∨ idx = 11) ∧
  ∀ (x : Chan) (idx : LineIdx) (s : State), s.fault = none →
    ∃ t, exec (.genVsync x idx) s = .next t ∧
      (∀ n < 68, t.buf x n = some 0) ∧ (∀ n, 68 ≤ n → n < 76 → t.buf x n = some 2) ∧
      (∀ j < 9, t.buf x (76 + 4 * j) = some 2 ∧ t.buf x (76 + 4 * j + 1) = some 1 ∧
        t.buf x (76 + 4 * j + 2) = some 2 ∧ t.buf x (76 + 4 * j + 3) = some 3) ∧
      (∀ n, 112 ≤ n → n < 908 → t.buf x n = some 2) ∧
      (∀ a, a < (s.cfg.bufBase x).toNat ∨ (s.cfg.bufBase x).toNat + 1816 ≤ a → t.byteAt a = s.byteAt a) ∧
      t = { s with
        mem := t.mem
        renderActive :=
          if s.cfg.diag = true ∧ s.cfg.renderFlagClear = .clearOnNonactive then false else s.renderActive }

/-- R90, R72, R73, R87: an active line that can be made stores the 640 samples of its 320 pixels, moves the cursor one row
on, and changes nothing else. -/
def Obligations.GenActiveWritesPixels : Prop :=
  ∀ (x : Chan) (idx : LineIdx) (s : State) (cur : BitVec 17), s.fault = none →
    (if idx = 36 then some 0 else s.cursor) = some cur → cur.toNat + 320 ≤ 76800 →
    (∀ k < 320, ∀ p, s.fb (cur.toNat + k) = some p →
      s.pal (4 * p.toNat + 2 * (k % 2)) ≠ none ∧ s.pal (4 * p.toNat + 2 * (k % 2) + 1) ≠ none) →
    ∃ t, exec (.genActive x idx) s = .next t ∧
      (∀ k < 320, ∃ p, s.fb (cur.toNat + k) = some p ∧
        t.buf x (172 + 2 * k) = s.pal (4 * p.toNat + 2 * (k % 2)) ∧
        t.buf x (173 + 2 * k) = s.pal (4 * p.toNat + 2 * (k % 2) + 1)) ∧
      (∀ a, a < (s.cfg.bufBase x).toNat + 344 ∨ (s.cfg.bufBase x).toNat + 1624 ≤ a → t.byteAt a = s.byteAt a) ∧
      t = { s with
        mem := t.mem, cursor := some (cur + 320),
        renderActive := if s.cfg.diag = true then true else s.renderActive }

/-- R90, R155: the faults of an active line, in the order of its checks. -/
def Obligations.GenActiveFaultsInOrder : Prop :=
  ∀ (x : Chan) (idx : LineIdx) (s : State), s.fault = none →
    (idx ≠ 36 → s.cursor = none → exec (.genActive x idx) s = .fault .cursor) ∧
    ∀ cur : BitVec 17, (if idx = 36 then some 0 else s.cursor) = some cur →
      (76800 < cur.toNat + 320 → exec (.genActive x idx) s = .fault .fbRange) ∧
      (cur.toNat + 320 ≤ 76800 → ∀ k < 320, ∀ p, s.fb (cur.toNat + k) = some p →
        (s.pal (4 * p.toNat + 2 * (k % 2)) = none ∨ s.pal (4 * p.toNat + 2 * (k % 2) + 1) = none) →
        exec (.genActive x idx) s = .fault .palUnwritten)

/-- R91: which indices select GEN_BOTTOM; it writes 640 blank samples, and line 276 advances the frame counter modulo
2^32; the flag update is R87's. -/
def Obligations.GenBottomWritesBlank : Prop :=
  (∀ (x : Chan) (idx : LineIdx), decodeGen x idx = .genBottom x idx ↔ idx = 276 ∨ idx = 277) ∧
  ∀ (x : Chan) (idx : LineIdx) (s : State), s.fault = none →
    ∃ t, exec (.genBottom x idx) s = .next t ∧
      (∀ n, 172 ≤ n → n < 812 → t.buf x n = some 2) ∧
      (∀ a, a < (s.cfg.bufBase x).toNat + 344 ∨ (s.cfg.bufBase x).toNat + 1624 ≤ a → t.byteAt a = s.byteAt a) ∧
      t = { s with
        mem := t.mem
        frameCount :=
          if idx = 276 ∧ s.cfg.diag = true then BitVec.ofNat 32 ((s.frameCount.toNat + 1) % 2 ^ 32) else s.frameCount
        renderActive :=
          if s.cfg.diag = true ∧ s.cfg.renderFlagClear = .clearOnNonactive then false else s.renderActive }

/-- R92: which indices select GEN_NOWRITE, and that it writes no sample; the flag update is R87's. -/
def Obligations.GenNowriteKeepsBuffer : Prop :=
  (∀ (x : Chan) (idx : LineIdx), decodeGen x idx = .genNowrite x idx ↔
    (2 ≤ idx.toNat ∧ idx.toNat ≤ 9) ∨ (12 ≤ idx.toNat ∧ idx.toNat ≤ 35) ∨ 278 ≤ idx.toNat) ∧
  ∀ (x : Chan) (idx : LineIdx) (s : State), s.fault = none →
    exec (.genNowrite x idx) s = .next { s with
      renderActive :=
        if s.cfg.diag = true ∧ s.cfg.renderFlagClear = .clearOnNonactive then false else s.renderActive }

/-- R94, R87: for every index the generator writes at most the 908 samples of the buffer it was called for, 640 of them on
an active or bottom line and none on a line of no region, and no state but the cursor and the two diagnostics. -/
def Obligations.GeneratorStaysInBuffer : Prop :=
  ∀ (x : Chan) (idx : LineIdx) (s t : State), generate x idx s = .ok t →
    t = { s with mem := t.mem, cursor := t.cursor, frameCount := t.frameCount, renderActive := t.renderActive } ∧
    (∀ a, a < (s.cfg.bufBase x).toNat ∨ (s.cfg.bufBase x).toNat + 1816 ≤ a → t.byteAt a = s.byteAt a) ∧
    (classify idx = .preeq ∨ classify idx = .vsync → ∀ n < 908, t.buf x n ≠ none) ∧
    (classify idx = .active ∨ classify idx = .bottom →
      (∀ n, 172 ≤ n → n < 812 → t.buf x n ≠ none) ∧
      ∀ a, a < (s.cfg.bufBase x).toNat + 344 ∨ (s.cfg.bufBase x).toNat + 1624 ≤ a → t.byteAt a = s.byteAt a) ∧
    (classify idx = .nowrite → t.mem = s.mem)

/-- R93: on a line that is not active the generator reads neither the framebuffer nor the palette: two states that agree
on the buffer and the diagnostics, whatever the rest of their memory, get the same buffer and diagnostics, and the cursor
stays. -/
def Obligations.GeneratorIgnoresPictureOffActive : Prop :=
  ∀ (x : Chan) (idx : LineIdx) (s₁ s₂ t₁ t₂ : State), classify idx ≠ .active → s₁.cfg = s₂.cfg →
    s₁.frameCount = s₂.frameCount → s₁.renderActive = s₂.renderActive → (∀ n < 908, s₁.buf x n = s₂.buf x n) →
    generate x idx s₁ = .ok t₁ → generate x idx s₂ = .ok t₂ →
      (∀ n < 908, t₁.buf x n = t₂.buf x n) ∧ t₁.frameCount = t₂.frameCount ∧ t₁.renderActive = t₂.renderActive ∧
      t₁.cursor = s₁.cursor ∧ t₂.cursor = s₂.cursor

/-! ### Rules over all operations -/

/-- R24, R64: after START no step changes a palette sample. -/
def Obligations.PaletteFixedAfterStart : Prop :=
  ∀ s t : State, placementOk s.cfg = true → s.started = true → step s = .next t → ∀ j < 1024, t.pal j = s.pal j

/-- R26: only FB_WRITE changes a framebuffer byte. -/
def Obligations.OnlyProducerWritesFramebuffer : Prop :=
  ∀ (i : Instr) (s t : State), placementOk s.cfg = true → exec i s = .next t →
    (∀ offset byte, i ≠ .fbWrite offset byte) → ∀ o < 76800, t.fb o = s.fb o

/-- R63, R25: a buffer changes only by the generator called for it: by START, by the service of its channel, by a test
call or by a generator operation of its own. -/
def Obligations.OnlyGeneratorWritesBuffers : Prop :=
  ∀ (i : Instr) (s t : State) (x : Chan), placementOk s.cfg = true → exec i s = .next t →
    (∃ n < 908, t.buf x n ≠ s.buf x n) →
      (i = .start ∧ s.started = false) ∨ (i = .irqService ∧ s.handler.todo.head? = some x) ∨
      (∃ idx, i = .genTest x idx ∧ s.started = false) ∨
      ∃ idx, i ∈ [Instr.genPreeq x idx, .genVsync x idx, .genActive x idx, .genBottom x idx]

/-- R91, R95, R145: in the running engine no step changes the frame counter. -/
def Obligations.FrameCountFixedInEngine : Prop :=
  ∀ (s t : State) (idx : LineIdx), s.started = true → s.scanIdx = some idx → idx.toNat < 262 → step s = .next t →
    t.frameCount = s.frameCount

/-- R32, R47: a completion bit is set only by a completion of its channel, the transfer that ends its run, and cleared only
by the handler's entry, by the bit it read, or by START. -/
def Obligations.CompletionBitsHaveOneWriter : Prop :=
  ∀ (i : Instr) (s t : State) (x : Chan), exec i s = .next t →
    (s.intr.get x = false → t.intr.get x = true →
      (i = .dmaXfer x ∧ (s.dma.get x).count = 1) ∨ i = .dmaComplete x) ∧
    (s.intr.get x = true → t.intr.get x = false → i = .start ∨ (i = .irqEntry ∧ s.inte.get x = true))

/-- R12, R17, R22, R33, R64: no step changes the launch parameters; only START sets `started` and the enables, and nothing
clears them afterwards. -/
def Obligations.StartedAndEnablesAreSticky : Prop :=
  ∀ (i : Instr) (s t : State), exec i s = .next t →
    t.cfg = s.cfg ∧ (s.started = true → t.started = true ∧ t.inte = s.inte) ∧
    (t.started ≠ s.started ∨ t.inte ≠ s.inte → i = .start)

/-- R132, R18, R19: the scanline index is written only by START and the service; the cursor only by the service, a test
call or an active line. -/
def Obligations.ScanIndexAndCursorAreHandlerPrivate : Prop :=
  ∀ (i : Instr) (s t : State), exec i s = .next t →
    (t.scanIdx ≠ s.scanIdx → i = .start ∨ i = .irqService) ∧
    (t.cursor ≠ s.cursor → i = .irqService ∨ (∃ x idx, i = .genTest x idx) ∨ ∃ x idx, i = .genActive x idx)

/-! ### Invariants and runs -/

/-- R18, R19, R50: every step keeps memory canonical and inside the four regions, the scanline index below 262 and the
cursor inside the framebuffer. -/
def Obligations.StepKeepsDataOk : Prop := ∀ s t : State, DataOk s → step s = .next t → DataOk t

/-- R169: every launched state, the reset state among them, has the form of StepKeepsDataOk and is the block before
START. -/
def Obligations.LaunchMeetsInvariants : Prop :=
  (∀ (cfg : Config) (fbInit : Vector Byte fbBytes) (s : State), launch cfg fbInit = .ok s →
    DataOk s ∧ BeforeStart s ∧ EngineInv s) ∧
  DataOk State.reset ∧ BeforeStart State.reset ∧ EngineInv State.reset

/-- R96, R97, R118, R122, R134: every step of every agent keeps the engine's invariant. -/
def Obligations.StepKeepsEngineInv : Prop := ∀ s t : State, EngineInv s → step s = .next t → EngineInv t

/-- R118, R116, R153: under the invariant at most one channel is busy, and the faults that the spec calls unreachable are:
FAULT_INTERNAL, FAULT_STALE_READ, FAULT_BUF_UNWRITTEN, FAULT_PAL_RANGE, and in the running engine FAULT_CURSOR and
FAULT_FB_RANGE. -/
def Obligations.UnreachableFaults : Prop :=
  ∀ s : State, EngineInv s →
    ¬(s.dma.a.busy = true ∧ s.dma.b.busy = true) ∧
    step s ≠ .fault .internal ∧ step s ≠ .fault .staleRead ∧ step s ≠ .fault .bufUnwritten ∧
    step s ≠ .fault .palRange ∧
    (s.started = true → step s ≠ .fault .cursor ∧ step s ≠ .fault .fbRange)

/-- R174, R172: from a START under LAUNCH_OK, a run that keeps HANDLER_PROMPT and makes no PAL_WRITE or START meets no
fault. -/
def Obligations.PromptRunNeverFaults : Prop :=
  ∀ (s t u : State) (before : List Access) (acc : Access) (after : List Access) (f : Fault),
    BeforeStart s → LaunchOk s (before ++ acc :: after) → exec .start s = .next t →
    (∀ c ∈ before ++ acc :: after, decode c ≠ .ok .start ∧
      ∀ index blue red green, decode c ≠ .ok (.palWrite index blue red green)) →
    handlerPrompt (marks t (before ++ acc :: after)) = true → Run t before u →
      step (u.withAccess acc) ≠ .fault f

/-- R122, R97, R100: in every run from START the samples that the DMA has sent are, line by line modulo 262, those of the
table, the pixel samples of active lines apart. -/
def Obligations.EmittedStreamFollowsTable : Prop :=
  ∀ (s t u : State) (accs : List Access), BeforeStart s → exec .start s = .next t → Run t accs u →
    ∀ i < u.dmaHist.length, ∀ l n, l = i / 908 % 262 → n = i % 908 →
      (l < 10 → u.dmaHist[i]? = some (if n < 840 then 0 else 2)) ∧
      (10 ≤ l → n < 68 → u.dmaHist[i]? = some 0) ∧
      (10 ≤ l → (68 ≤ n ∧ n < 76) ∨ (112 ≤ n ∧ n < 172) ∨ 812 ≤ n → u.dmaHist[i]? = some 2) ∧
      (10 ≤ l → 76 ≤ n → n < 112 → u.dmaHist[i]? = ([2, 1, 2, 3] : List Sample)[(n - 76) % 4]?) ∧
      (10 ≤ l → l < 36 → 172 ≤ n → n < 812 → u.dmaHist[i]? = some 2)

/-- R97, R90, R122, under FB_QUIET (R178): in every run from START, each line that shows framebuffer row `row` was made by
a service of the run, and the pixel samples that the DMA sends for it are the palette samples of the row as it stands in
every state in which that line is being made. The producer may change the row between one making of it and the next. -/
def Obligations.EmittedPixelsAreTheRow : Prop :=
  ∀ (s t u : State) (accs : List Access) (row : Nat), BeforeStart s → exec .start s = .next t → Run t accs u →
    row < 226 → fbQuiet row t accs →
    ∀ i < u.dmaHist.length, i / 908 % 262 = row + 36 →
      (∃ before acc after v, accs = before ++ acc :: after ∧ decode acc = .ok .irqService ∧ Run t before v ∧
        makingLine v (row + 36) ∧ (services (marks t before)).length + 2 = i / 908) ∧
      ∀ before after v, accs = before ++ after → Run t before v → makingLine v (row + 36) →
        (services (marks t before)).length + (if v.handler.todo = [] then 1 else 2) = i / 908 →
        ∀ k < 320, ∃ p, v.fb (320 * row + k) = some p ∧
          (i % 908 = 172 + 2 * k → u.dmaHist[i]? = v.pal (4 * p.toNat + 2 * (k % 2))) ∧
          (i % 908 = 173 + 2 * k → u.dmaHist[i]? = v.pal (4 * p.toNat + 2 * (k % 2) + 1))

/-- R118, R122, R131: in every run from START the completed runs and the services each alternate A, B, A, ..., a run is 908
transfers, and the line to make next is two ahead of the number of services, modulo 262. -/
def Obligations.RunsAndServicesAlternate : Prop :=
  ∀ (s t u : State) (accs : List Access), BeforeStart s → exec .start s = .next t → Run t accs u →
    (∀ k x, (completions (marks t accs))[k]? = some x → x = if k % 2 = 0 then .a else .b) ∧
    (∀ k x, (services (marks t accs))[k]? = some x → x = if k % 2 = 0 then .a else .b) ∧
    (completions (marks t accs)).length = u.dmaHist.length / 908 ∧
    u.scanIdx = some (BitVec.ofNat 9 (((services (marks t accs)).length + 2) % 262))

/-- R119, R142: in every run from START, paced or not, each wrap adds one request and each transfer answers one, so that
none is lost. -/
def Obligations.RequestsAreCounted : Prop :=
  ∀ (s t u : State) (accs : List Access), BeforeStart s → exec .start s = .next t → Run t accs u →
    u.outHist.length = u.dmaHist.length + u.dreq

/-- R172, R174, R177, R183: from a START under LAUNCH_OK a run for any number of samples of either stream comes to its
end, keeping HANDLER_PROMPT and DMA_PACE, with no write of the palette or the framebuffer: the premises of the claims
about runs can be met together. -/
def Obligations.PacedRunsReachAnyLength : Prop :=
  ∀ (s t : State) (stream : Stream) (n : Nat), BeforeStart s → LaunchOk s [] → exec .start s = .next t →
    ∃ (accs : List Access) (u : State), RunEnded stream n t accs u ∧ LaunchOk s accs ∧ dmaPace t accs ∧
      handlerPrompt (marks t accs) = true ∧
      ∀ c ∈ accs, ∃ i ∈ [Instr.pwmWrap, .dmaXfer .a, .dmaXfer .b, .irqEntry, .irqService, .irqReturn], decode c = .ok i

/-- R179, R119, R131: in every endless run from START that is weakly fair, without a fault, the output and the DMA's stream
grow past every length, and a buffer that the CPU owns is in the end handed back. -/
def Obligations.FairRunsKeepGoing : Prop :=
  ∀ (s : State) (states : Nat → State) (accs : Nat → Access), BeforeStart s → exec .start s = .next (states 0) →
    EndlessRun states accs → WeaklyFair states accs →
    (∀ n, ∃ k, n ≤ (states k).outHist.length) ∧ (∀ n, ∃ k, n ≤ (states k).dmaHist.length) ∧
    ∀ k x, (states k).pend.get x = true → ∃ j, k ≤ j ∧ (states j).pend.get x = false

/-- R141: in every run from START that keeps DMA_PACE the output is 0 and then the samples the DMA wrote, one period
later. That the first value is 0 and that a write shows one period later are the spec's own choices (D14, R137; log entry
18). -/
def Obligations.OutputLagsByOnePeriod : Prop :=
  ∀ (s t u : State) (accs : List Access), BeforeStart s → exec .start s = .next t → Run t accs u → dmaPace t accs →
    0 < u.outHist.length → u.outHist = 0 :: u.dmaHist.take (u.outHist.length - 1)

/-- R11, R139, R181: the period, line and frame in system cycles, from the configured divider and wrap value. -/
def Obligations.LineTimingConstants : Prop :=
  cyclesPerSample = 22 ∧ cyclesPerLine = 19976 ∧ cyclesPerFrame = 5233712 ∧
  hsyncLen + bpPreLen + 4 * burstCycles + bpPostLen = activeStart ∧ activeStart + activeSamples + 96 = samplesPerLine
end

