-- ==== Sys2Proof/Laws/Memory.lean ====
section
/-!
SUPPORT. The laws of the data space: a read after a write, that every write keeps the canonical form, and the same for
samples and pairs of samples.
-/
namespace Sys2Proof.Machine

/-! ### Cells -/

theorem cell_append (m n : Memory) (a : Nat) :
    Memory.cell (m ++ n) a = (Memory.cell m a).or (Memory.cell n a) := by
  induction m with
  | nil => rfl
  | cons c m ih => by_cases h : c.1 = a <;> simp [Memory.cell, h, ih]

theorem cell_filter_of_keep {m : Memory} {p : Host.Cell → Bool} {a : Nat} (h : ∀ c : Host.Cell, c.1 = a → p c = true) :
    Memory.cell (m.filter p) a = Memory.cell m a := by
  induction m with
  | nil => rfl
  | cons c m ih =>
    by_cases hc : c.1 = a
    · simp [h c hc, Memory.cell, hc]
    · by_cases hp : p c = true <;> simp [hp, Memory.cell, hc, ih]

theorem cell_filter_of_drop {m : Memory} {p : Host.Cell → Bool} {a : Nat} (h : ∀ c : Host.Cell, c.1 = a → p c = false) :
    Memory.cell (m.filter p) a = none := by
  induction m with
  | nil => rfl
  | cons c m ih =>
    by_cases hp : p c = true
    · have hc : c.1 ≠ a := fun hc => by simp [h c hc] at hp
      simp [hp, Memory.cell, hc, ih]
    · simp [hp, ih]

theorem cell_cellsOf_below {cfg : Config} {bytes : List Byte} {addr a : Nat} (h : a < addr) :
    Memory.cell (Memory.cellsOf cfg addr bytes) a = none := by
  induction bytes generalizing addr with
  | nil => rfl
  | cons v rest ih =>
    have := ih (addr := addr + 1) (by omega)
    by_cases hu : Memory.unlisted cfg addr = some v
    · simp [Memory.cellsOf, hu, this]
    · simp [Memory.cellsOf, hu, Memory.cell, this, show addr ≠ a by omega]

theorem cell_cellsOf_above {cfg : Config} {bytes : List Byte} {addr a : Nat} (h : addr + bytes.length ≤ a) :
    Memory.cell (Memory.cellsOf cfg addr bytes) a = none := by
  induction bytes generalizing addr with
  | nil => rfl
  | cons v rest ih =>
    simp only [List.length_cons] at h
    have := ih (addr := addr + 1) (by omega)
    by_cases hu : Memory.unlisted cfg addr = some v
    · simp [Memory.cellsOf, hu, this]
    · simp [Memory.cellsOf, hu, Memory.cell, this, show addr ≠ a by omega]

/-- What a written run of bytes reads as, the rest of memory apart. -/
theorem read1_cellsOf {cfg : Config} {bytes : List Byte} {addr i : Nat} (h : i < bytes.length) :
    Memory.read1 cfg (Memory.cellsOf cfg addr bytes) (addr + i) = some bytes[i] := by
  induction bytes generalizing addr i with
  | nil => simp at h
  | cons v rest ih =>
    cases i with
    | zero =>
      by_cases hu : Memory.unlisted cfg addr = some v
      · simp [Memory.cellsOf, hu, Memory.read1, cell_cellsOf_below (cfg := cfg) (bytes := rest) (Nat.lt_succ_self addr)]
      · simp [Memory.cellsOf, hu, Memory.read1, Memory.cell]
    | succ i =>
      have h' : i < rest.length := by simpa using h
      have := ih (addr := addr + 1) h'
      rw [show addr + 1 + i = addr + (i + 1) by omega] at this
      by_cases hu : Memory.unlisted cfg addr = some v
      · simpa [Memory.cellsOf, hu] using this
      · simpa [Memory.cellsOf, hu, Memory.read1, Memory.cell] using this

/-! ### Reading one byte after a write -/

/-- A byte of the written run reads as written. -/
theorem read1_writeBytes_inside {cfg : Config} {m : Memory} {bytes : List Byte} {addr a : Nat} (hlo : addr ≤ a)
    (hhi : a < addr + bytes.length) :
    Memory.read1 cfg (Memory.writeBytes cfg m addr bytes) a = some (bytes[a - addr]'(by omega)) := by
  have hr := read1_cellsOf (cfg := cfg) (bytes := bytes) (addr := addr) (i := a - addr) (by omega)
  rw [show addr + (a - addr) = a by omega] at hr
  have h1 : Memory.cell (m.filter (fun c => decide (c.1 < addr))) a = none :=
    cell_filter_of_drop (by intro c hc; simp; omega)
  have h2 : Memory.cell (m.filter (fun c => decide (addr + bytes.length ≤ c.1))) a = none :=
    cell_filter_of_drop (by intro c hc; simp; omega)
  simpa [Memory.read1, Memory.writeBytes, cell_append, h1, h2] using hr

/-- A byte outside the written run reads as before. -/
theorem read1_writeBytes_outside {cfg : Config} {m : Memory} {bytes : List Byte} {addr a : Nat}
    (h : a < addr ∨ addr + bytes.length ≤ a) :
    Memory.read1 cfg (Memory.writeBytes cfg m addr bytes) a = Memory.read1 cfg m a := by
  rcases h with h | h
  · have h1 : Memory.cell (m.filter (fun c => decide (c.1 < addr))) a = Memory.cell m a :=
      cell_filter_of_keep (by intro c hc; simp; omega)
    have h2 : Memory.cell (m.filter (fun c => decide (addr + bytes.length ≤ c.1))) a = none :=
      cell_filter_of_drop (by intro c hc; simp; omega)
    simp [Memory.read1, Memory.writeBytes, cell_append, h1, h2, cell_cellsOf_below h]
  · have h1 : Memory.cell (m.filter (fun c => decide (c.1 < addr))) a = none :=
      cell_filter_of_drop (by intro c hc; simp; omega)
    have h2 : Memory.cell (m.filter (fun c => decide (addr + bytes.length ≤ c.1))) a = Memory.cell m a :=
      cell_filter_of_keep (by intro c hc; simp; omega)
    simp [Memory.read1, Memory.writeBytes, cell_append, h1, h2, cell_cellsOf_above h]

/-- Both cases at once. -/
theorem read1_writeBytes (cfg : Config) (m : Memory) (bytes : List Byte) (addr a : Nat) :
    Memory.read1 cfg (Memory.writeBytes cfg m addr bytes) a =
      if addr ≤ a ∧ a < addr + bytes.length then bytes[a - addr]? else Memory.read1 cfg m a := by
  by_cases h : addr ≤ a ∧ a < addr + bytes.length
  · rw [if_pos h, read1_writeBytes_inside h.1 h.2, List.getElem?_eq_getElem]
  · rw [if_neg h, read1_writeBytes_outside (by omega)]

/-- Inside the framebuffer every byte has a value (R26). -/
theorem read1_framebuffer {cfg : Config} {m : Memory} {a : Nat}
    (h : cfg.fbBase.toNat ≤ a ∧ a < cfg.fbBase.toNat + fbBytes) : (Memory.read1 cfg m a).isSome = true := by
  unfold Memory.read1
  split
  · rfl
  · rw [Memory.unlisted, if_pos h]; rfl

/-! ### The canonical form -/

theorem mem_cellsOf {cfg : Config} {bytes : List Byte} {addr : Nat} {c : Host.Cell}
    (h : c ∈ Memory.cellsOf cfg addr bytes) :
    addr ≤ c.1 ∧ c.1 < addr + bytes.length ∧ Memory.unlisted cfg c.1 ≠ some c.2 := by
  induction bytes generalizing addr with
  | nil => simp [Memory.cellsOf] at h
  | cons v rest ih =>
    by_cases hu : Memory.unlisted cfg addr = some v
    · simp only [Memory.cellsOf, hu, if_true] at h
      have hi := ih h
      simp only [List.length_cons]; exact ⟨by omega, by omega, hi.2.2⟩
    · simp only [Memory.cellsOf, hu, if_false, List.mem_cons] at h
      rcases h with h | h
      · subst h; simp only [List.length_cons]; exact ⟨by omega, by omega, hu⟩
      · have hi := ih h
        simp only [List.length_cons]; exact ⟨by omega, by omega, hi.2.2⟩

theorem cellsOf_rising (cfg : Config) (bytes : List Byte) (addr : Nat) :
    (Memory.cellsOf cfg addr bytes).Pairwise (fun c d => c.1 < d.1) := by
  induction bytes generalizing addr with
  | nil => exact List.Pairwise.nil
  | cons v rest ih =>
    by_cases hu : Memory.unlisted cfg addr = some v
    · simpa [Memory.cellsOf, hu] using ih (addr + 1)
    · simp only [Memory.cellsOf, hu, if_false, List.pairwise_cons]
      exact ⟨fun d hd => by have := mem_cellsOf hd; omega, ih (addr + 1)⟩

/-- The cells of a written run alone are in canonical form. -/
theorem cellsOf_wf (cfg : Config) (bytes : List Byte) (addr : Nat) : Memory.wf cfg (Memory.cellsOf cfg addr bytes) :=
  ⟨cellsOf_rising cfg bytes addr, fun _ hc => (mem_cellsOf hc).2.2⟩

/-- Every write keeps the canonical form. -/
theorem writeBytes_wf {cfg : Config} {m : Memory} (h : Memory.wf cfg m) (addr : Nat) (bytes : List Byte) :
    Memory.wf cfg (Memory.writeBytes cfg m addr bytes) := by
  refine ⟨?_, ?_⟩
  · simp only [Memory.writeBytes, List.pairwise_append]
    refine ⟨⟨h.1.filter _, cellsOf_rising cfg bytes addr, ?_⟩, h.1.filter _, ?_⟩
    · intro c hc d hd
      have := (mem_cellsOf hd).1
      simp only [List.mem_filter, decide_eq_true_eq] at hc
      omega
    · intro c hc d hd
      simp only [List.mem_filter, decide_eq_true_eq, List.mem_append] at hc hd
      rcases hc with hc | hc
      · omega
      · have := mem_cellsOf hc; omega
  · intro c hc
    simp only [Memory.writeBytes, List.mem_append, List.mem_filter] at hc
    rcases hc with (hc | hc) | hc
    · exact h.2 c hc.1
    · exact (mem_cellsOf hc).2.2
    · exact h.2 c hc.1

/-- A write lists no address that was not listed or written. -/
theorem mem_writeBytes {cfg : Config} {m : Memory} {addr : Nat} {bytes : List Byte} {c : Host.Cell}
    (h : c ∈ Memory.writeBytes cfg m addr bytes) : c ∈ m ∨ (addr ≤ c.1 ∧ c.1 < addr + bytes.length) := by
  simp only [Memory.writeBytes, List.mem_append, List.mem_filter] at h
  rcases h with (h | h) | h
  · exact .inl h.1
  · exact .inr ⟨(mem_cellsOf h).1, (mem_cellsOf h).2.1⟩
  · exact .inl h.1

/-! ### Samples -/

@[simp] theorem sampleBytes_length (v : Sample) : (sampleBytes v).length = 2 := rfl

@[simp] theorem wordBytes_length (w : BitVec 32) : (wordBytes w).length = 4 := rfl

@[simp] theorem flatMap_sampleBytes_length (vs : List Sample) : (vs.flatMap sampleBytes).length = 2 * vs.length := by
  induction vs with
  | nil => rfl
  | cons v vs ih => simp [ih]; omega

@[simp] theorem flatMap_wordBytes_length (ws : List (BitVec 32)) : (ws.flatMap wordBytes).length = 4 * ws.length := by
  induction ws with
  | nil => rfl
  | cons v vs ih => simp [ih]; omega

theorem flatMap_sampleBytes_lo {vs : List Sample} {i : Nat} (h : i < vs.length) :
    (vs.flatMap sampleBytes)[2 * i]? = some (vs[i].extractLsb' 0 8) := by
  induction vs generalizing i with
  | nil => simp at h
  | cons v vs ih =>
    cases i with
    | zero => rfl
    | succ i =>
      have := ih (i := i) (by simpa using h)
      simpa [List.flatMap_cons, sampleBytes, show 2 * (i + 1) = 2 * i + 1 + 1 by omega] using this

theorem flatMap_sampleBytes_hi {vs : List Sample} {i : Nat} (h : i < vs.length) :
    (vs.flatMap sampleBytes)[2 * i + 1]? = some (vs[i].extractLsb' 8 8) := by
  induction vs generalizing i with
  | nil => simp at h
  | cons v vs ih =>
    cases i with
    | zero => rfl
    | succ i =>
      have := ih (i := i) (by simpa using h)
      simpa [List.flatMap_cons, sampleBytes, show 2 * (i + 1) + 1 = 2 * i + 1 + 1 + 1 by omega] using this

theorem bytes_of_sample (v : Sample) : v.extractLsb' 8 8 ++ v.extractLsb' 0 8 = v := by
  ext i hi
  simp only [BitVec.getElem_append, BitVec.getElem_extractLsb']
  by_cases h : i < 8
  · simp [h, BitVec.getLsbD_eq_getElem (show i < 16 by omega)]
  · simp [h, show 8 + (i - 8) = i by omega, BitVec.getLsbD_eq_getElem (show i < 16 by omega)]

theorem samples_of_word (w : BitVec 32) : w.extractLsb' 16 16 ++ w.extractLsb' 0 16 = w := by
  ext i hi
  simp only [BitVec.getElem_append, BitVec.getElem_extractLsb']
  by_cases h : i < 16
  · simp [h, BitVec.getLsbD_eq_getElem (show i < 32 by omega)]
  · simp [h, show 16 + (i - 16) = i by omega, BitVec.getLsbD_eq_getElem (show i < 32 by omega)]

/-- The bytes of a word are the bytes of its two samples, the low one first. -/
theorem flatMap_wordBytes (ws : List (BitVec 32)) :
    ws.flatMap wordBytes = (ws.flatMap fun w => [w.extractLsb' 0 16, w.extractLsb' 16 16]).flatMap sampleBytes := by
  induction ws with
  | nil => rfl
  | cons w ws ih => simp [List.flatMap_cons, ih, wordBytes]

theorem read2_congr {cfg : Config} {m m' : Memory} {a : Nat} (h0 : Memory.read1 cfg m' a = Memory.read1 cfg m a)
    (h1 : Memory.read1 cfg m' (a + 1) = Memory.read1 cfg m (a + 1)) :
    Memory.read2 cfg m' a = Memory.read2 cfg m a := by
  simp [Memory.read2, h0, h1]

/-- A written run of samples reads back sample by sample. -/
theorem sample_writeSamples_inside {cfg : Config} {m : Memory} {base : Addr} {n i : Nat} {vs : List Sample}
    (hlo : n ≤ i) (hhi : i < n + vs.length) :
    Memory.sample cfg (Memory.writeSamples cfg m base n vs) base i = some (vs[i - n]'(by omega)) := by
  have hlen := flatMap_sampleBytes_length vs
  have e0 : base.toNat + 2 * i - (base.toNat + 2 * n) = 2 * (i - n) := by omega
  have e1 : base.toNat + 2 * i + 1 - (base.toNat + 2 * n) = 2 * (i - n) + 1 := by omega
  have h0 := read1_writeBytes cfg m (vs.flatMap sampleBytes) (base.toNat + 2 * n) (base.toNat + 2 * i)
  have h1 := read1_writeBytes cfg m (vs.flatMap sampleBytes) (base.toNat + 2 * n) (base.toNat + 2 * i + 1)
  rw [if_pos (by omega), e0, flatMap_sampleBytes_lo (by omega)] at h0
  rw [if_pos (by omega), e1, flatMap_sampleBytes_hi (by omega)] at h1
  simp [Memory.sample, Memory.writeSamples, Memory.read2, h0, h1, bytes_of_sample]

/-- A sample of the same array outside the written run reads as before. -/
theorem sample_writeSamples_outside {cfg : Config} {m : Memory} {base : Addr} {n i : Nat} {vs : List Sample}
    (h : i < n ∨ n + vs.length ≤ i) :
    Memory.sample cfg (Memory.writeSamples cfg m base n vs) base i = Memory.sample cfg m base i := by
  have hlen := flatMap_sampleBytes_length vs
  exact read2_congr (read1_writeBytes_outside (by omega)) (read1_writeBytes_outside (by omega))

/-- A run of 4-byte words stored from sample `n` on is a run of samples. -/
theorem writeBytes_words (cfg : Config) (m : Memory) (base : Addr) (n : Nat) (ws : List (BitVec 32)) :
    Memory.writeBytes cfg m (base.toNat + 2 * n) (ws.flatMap wordBytes)
      = Memory.writeSamples cfg m base n (ws.flatMap fun w => [w.extractLsb' 0 16, w.extractLsb' 16 16]) := by
  rw [Memory.writeSamples, flatMap_wordBytes]

end Sys2Proof.Machine
end

