-- ==== Sys2Proof/Laws/State.lean ====
section
/-!
SUPPORT. The fields of the state after each named update: one lemma for each, true by definition; and the channel
pairs.
-/
namespace Sys2Proof

/-! ### Channels and pairs -/

@[simp] theorem Chan.peer_a : Chan.a.peer = .b := rfl

@[simp] theorem Chan.peer_b : Chan.b.peer = .a := rfl

@[simp] theorem Chan.peer_peer (x : Chan) : x.peer.peer = x := by cases x <;> rfl

@[simp] theorem Chan.peer_ne (x : Chan) : x.peer ≠ x := by cases x <;> decide

@[simp] theorem Chan.ne_peer (x : Chan) : x ≠ x.peer := by cases x <;> decide

theorem Chan.eq_or_peer (x y : Chan) : y = x ∨ y = x.peer := by cases x <;> cases y <;> decide

@[simp] theorem Pair.get_set {α : Type} (p : Pair α) (x : Chan) (v : α) : (p.set x v).get x = v := by
  cases x <;> rfl

@[simp] theorem Pair.get_set_peer {α : Type} (p : Pair α) (x : Chan) (v : α) :
    (p.set x v).get x.peer = p.get x.peer := by
  cases x <;> rfl

@[simp] theorem Pair.get_peer_set {α : Type} (p : Pair α) (x : Chan) (v : α) :
    (p.set x.peer v).get x = p.get x := by
  cases x <;> rfl

theorem Pair.get_set_ne {α : Type} {p : Pair α} {x y : Chan} {v : α} (h : y ≠ x) : (p.set x v).get y = p.get y := by
  cases x <;> cases y <;> simp_all [Pair.get, Pair.set]

theorem Pair.ext_get {α : Type} {p q : Pair α} (h : ∀ x, p.get x = q.get x) : p = q := by
  have ha := h .a
  have hb := h .b
  cases p; cases q
  simp_all [Pair.get]

end Sys2Proof

namespace Sys2Proof.Machine

/-! ### `markRefused` -/

@[simp] theorem markRefused_cfg (r : RefuseReason) (s : State) : (s.markRefused r).cfg = s.cfg := rfl
@[simp] theorem markRefused_scanIdx (r : RefuseReason) (s : State) : (s.markRefused r).scanIdx = s.scanIdx := rfl
@[simp] theorem markRefused_cursor (r : RefuseReason) (s : State) : (s.markRefused r).cursor = s.cursor := rfl
@[simp] theorem markRefused_frameCount (r : RefuseReason) (s : State) : (s.markRefused r).frameCount = s.frameCount := rfl
@[simp] theorem markRefused_renderActive (r : RefuseReason) (s : State) : (s.markRefused r).renderActive = s.renderActive := rfl
@[simp] theorem markRefused_started (r : RefuseReason) (s : State) : (s.markRefused r).started = s.started := rfl
@[simp] theorem markRefused_fault (r : RefuseReason) (s : State) : (s.markRefused r).fault = s.fault := rfl
@[simp] theorem markRefused_refused (r : RefuseReason) (s : State) : (s.markRefused r).refused = true := rfl
@[simp] theorem markRefused_mem (r : RefuseReason) (s : State) : (s.markRefused r).mem = s.mem := rfl
@[simp] theorem markRefused_dma (r : RefuseReason) (s : State) : (s.markRefused r).dma = s.dma := rfl
@[simp] theorem markRefused_intr (r : RefuseReason) (s : State) : (s.markRefused r).intr = s.intr := rfl
@[simp] theorem markRefused_inte (r : RefuseReason) (s : State) : (s.markRefused r).inte = s.inte := rfl
@[simp] theorem markRefused_pwm (r : RefuseReason) (s : State) : (s.markRefused r).pwm = s.pwm := rfl
@[simp] theorem markRefused_dreq (r : RefuseReason) (s : State) : (s.markRefused r).dreq = s.dreq := rfl
@[simp] theorem markRefused_handler (r : RefuseReason) (s : State) : (s.markRefused r).handler = s.handler := rfl
@[simp] theorem markRefused_pend (r : RefuseReason) (s : State) : (s.markRefused r).pend = s.pend := rfl
@[simp] theorem markRefused_dmaHist (r : RefuseReason) (s : State) : (s.markRefused r).dmaHist = s.dmaHist := rfl
@[simp] theorem markRefused_outHist (r : RefuseReason) (s : State) : (s.markRefused r).outHist = s.outHist := rfl
@[simp] theorem markRefused_inbox (r : RefuseReason) (s : State) : (s.markRefused r).inbox = s.inbox := rfl
@[simp] theorem markRefused_tick (r : RefuseReason) (s : State) : (s.markRefused r).tick = s.tick := rfl
@[simp] theorem markRefused_hostReads (r : RefuseReason) (s : State) : (s.markRefused r).hostReads = s.hostReads := rfl

/-! ### `fillBuf` -/

@[simp] theorem fillBuf_cfg (s : State) (x : Chan) (n : Nat) (vs : List Sample) : (s.fillBuf x n vs).cfg = s.cfg := rfl
@[simp] theorem fillBuf_scanIdx (s : State) (x : Chan) (n : Nat) (vs : List Sample) : (s.fillBuf x n vs).scanIdx = s.scanIdx := rfl
@[simp] theorem fillBuf_cursor (s : State) (x : Chan) (n : Nat) (vs : List Sample) : (s.fillBuf x n vs).cursor = s.cursor := rfl
@[simp] theorem fillBuf_frameCount (s : State) (x : Chan) (n : Nat) (vs : List Sample) : (s.fillBuf x n vs).frameCount = s.frameCount := rfl
@[simp] theorem fillBuf_renderActive (s : State) (x : Chan) (n : Nat) (vs : List Sample) : (s.fillBuf x n vs).renderActive = s.renderActive := rfl
@[simp] theorem fillBuf_started (s : State) (x : Chan) (n : Nat) (vs : List Sample) : (s.fillBuf x n vs).started = s.started := rfl
@[simp] theorem fillBuf_fault (s : State) (x : Chan) (n : Nat) (vs : List Sample) : (s.fillBuf x n vs).fault = s.fault := rfl
@[simp] theorem fillBuf_refused (s : State) (x : Chan) (n : Nat) (vs : List Sample) : (s.fillBuf x n vs).refused = s.refused := rfl
@[simp] theorem fillBuf_mem (s : State) (x : Chan) (n : Nat) (vs : List Sample) : (s.fillBuf x n vs).mem = Memory.writeSamples s.cfg s.mem (s.cfg.bufBase x) n vs := rfl
@[simp] theorem fillBuf_dma (s : State) (x : Chan) (n : Nat) (vs : List Sample) : (s.fillBuf x n vs).dma = s.dma := rfl
@[simp] theorem fillBuf_intr (s : State) (x : Chan) (n : Nat) (vs : List Sample) : (s.fillBuf x n vs).intr = s.intr := rfl
@[simp] theorem fillBuf_inte (s : State) (x : Chan) (n : Nat) (vs : List Sample) : (s.fillBuf x n vs).inte = s.inte := rfl
@[simp] theorem fillBuf_pwm (s : State) (x : Chan) (n : Nat) (vs : List Sample) : (s.fillBuf x n vs).pwm = s.pwm := rfl
@[simp] theorem fillBuf_dreq (s : State) (x : Chan) (n : Nat) (vs : List Sample) : (s.fillBuf x n vs).dreq = s.dreq := rfl
@[simp] theorem fillBuf_handler (s : State) (x : Chan) (n : Nat) (vs : List Sample) : (s.fillBuf x n vs).handler = s.handler := rfl
@[simp] theorem fillBuf_pend (s : State) (x : Chan) (n : Nat) (vs : List Sample) : (s.fillBuf x n vs).pend = s.pend := rfl
@[simp] theorem fillBuf_dmaHist (s : State) (x : Chan) (n : Nat) (vs : List Sample) : (s.fillBuf x n vs).dmaHist = s.dmaHist := rfl
@[simp] theorem fillBuf_outHist (s : State) (x : Chan) (n : Nat) (vs : List Sample) : (s.fillBuf x n vs).outHist = s.outHist := rfl
@[simp] theorem fillBuf_inbox (s : State) (x : Chan) (n : Nat) (vs : List Sample) : (s.fillBuf x n vs).inbox = s.inbox := rfl
@[simp] theorem fillBuf_tick (s : State) (x : Chan) (n : Nat) (vs : List Sample) : (s.fillBuf x n vs).tick = s.tick := rfl
@[simp] theorem fillBuf_hostReads (s : State) (x : Chan) (n : Nat) (vs : List Sample) : (s.fillBuf x n vs).hostReads = s.hostReads := rfl

/-! ### `storePixels` -/

@[simp] theorem storePixels_cfg (s : State) (x : Chan) (cur : BitVec 17) (ws : List (BitVec 32)) :
    (s.storePixels x cur ws).cfg = s.cfg := rfl
@[simp] theorem storePixels_scanIdx (s : State) (x : Chan) (cur : BitVec 17) (ws : List (BitVec 32)) :
    (s.storePixels x cur ws).scanIdx = s.scanIdx := rfl
@[simp] theorem storePixels_cursor (s : State) (x : Chan) (cur : BitVec 17) (ws : List (BitVec 32)) :
    (s.storePixels x cur ws).cursor = some (cur + 320) := rfl
@[simp] theorem storePixels_frameCount (s : State) (x : Chan) (cur : BitVec 17) (ws : List (BitVec 32)) :
    (s.storePixels x cur ws).frameCount = s.frameCount := rfl
@[simp] theorem storePixels_renderActive (s : State) (x : Chan) (cur : BitVec 17) (ws : List (BitVec 32)) :
    (s.storePixels x cur ws).renderActive = s.renderActive := rfl
@[simp] theorem storePixels_started (s : State) (x : Chan) (cur : BitVec 17) (ws : List (BitVec 32)) :
    (s.storePixels x cur ws).started = s.started := rfl
@[simp] theorem storePixels_fault (s : State) (x : Chan) (cur : BitVec 17) (ws : List (BitVec 32)) :
    (s.storePixels x cur ws).fault = s.fault := rfl
@[simp] theorem storePixels_refused (s : State) (x : Chan) (cur : BitVec 17) (ws : List (BitVec 32)) :
    (s.storePixels x cur ws).refused = s.refused := rfl
@[simp] theorem storePixels_mem (s : State) (x : Chan) (cur : BitVec 17) (ws : List (BitVec 32)) :
    (s.storePixels x cur ws).mem = Memory.writeBytes s.cfg s.mem ((s.cfg.bufBase x).toNat + 2 * activeStart) (ws.flatMap wordBytes) := rfl
@[simp] theorem storePixels_dma (s : State) (x : Chan) (cur : BitVec 17) (ws : List (BitVec 32)) :
    (s.storePixels x cur ws).dma = s.dma := rfl
@[simp] theorem storePixels_intr (s : State) (x : Chan) (cur : BitVec 17) (ws : List (BitVec 32)) :
    (s.storePixels x cur ws).intr = s.intr := rfl
@[simp] theorem storePixels_inte (s : State) (x : Chan) (cur : BitVec 17) (ws : List (BitVec 32)) :
    (s.storePixels x cur ws).inte = s.inte := rfl
@[simp] theorem storePixels_pwm (s : State) (x : Chan) (cur : BitVec 17) (ws : List (BitVec 32)) :
    (s.storePixels x cur ws).pwm = s.pwm := rfl
@[simp] theorem storePixels_dreq (s : State) (x : Chan) (cur : BitVec 17) (ws : List (BitVec 32)) :
    (s.storePixels x cur ws).dreq = s.dreq := rfl
@[simp] theorem storePixels_handler (s : State) (x : Chan) (cur : BitVec 17) (ws : List (BitVec 32)) :
    (s.storePixels x cur ws).handler = s.handler := rfl
@[simp] theorem storePixels_pend (s : State) (x : Chan) (cur : BitVec 17) (ws : List (BitVec 32)) :
    (s.storePixels x cur ws).pend = s.pend := rfl
@[simp] theorem storePixels_dmaHist (s : State) (x : Chan) (cur : BitVec 17) (ws : List (BitVec 32)) :
    (s.storePixels x cur ws).dmaHist = s.dmaHist := rfl
@[simp] theorem storePixels_outHist (s : State) (x : Chan) (cur : BitVec 17) (ws : List (BitVec 32)) :
    (s.storePixels x cur ws).outHist = s.outHist := rfl
@[simp] theorem storePixels_inbox (s : State) (x : Chan) (cur : BitVec 17) (ws : List (BitVec 32)) :
    (s.storePixels x cur ws).inbox = s.inbox := rfl
@[simp] theorem storePixels_tick (s : State) (x : Chan) (cur : BitVec 17) (ws : List (BitVec 32)) :
    (s.storePixels x cur ws).tick = s.tick := rfl
@[simp] theorem storePixels_hostReads (s : State) (x : Chan) (cur : BitVec 17) (ws : List (BitVec 32)) :
    (s.storePixels x cur ws).hostReads = s.hostReads := rfl

/-! ### `markRender` -/

@[simp] theorem markRender_cfg (v : Bool) (s : State) : (markRender v s).cfg = s.cfg := rfl
@[simp] theorem markRender_scanIdx (v : Bool) (s : State) : (markRender v s).scanIdx = s.scanIdx := rfl
@[simp] theorem markRender_cursor (v : Bool) (s : State) : (markRender v s).cursor = s.cursor := rfl
@[simp] theorem markRender_frameCount (v : Bool) (s : State) : (markRender v s).frameCount = s.frameCount := rfl
@[simp] theorem markRender_renderActive (v : Bool) (s : State) : (markRender v s).renderActive = renderAfter s.cfg v s.renderActive := rfl
@[simp] theorem markRender_started (v : Bool) (s : State) : (markRender v s).started = s.started := rfl
@[simp] theorem markRender_fault (v : Bool) (s : State) : (markRender v s).fault = s.fault := rfl
@[simp] theorem markRender_refused (v : Bool) (s : State) : (markRender v s).refused = s.refused := rfl
@[simp] theorem markRender_mem (v : Bool) (s : State) : (markRender v s).mem = s.mem := rfl
@[simp] theorem markRender_dma (v : Bool) (s : State) : (markRender v s).dma = s.dma := rfl
@[simp] theorem markRender_intr (v : Bool) (s : State) : (markRender v s).intr = s.intr := rfl
@[simp] theorem markRender_inte (v : Bool) (s : State) : (markRender v s).inte = s.inte := rfl
@[simp] theorem markRender_pwm (v : Bool) (s : State) : (markRender v s).pwm = s.pwm := rfl
@[simp] theorem markRender_dreq (v : Bool) (s : State) : (markRender v s).dreq = s.dreq := rfl
@[simp] theorem markRender_handler (v : Bool) (s : State) : (markRender v s).handler = s.handler := rfl
@[simp] theorem markRender_pend (v : Bool) (s : State) : (markRender v s).pend = s.pend := rfl
@[simp] theorem markRender_dmaHist (v : Bool) (s : State) : (markRender v s).dmaHist = s.dmaHist := rfl
@[simp] theorem markRender_outHist (v : Bool) (s : State) : (markRender v s).outHist = s.outHist := rfl
@[simp] theorem markRender_inbox (v : Bool) (s : State) : (markRender v s).inbox = s.inbox := rfl
@[simp] theorem markRender_tick (v : Bool) (s : State) : (markRender v s).tick = s.tick := rfl
@[simp] theorem markRender_hostReads (v : Bool) (s : State) : (markRender v s).hostReads = s.hostReads := rfl

/-! ### `configure` -/

@[simp] theorem configure_cfg (x : Chan) (s : State) : (configure x s).cfg = s.cfg := rfl
@[simp] theorem configure_scanIdx (x : Chan) (s : State) : (configure x s).scanIdx = s.scanIdx := rfl
@[simp] theorem configure_cursor (x : Chan) (s : State) : (configure x s).cursor = s.cursor := rfl
@[simp] theorem configure_frameCount (x : Chan) (s : State) : (configure x s).frameCount = s.frameCount := rfl
@[simp] theorem configure_renderActive (x : Chan) (s : State) : (configure x s).renderActive = s.renderActive := rfl
@[simp] theorem configure_started (x : Chan) (s : State) : (configure x s).started = s.started := rfl
@[simp] theorem configure_fault (x : Chan) (s : State) : (configure x s).fault = s.fault := rfl
@[simp] theorem configure_refused (x : Chan) (s : State) : (configure x s).refused = s.refused := rfl
@[simp] theorem configure_mem (x : Chan) (s : State) : (configure x s).mem = s.mem := rfl
@[simp] theorem configure_intr (x : Chan) (s : State) : (configure x s).intr = s.intr := rfl
@[simp] theorem configure_inte (x : Chan) (s : State) : (configure x s).inte = s.inte := rfl
@[simp] theorem configure_pwm (x : Chan) (s : State) : (configure x s).pwm = s.pwm := rfl
@[simp] theorem configure_dreq (x : Chan) (s : State) : (configure x s).dreq = s.dreq := rfl
@[simp] theorem configure_handler (x : Chan) (s : State) : (configure x s).handler = s.handler := rfl
@[simp] theorem configure_pend (x : Chan) (s : State) : (configure x s).pend = s.pend := rfl
@[simp] theorem configure_dmaHist (x : Chan) (s : State) : (configure x s).dmaHist = s.dmaHist := rfl
@[simp] theorem configure_outHist (x : Chan) (s : State) : (configure x s).outHist = s.outHist := rfl
@[simp] theorem configure_inbox (x : Chan) (s : State) : (configure x s).inbox = s.inbox := rfl
@[simp] theorem configure_tick (x : Chan) (s : State) : (configure x s).tick = s.tick := rfl
@[simp] theorem configure_hostReads (x : Chan) (s : State) : (configure x s).hostReads = s.hostReads := rfl

/-! ### `linePreeq` -/

@[simp] theorem linePreeq_cfg (x : Chan) (s : State) : (linePreeq x s).cfg = s.cfg := by
  simp only [linePreeq, markRender_cfg, fillBuf_cfg]
@[simp] theorem linePreeq_scanIdx (x : Chan) (s : State) : (linePreeq x s).scanIdx = s.scanIdx := by
  simp only [linePreeq, markRender_scanIdx, fillBuf_scanIdx]
@[simp] theorem linePreeq_cursor (x : Chan) (s : State) : (linePreeq x s).cursor = s.cursor := by
  simp only [linePreeq, markRender_cursor, fillBuf_cursor]
@[simp] theorem linePreeq_frameCount (x : Chan) (s : State) : (linePreeq x s).frameCount = s.frameCount := by
  simp only [linePreeq, markRender_frameCount, fillBuf_frameCount]
@[simp] theorem linePreeq_started (x : Chan) (s : State) : (linePreeq x s).started = s.started := by
  simp only [linePreeq, markRender_started, fillBuf_started]
@[simp] theorem linePreeq_fault (x : Chan) (s : State) : (linePreeq x s).fault = s.fault := by
  simp only [linePreeq, markRender_fault, fillBuf_fault]
@[simp] theorem linePreeq_refused (x : Chan) (s : State) : (linePreeq x s).refused = s.refused := by
  simp only [linePreeq, markRender_refused, fillBuf_refused]
@[simp] theorem linePreeq_dma (x : Chan) (s : State) : (linePreeq x s).dma = s.dma := by
  simp only [linePreeq, markRender_dma, fillBuf_dma]
@[simp] theorem linePreeq_intr (x : Chan) (s : State) : (linePreeq x s).intr = s.intr := by
  simp only [linePreeq, markRender_intr, fillBuf_intr]
@[simp] theorem linePreeq_inte (x : Chan) (s : State) : (linePreeq x s).inte = s.inte := by
  simp only [linePreeq, markRender_inte, fillBuf_inte]
@[simp] theorem linePreeq_pwm (x : Chan) (s : State) : (linePreeq x s).pwm = s.pwm := by
  simp only [linePreeq, markRender_pwm, fillBuf_pwm]
@[simp] theorem linePreeq_dreq (x : Chan) (s : State) : (linePreeq x s).dreq = s.dreq := by
  simp only [linePreeq, markRender_dreq, fillBuf_dreq]
@[simp] theorem linePreeq_handler (x : Chan) (s : State) : (linePreeq x s).handler = s.handler := by
  simp only [linePreeq, markRender_handler, fillBuf_handler]
@[simp] theorem linePreeq_pend (x : Chan) (s : State) : (linePreeq x s).pend = s.pend := by
  simp only [linePreeq, markRender_pend, fillBuf_pend]
@[simp] theorem linePreeq_dmaHist (x : Chan) (s : State) : (linePreeq x s).dmaHist = s.dmaHist := by
  simp only [linePreeq, markRender_dmaHist, fillBuf_dmaHist]
@[simp] theorem linePreeq_outHist (x : Chan) (s : State) : (linePreeq x s).outHist = s.outHist := by
  simp only [linePreeq, markRender_outHist, fillBuf_outHist]
@[simp] theorem linePreeq_inbox (x : Chan) (s : State) : (linePreeq x s).inbox = s.inbox := by
  simp only [linePreeq, markRender_inbox, fillBuf_inbox]
@[simp] theorem linePreeq_tick (x : Chan) (s : State) : (linePreeq x s).tick = s.tick := by
  simp only [linePreeq, markRender_tick, fillBuf_tick]
@[simp] theorem linePreeq_hostReads (x : Chan) (s : State) : (linePreeq x s).hostReads = s.hostReads := by
  simp only [linePreeq, markRender_hostReads, fillBuf_hostReads]
@[simp] theorem linePreeq_renderActive (x : Chan) (s : State) :
    (linePreeq x s).renderActive = renderAfter s.cfg false s.renderActive := by
  simp only [linePreeq, markRender_renderActive, fillBuf_renderActive, fillBuf_cfg]

/-! ### `startEnabled` -/

@[simp] theorem startEnabled_cfg (s : State) : (startEnabled s).cfg = s.cfg := rfl
@[simp] theorem startEnabled_scanIdx (s : State) : (startEnabled s).scanIdx = some 2 := rfl
@[simp] theorem startEnabled_cursor (s : State) : (startEnabled s).cursor = s.cursor := rfl
@[simp] theorem startEnabled_frameCount (s : State) : (startEnabled s).frameCount = s.frameCount := rfl
@[simp] theorem startEnabled_renderActive (s : State) : (startEnabled s).renderActive = s.renderActive := rfl
@[simp] theorem startEnabled_started (s : State) : (startEnabled s).started = true := rfl
@[simp] theorem startEnabled_fault (s : State) : (startEnabled s).fault = s.fault := rfl
@[simp] theorem startEnabled_refused (s : State) : (startEnabled s).refused = s.refused := rfl
@[simp] theorem startEnabled_mem (s : State) : (startEnabled s).mem = s.mem := rfl
@[simp] theorem startEnabled_dma (s : State) : (startEnabled s).dma = s.dma := rfl
@[simp] theorem startEnabled_intr (s : State) : (startEnabled s).intr = ⟨false, false⟩ := rfl
@[simp] theorem startEnabled_inte (s : State) : (startEnabled s).inte = ⟨true, true⟩ := rfl
@[simp] theorem startEnabled_pwm (s : State) : (startEnabled s).pwm = { s.pwm with en := true } := rfl
@[simp] theorem startEnabled_dreq (s : State) : (startEnabled s).dreq = 0 := rfl
@[simp] theorem startEnabled_handler (s : State) : (startEnabled s).handler = s.handler := rfl
@[simp] theorem startEnabled_pend (s : State) : (startEnabled s).pend = s.pend := rfl
@[simp] theorem startEnabled_dmaHist (s : State) : (startEnabled s).dmaHist = s.dmaHist := rfl
@[simp] theorem startEnabled_outHist (s : State) : (startEnabled s).outHist = s.outHist := rfl
@[simp] theorem startEnabled_inbox (s : State) : (startEnabled s).inbox = s.inbox := rfl
@[simp] theorem startEnabled_tick (s : State) : (startEnabled s).tick = s.tick := rfl
@[simp] theorem startEnabled_hostReads (s : State) : (startEnabled s).hostReads = s.hostReads := rfl

/-! ### `moveSample` -/

@[simp] theorem moveSample_cfg (s : State) (x : Chan) (a : Addr) (v : Sample) : (s.moveSample x a v).cfg = s.cfg := rfl
@[simp] theorem moveSample_scanIdx (s : State) (x : Chan) (a : Addr) (v : Sample) : (s.moveSample x a v).scanIdx = s.scanIdx := rfl
@[simp] theorem moveSample_cursor (s : State) (x : Chan) (a : Addr) (v : Sample) : (s.moveSample x a v).cursor = s.cursor := rfl
@[simp] theorem moveSample_frameCount (s : State) (x : Chan) (a : Addr) (v : Sample) : (s.moveSample x a v).frameCount = s.frameCount := rfl
@[simp] theorem moveSample_renderActive (s : State) (x : Chan) (a : Addr) (v : Sample) : (s.moveSample x a v).renderActive = s.renderActive := rfl
@[simp] theorem moveSample_started (s : State) (x : Chan) (a : Addr) (v : Sample) : (s.moveSample x a v).started = s.started := rfl
@[simp] theorem moveSample_fault (s : State) (x : Chan) (a : Addr) (v : Sample) : (s.moveSample x a v).fault = s.fault := rfl
@[simp] theorem moveSample_refused (s : State) (x : Chan) (a : Addr) (v : Sample) : (s.moveSample x a v).refused = s.refused := rfl
@[simp] theorem moveSample_mem (s : State) (x : Chan) (a : Addr) (v : Sample) : (s.moveSample x a v).mem = s.mem := rfl
@[simp] theorem moveSample_intr (s : State) (x : Chan) (a : Addr) (v : Sample) : (s.moveSample x a v).intr = s.intr := rfl
@[simp] theorem moveSample_inte (s : State) (x : Chan) (a : Addr) (v : Sample) : (s.moveSample x a v).inte = s.inte := rfl
@[simp] theorem moveSample_pwm (s : State) (x : Chan) (a : Addr) (v : Sample) : (s.moveSample x a v).pwm = { s.pwm with ccB := v } := rfl
@[simp] theorem moveSample_dreq (s : State) (x : Chan) (a : Addr) (v : Sample) : (s.moveSample x a v).dreq = s.dreq - 1 := rfl
@[simp] theorem moveSample_handler (s : State) (x : Chan) (a : Addr) (v : Sample) : (s.moveSample x a v).handler = s.handler := rfl
@[simp] theorem moveSample_pend (s : State) (x : Chan) (a : Addr) (v : Sample) : (s.moveSample x a v).pend = s.pend := rfl
@[simp] theorem moveSample_dmaHist (s : State) (x : Chan) (a : Addr) (v : Sample) : (s.moveSample x a v).dmaHist = s.dmaHist ++ [v] := rfl
@[simp] theorem moveSample_outHist (s : State) (x : Chan) (a : Addr) (v : Sample) : (s.moveSample x a v).outHist = s.outHist := rfl
@[simp] theorem moveSample_inbox (s : State) (x : Chan) (a : Addr) (v : Sample) : (s.moveSample x a v).inbox = s.inbox := rfl
@[simp] theorem moveSample_tick (s : State) (x : Chan) (a : Addr) (v : Sample) : (s.moveSample x a v).tick = s.tick := rfl
@[simp] theorem moveSample_hostReads (s : State) (x : Chan) (a : Addr) (v : Sample) : (s.moveSample x a v).hostReads = s.hostReads := rfl

/-! ### `enterHandler` -/

@[simp] theorem enterHandler_cfg (s : State) : (enterHandler s).cfg = s.cfg := rfl
@[simp] theorem enterHandler_scanIdx (s : State) : (enterHandler s).scanIdx = s.scanIdx := rfl
@[simp] theorem enterHandler_cursor (s : State) : (enterHandler s).cursor = s.cursor := rfl
@[simp] theorem enterHandler_frameCount (s : State) : (enterHandler s).frameCount = s.frameCount := rfl
@[simp] theorem enterHandler_renderActive (s : State) : (enterHandler s).renderActive = s.renderActive := rfl
@[simp] theorem enterHandler_started (s : State) : (enterHandler s).started = s.started := rfl
@[simp] theorem enterHandler_fault (s : State) : (enterHandler s).fault = s.fault := rfl
@[simp] theorem enterHandler_refused (s : State) : (enterHandler s).refused = s.refused := rfl
@[simp] theorem enterHandler_mem (s : State) : (enterHandler s).mem = s.mem := rfl
@[simp] theorem enterHandler_dma (s : State) : (enterHandler s).dma = s.dma := rfl
@[simp] theorem enterHandler_inte (s : State) : (enterHandler s).inte = s.inte := rfl
@[simp] theorem enterHandler_pwm (s : State) : (enterHandler s).pwm = s.pwm := rfl
@[simp] theorem enterHandler_dreq (s : State) : (enterHandler s).dreq = s.dreq := rfl
@[simp] theorem enterHandler_handler (s : State) : (enterHandler s).handler = ⟨true, serviceList s.cfg.bothBits (s.ints .a) (s.ints .b)⟩ := rfl
@[simp] theorem enterHandler_pend (s : State) : (enterHandler s).pend = s.pend := rfl
@[simp] theorem enterHandler_dmaHist (s : State) : (enterHandler s).dmaHist = s.dmaHist := rfl
@[simp] theorem enterHandler_outHist (s : State) : (enterHandler s).outHist = s.outHist := rfl
@[simp] theorem enterHandler_inbox (s : State) : (enterHandler s).inbox = s.inbox := rfl
@[simp] theorem enterHandler_tick (s : State) : (enterHandler s).tick = s.tick := rfl
@[simp] theorem enterHandler_hostReads (s : State) : (enterHandler s).hostReads = s.hostReads := rfl

/-! ### `leaveHandler` -/

@[simp] theorem leaveHandler_cfg (s : State) : (leaveHandler s).cfg = s.cfg := rfl
@[simp] theorem leaveHandler_scanIdx (s : State) : (leaveHandler s).scanIdx = s.scanIdx := rfl
@[simp] theorem leaveHandler_cursor (s : State) : (leaveHandler s).cursor = s.cursor := rfl
@[simp] theorem leaveHandler_frameCount (s : State) : (leaveHandler s).frameCount = s.frameCount := rfl
@[simp] theorem leaveHandler_renderActive (s : State) : (leaveHandler s).renderActive = s.renderActive := rfl
@[simp] theorem leaveHandler_started (s : State) : (leaveHandler s).started = s.started := rfl
@[simp] theorem leaveHandler_fault (s : State) : (leaveHandler s).fault = s.fault := rfl
@[simp] theorem leaveHandler_refused (s : State) : (leaveHandler s).refused = s.refused := rfl
@[simp] theorem leaveHandler_mem (s : State) : (leaveHandler s).mem = s.mem := rfl
@[simp] theorem leaveHandler_dma (s : State) : (leaveHandler s).dma = s.dma := rfl
@[simp] theorem leaveHandler_intr (s : State) : (leaveHandler s).intr = s.intr := rfl
@[simp] theorem leaveHandler_inte (s : State) : (leaveHandler s).inte = s.inte := rfl
@[simp] theorem leaveHandler_pwm (s : State) : (leaveHandler s).pwm = s.pwm := rfl
@[simp] theorem leaveHandler_dreq (s : State) : (leaveHandler s).dreq = s.dreq := rfl
@[simp] theorem leaveHandler_handler (s : State) : (leaveHandler s).handler = { s.handler with active := false } := rfl
@[simp] theorem leaveHandler_pend (s : State) : (leaveHandler s).pend = s.pend := rfl
@[simp] theorem leaveHandler_dmaHist (s : State) : (leaveHandler s).dmaHist = s.dmaHist := rfl
@[simp] theorem leaveHandler_outHist (s : State) : (leaveHandler s).outHist = s.outHist := rfl
@[simp] theorem leaveHandler_inbox (s : State) : (leaveHandler s).inbox = s.inbox := rfl
@[simp] theorem leaveHandler_tick (s : State) : (leaveHandler s).tick = s.tick := rfl
@[simp] theorem leaveHandler_hostReads (s : State) : (leaveHandler s).hostReads = s.hostReads := rfl

/-! ### `handBack` -/

@[simp] theorem handBack_cfg (x : Chan) (l : LineIdx) (s : State) : (handBack x l s).cfg = s.cfg := rfl
@[simp] theorem handBack_scanIdx (x : Chan) (l : LineIdx) (s : State) : (handBack x l s).scanIdx = some (nextLine l) := rfl
@[simp] theorem handBack_cursor (x : Chan) (l : LineIdx) (s : State) : (handBack x l s).cursor = s.cursor := rfl
@[simp] theorem handBack_frameCount (x : Chan) (l : LineIdx) (s : State) : (handBack x l s).frameCount = s.frameCount := rfl
@[simp] theorem handBack_renderActive (x : Chan) (l : LineIdx) (s : State) : (handBack x l s).renderActive = s.renderActive := rfl
@[simp] theorem handBack_started (x : Chan) (l : LineIdx) (s : State) : (handBack x l s).started = s.started := rfl
@[simp] theorem handBack_fault (x : Chan) (l : LineIdx) (s : State) : (handBack x l s).fault = s.fault := rfl
@[simp] theorem handBack_refused (x : Chan) (l : LineIdx) (s : State) : (handBack x l s).refused = s.refused := rfl
@[simp] theorem handBack_mem (x : Chan) (l : LineIdx) (s : State) : (handBack x l s).mem = s.mem := rfl
@[simp] theorem handBack_intr (x : Chan) (l : LineIdx) (s : State) : (handBack x l s).intr = s.intr := rfl
@[simp] theorem handBack_inte (x : Chan) (l : LineIdx) (s : State) : (handBack x l s).inte = s.inte := rfl
@[simp] theorem handBack_pwm (x : Chan) (l : LineIdx) (s : State) : (handBack x l s).pwm = s.pwm := rfl
@[simp] theorem handBack_dreq (x : Chan) (l : LineIdx) (s : State) : (handBack x l s).dreq = s.dreq := rfl
@[simp] theorem handBack_handler (x : Chan) (l : LineIdx) (s : State) : (handBack x l s).handler = s.handler := rfl
@[simp] theorem handBack_pend (x : Chan) (l : LineIdx) (s : State) : (handBack x l s).pend = s.pend.set x false := rfl
@[simp] theorem handBack_dmaHist (x : Chan) (l : LineIdx) (s : State) : (handBack x l s).dmaHist = s.dmaHist := rfl
@[simp] theorem handBack_outHist (x : Chan) (l : LineIdx) (s : State) : (handBack x l s).outHist = s.outHist := rfl
@[simp] theorem handBack_inbox (x : Chan) (l : LineIdx) (s : State) : (handBack x l s).inbox = s.inbox := rfl
@[simp] theorem handBack_tick (x : Chan) (l : LineIdx) (s : State) : (handBack x l s).tick = s.tick := rfl
@[simp] theorem handBack_hostReads (x : Chan) (l : LineIdx) (s : State) : (handBack x l s).hostReads = s.hostReads := rfl

/-! ### `withAccess` -/

@[simp] theorem withAccess_cfg (s : State) (acc : Access) : (s.withAccess acc).cfg = s.cfg := rfl
@[simp] theorem withAccess_scanIdx (s : State) (acc : Access) : (s.withAccess acc).scanIdx = s.scanIdx := rfl
@[simp] theorem withAccess_cursor (s : State) (acc : Access) : (s.withAccess acc).cursor = s.cursor := rfl
@[simp] theorem withAccess_frameCount (s : State) (acc : Access) : (s.withAccess acc).frameCount = s.frameCount := rfl
@[simp] theorem withAccess_renderActive (s : State) (acc : Access) : (s.withAccess acc).renderActive = s.renderActive := rfl
@[simp] theorem withAccess_started (s : State) (acc : Access) : (s.withAccess acc).started = s.started := rfl
@[simp] theorem withAccess_fault (s : State) (acc : Access) : (s.withAccess acc).fault = s.fault := rfl
@[simp] theorem withAccess_refused (s : State) (acc : Access) : (s.withAccess acc).refused = s.refused := rfl
@[simp] theorem withAccess_mem (s : State) (acc : Access) : (s.withAccess acc).mem = s.mem := rfl
@[simp] theorem withAccess_dma (s : State) (acc : Access) : (s.withAccess acc).dma = s.dma := rfl
@[simp] theorem withAccess_intr (s : State) (acc : Access) : (s.withAccess acc).intr = s.intr := rfl
@[simp] theorem withAccess_inte (s : State) (acc : Access) : (s.withAccess acc).inte = s.inte := rfl
@[simp] theorem withAccess_pwm (s : State) (acc : Access) : (s.withAccess acc).pwm = s.pwm := rfl
@[simp] theorem withAccess_dreq (s : State) (acc : Access) : (s.withAccess acc).dreq = s.dreq := rfl
@[simp] theorem withAccess_handler (s : State) (acc : Access) : (s.withAccess acc).handler = s.handler := rfl
@[simp] theorem withAccess_pend (s : State) (acc : Access) : (s.withAccess acc).pend = s.pend := rfl
@[simp] theorem withAccess_dmaHist (s : State) (acc : Access) : (s.withAccess acc).dmaHist = s.dmaHist := rfl
@[simp] theorem withAccess_outHist (s : State) (acc : Access) : (s.withAccess acc).outHist = s.outHist := rfl
@[simp] theorem withAccess_inbox (s : State) (acc : Access) : (s.withAccess acc).inbox = acc :: s.inbox := rfl
@[simp] theorem withAccess_tick (s : State) (acc : Access) : (s.withAccess acc).tick = s.tick := rfl
@[simp] theorem withAccess_hostReads (s : State) (acc : Access) : (s.withAccess acc).hostReads = s.hostReads := rfl

/-! ### `advance` -/

@[simp] theorem advance_cfg (s : State) (box : List Access) : (s.advance box).cfg = s.cfg := rfl
@[simp] theorem advance_scanIdx (s : State) (box : List Access) : (s.advance box).scanIdx = s.scanIdx := rfl
@[simp] theorem advance_cursor (s : State) (box : List Access) : (s.advance box).cursor = s.cursor := rfl
@[simp] theorem advance_frameCount (s : State) (box : List Access) : (s.advance box).frameCount = s.frameCount := rfl
@[simp] theorem advance_renderActive (s : State) (box : List Access) : (s.advance box).renderActive = s.renderActive := rfl
@[simp] theorem advance_started (s : State) (box : List Access) : (s.advance box).started = s.started := rfl
@[simp] theorem advance_fault (s : State) (box : List Access) : (s.advance box).fault = s.fault := rfl
@[simp] theorem advance_refused (s : State) (box : List Access) : (s.advance box).refused = s.refused := rfl
@[simp] theorem advance_mem (s : State) (box : List Access) : (s.advance box).mem = s.mem := rfl
@[simp] theorem advance_dma (s : State) (box : List Access) : (s.advance box).dma = s.dma := rfl
@[simp] theorem advance_intr (s : State) (box : List Access) : (s.advance box).intr = s.intr := rfl
@[simp] theorem advance_inte (s : State) (box : List Access) : (s.advance box).inte = s.inte := rfl
@[simp] theorem advance_pwm (s : State) (box : List Access) : (s.advance box).pwm = s.pwm := rfl
@[simp] theorem advance_dreq (s : State) (box : List Access) : (s.advance box).dreq = s.dreq := rfl
@[simp] theorem advance_handler (s : State) (box : List Access) : (s.advance box).handler = s.handler := rfl
@[simp] theorem advance_pend (s : State) (box : List Access) : (s.advance box).pend = s.pend := rfl
@[simp] theorem advance_dmaHist (s : State) (box : List Access) : (s.advance box).dmaHist = s.dmaHist := rfl
@[simp] theorem advance_outHist (s : State) (box : List Access) : (s.advance box).outHist = s.outHist := rfl
@[simp] theorem advance_inbox (s : State) (box : List Access) : (s.advance box).inbox = box := rfl
@[simp] theorem advance_tick (s : State) (box : List Access) : (s.advance box).tick = s.tick + 1 := rfl
@[simp] theorem advance_hostReads (s : State) (box : List Access) : (s.advance box).hostReads = s.hostReads := rfl

/-! ### The channel registers after an update -/

@[simp] theorem configure_dma (x : Chan) (s : State) :
    (configure x s).dma.get x =
      { readAddr := some (s.cfg.bufBase x), writeAddr := some s.cfg.ccBAddr, countReload := some transferCount,
        count := 0, ctrl := some (ctrlValue s.cfg x), busy := false } := by
  simp [configure]

theorem configure_dma_ne {x y : Chan} (s : State) (h : y ≠ x) : (configure x s).dma.get y = s.dma.get y := by
  simp [configure, Pair.get_set_ne h]

@[simp] theorem moveSample_dma (s : State) (x : Chan) (a : Addr) (v : Sample) :
    (s.moveSample x a v).dma.get x =
      { s.dma.get x with readAddr := some (a + 2), count := (s.dma.get x).count - 1 } := by
  simp [State.moveSample]

@[simp] theorem moveSample_dma_peer (s : State) (x : Chan) (a : Addr) (v : Sample) :
    (s.moveSample x a v).dma.get x.peer = s.dma.get x.peer := by
  simp [State.moveSample]

@[simp] theorem handBack_dma (x : Chan) (l : LineIdx) (s : State) :
    (handBack x l s).dma.get x = { s.dma.get x with readAddr := some (s.cfg.bufBase x) } := by
  simp [handBack]

theorem handBack_dma_ne {x y : Chan} (l : LineIdx) (s : State) (h : y ≠ x) :
    (handBack x l s).dma.get y = s.dma.get y := by
  simp [handBack, Pair.get_set_ne h]

theorem enterHandler_intr (s : State) (x : Chan) :
    (enterHandler s).intr.get x = (s.intr.get x && !s.ints x) := by
  cases x <;> rfl

end Sys2Proof.Machine
end

