-- ==== Sys2Proof/Laws/Ops.lean ====
section
/-!
SUPPORT. What each shared operation can do, said once: ending a step, the pixels of a line, the generator, the trigger,
the completion and the transfer.
-/
namespace Sys2Proof.Machine

/-! ### Ending a step -/

/-- An enabled step of a machine without a fault is its body. -/
theorem whenEnabled_run {en : Bool} {s : State} {k : Result} (hf : s.fault = none) (he : en = true) :
    whenEnabled en s k = k := by
  simp [whenEnabled, hf, he]

theorem whenEnabled_next {en : Bool} {s t : State} {k : Result} :
    whenEnabled en s k = .next t ↔ s.fault = none ∧ en = true ∧ k = .next t := by
  unfold whenEnabled
  cases hf : s.fault <;> cases en <;> simp

theorem whenEnabled_fault {en : Bool} {s : State} {k : Result} {f : Fault} :
    whenEnabled en s k = .fault f ↔ s.fault = some f ∨ (s.fault = none ∧ en = true ∧ k = .fault f) := by
  unfold whenEnabled
  cases hf : s.fault <;> cases en <;> simp

theorem finish_next {r : Except Fault State} {t : State} : finish r = .next t ↔ r = .ok t := by
  cases r <;> simp [finish]

theorem finish_fault {r : Except Fault State} {f : Fault} : finish r = .fault f ↔ r = .error f := by
  cases r <;> simp [finish]

theorem bind_ok {r : Except Fault State} {k : State → Except Fault State} {t : State} :
    r.bind k = .ok t ↔ ∃ s, r = .ok s ∧ k s = .ok t := by
  cases r <;> simp [Except.bind]

theorem bind_error {r : Except Fault State} {k : State → Except Fault State} {f : Fault} :
    r.bind k = .error f ↔ r = .error f ∨ ∃ s, r = .ok s ∧ k s = .error f := by
  cases r <;> simp [Except.bind]

/-! ### Reads of the arrays -/

/-- A state update that keeps memory and parameters keeps every byte. -/
theorem byteAt_congr {s t : State} (hm : t.mem = s.mem) (hc : t.cfg = s.cfg) (a : Nat) : t.byteAt a = s.byteAt a := by
  simp [State.byteAt, hm, hc]

theorem buf_congr {s t : State} {x : Chan} {n : Nat} (hc : t.cfg = s.cfg)
    (h0 : t.byteAt ((s.cfg.bufBase x).toNat + 2 * n) = s.byteAt ((s.cfg.bufBase x).toNat + 2 * n))
    (h1 : t.byteAt ((s.cfg.bufBase x).toNat + 2 * n + 1) = s.byteAt ((s.cfg.bufBase x).toNat + 2 * n + 1)) :
    t.buf x n = s.buf x n := by
  unfold State.byteAt at h0 h1
  rw [hc] at h0 h1
  simp [State.buf, Memory.sample, hc, Memory.read2, h0, h1]

theorem pal_congr {s t : State} {j : Nat} (hc : t.cfg = s.cfg)
    (h0 : t.byteAt (s.cfg.palBase.toNat + 2 * j) = s.byteAt (s.cfg.palBase.toNat + 2 * j))
    (h1 : t.byteAt (s.cfg.palBase.toNat + 2 * j + 1) = s.byteAt (s.cfg.palBase.toNat + 2 * j + 1)) :
    t.pal j = s.pal j := by
  unfold State.byteAt at h0 h1
  rw [hc] at h0 h1
  simp [State.pal, Memory.sample, hc, Memory.read2, h0, h1]

/-! ### Constant lines -/

@[simp] theorem preeqSamples_length : preeqSamples.length = 908 := by
  simp only [preeqSamples, List.length_append, List.length_replicate]
  rfl

@[simp] theorem vsyncSamples_length : vsyncSamples.length = 908 := by
  simp only [vsyncSamples, burst, List.length_append, List.length_replicate, List.length_flatten, List.map_replicate,
    List.length_cons, List.length_nil, List.sum_replicate]
  rfl

@[simp] theorem bottomSamples_length : bottomSamples.length = 640 := by
  simp only [bottomSamples, List.length_replicate]

/-! ### Pixels -/

theorem pixelWords_eq_some {cfg : Config} {m : Memory} {cur : Nat} {n k : Nat} {ws : List (BitVec 32)} :
    pixelWords cfg m cur k n = some ws ↔
      ∃ h : ws.length = n, ∀ i (hi : i < n), pixelWord cfg m cur (k + i) = some (ws[i]'(h ▸ hi)) := by
  induction n generalizing k ws with
  | zero => cases ws <;> simp [pixelWords]
  | succ n ih =>
    unfold pixelWords
    cases hw : pixelWord cfg m cur k with
    | none =>
      simp only [reduceCtorEq, false_iff, not_exists]
      intro h hall
      have := hall 0 (by omega)
      simp [hw] at this
    | some w =>
      cases hr : pixelWords cfg m cur (k + 1) n with
      | none =>
        simp only [reduceCtorEq, false_iff, not_exists]
        intro h hall
        cases ws with
        | nil => simp at h
        | cons v vs =>
          have hvs : pixelWords cfg m cur (k + 1) n = some vs := ih.mpr ⟨by simpa using h, fun i hi => by
            have := hall (i + 1) (by omega)
            simpa [Nat.add_assoc, Nat.add_comm 1 i] using this⟩
          simp [hr] at hvs
      | some vs =>
        have hvs := ih.mp hr
        constructor
        · intro heq
          obtain rfl : w :: vs = ws := by simpa using heq
          obtain ⟨hl, hall⟩ := hvs
          refine ⟨by simp [hl], fun i hi => ?_⟩
          cases i with
          | zero => simpa using hw
          | succ i =>
            have := hall i (by omega)
            simpa [Nat.add_assoc, Nat.add_comm 1 i] using this
        · rintro ⟨h, hall⟩
          cases ws with
          | nil => simp at h
          | cons u us =>
            have h0 := hall 0 (by omega)
            have hu : w = u := by simpa [hw] using h0
            have hus : pixelWords cfg m cur (k + 1) n = some us := ih.mpr ⟨by simpa using h, fun i hi => by
              have := hall (i + 1) (by omega)
              simpa [Nat.add_assoc, Nat.add_comm 1 i] using this⟩
            have : vs = us := by simpa [hr] using hus
            simp [hu, this]

/-- The pairs of a line fail exactly at a pixel that names an UNWRITTEN sample. -/
theorem pixelWords_eq_none {cfg : Config} {m : Memory} {cur n k : Nat} :
    pixelWords cfg m cur k n = none ↔ ∃ i < n, pixelWord cfg m cur (k + i) = none := by
  induction n generalizing k with
  | zero => simp [pixelWords]
  | succ n ih =>
    unfold pixelWords
    cases hw : pixelWord cfg m cur k with
    | none => exact ⟨fun _ => ⟨0, by omega, by simpa using hw⟩, fun _ => rfl⟩
    | some w =>
      cases hr : pixelWords cfg m cur (k + 1) n with
      | none =>
        obtain ⟨i, hi, h⟩ := ih.mp hr
        exact ⟨fun _ => ⟨i + 1, by omega, by rwa [show k + (i + 1) = k + 1 + i by omega]⟩, fun _ => rfl⟩
      | some ws =>
        simp only [reduceCtorEq, false_iff, not_exists, not_and]
        intro i hi h
        cases i with
        | zero => simp [hw] at h
        | succ i =>
          have : pixelWords cfg m cur (k + 1) n = none :=
            ih.mpr ⟨i, by omega, by rwa [show k + 1 + i = k + (i + 1) by omega]⟩
          simp [hr] at this

/-! ### The colour encoder -/

theorem phaseSample_le {q : Fin 4} {y : Nat} {db dr : Int} (h : numerator q y db dr < 786432) :
    phaseSample q y db dr ≤ 11 := by
  unfold phaseSample
  split <;> omega

/-- No colour has a sample above the largest level (R107). -/
theorem encodePhase_le (q : Fin 4) (red green blue : Byte) : encodePhase q red green blue ≤ 11 := by
  have hr := red.isLt
  have hg := green.isLt
  have hb := blue.isLt
  have hy : luma red green blue = (77 * red.toNat + 150 * green.toNat + 29 * blue.toNat + 128) / 256 := rfl
  refine phaseSample_le ?_
  match q with
  | 0 | 1 | 2 | 3 => simp only [numerator]; omega

/-- PAL_WRITE's range check never fails (R107). -/
theorem encodeColour_in_range (red green blue : Byte) :
    (encodeColour red green blue).any (fun v => decide (maxLevel < v)) = false := by
  simp [encodeColour, Nat.not_lt.mpr (encodePhase_le _ _ _ _)]

/-! ### The generator -/

/-- Only the buffer, the cursor and the two diagnostics can differ after a generator operation (R87). -/
structure OnlyGenerated (s t : State) : Prop where
  rest : t = { s with mem := t.mem, cursor := t.cursor, frameCount := t.frameCount, renderActive := t.renderActive }

theorem onlyGenerated_linePreeq (x : Chan) (s : State) : OnlyGenerated s (linePreeq x s) := ⟨rfl⟩

theorem onlyGenerated_lineVsync (x : Chan) (s : State) : OnlyGenerated s (lineVsync x s) := ⟨rfl⟩

theorem onlyGenerated_lineBottom (x : Chan) (idx : LineIdx) (s : State) : OnlyGenerated s (lineBottom x idx s) := ⟨rfl⟩

theorem onlyGenerated_lineNowrite (s : State) : OnlyGenerated s (lineNowrite s) := ⟨rfl⟩

/-- An active line that completes: its cursor, its pairs, its stores (R90). -/
theorem lineActive_ok {x : Chan} {idx : LineIdx} {s t : State} :
    lineActive x idx s = .ok t ↔
      ∃ cur ws, lineCursor idx s = some cur ∧ cur.toNat + 320 ≤ 76800 ∧
        pixelWords s.cfg s.mem cur.toNat 0 320 = some ws ∧
        t = markRender true (s.storePixels x cur ws) := by
  unfold lineActive
  cases hc : lineCursor idx s with
  | none => simp
  | some cur =>
    by_cases hr : fbBytes < cur.toNat + fbWidth
    · simp only [hr, if_true, reduceCtorEq, false_iff]
      rintro ⟨c, ws, h, h2, -⟩
      cases h
      simp only [fbBytes, fbWidth] at hr
      omega
    · have hle : cur.toNat + 320 ≤ 76800 := by simp only [fbBytes, fbWidth] at hr; omega
      simp only [hr, if_false]
      cases hp : pixelWords s.cfg s.mem cur.toNat 0 fbWidth with
      | none => simp [show pixelWords s.cfg s.mem cur.toNat 0 320 = none from hp]
      | some ws => simp [show pixelWords s.cfg s.mem cur.toNat 0 320 = some ws from hp, eq_comm, show cur.toNat ≤ 76480 by omega]

/-- How an active line can fail (R155). -/
theorem lineActive_error {x : Chan} {idx : LineIdx} {s : State} {f : Fault} (h : lineActive x idx s = .error f) :
    (f = .cursor ∧ lineCursor idx s = none) ∨
    (∃ cur, lineCursor idx s = some cur ∧
      ((f = .fbRange ∧ 76800 < cur.toNat + 320) ∨
        (f = .palUnwritten ∧ pixelWords s.cfg s.mem cur.toNat 0 320 = none))) := by
  unfold lineActive at h
  cases hc : lineCursor idx s with
  | none => simp [hc] at h; exact .inl ⟨h.symm, rfl⟩
  | some cur =>
    simp only [hc] at h
    by_cases hr : fbBytes < cur.toNat + fbWidth
    · simp [hr] at h; exact .inr ⟨cur, rfl, .inl ⟨h.symm, hr⟩⟩
    · simp only [hr, if_false] at h
      cases hp : pixelWords s.cfg s.mem cur.toNat 0 fbWidth with
      | none => simp [hp] at h; exact .inr ⟨cur, rfl, .inr ⟨h.symm, hp⟩⟩
      | some ws => simp [hp] at h

theorem onlyGenerated_lineActive {x : Chan} {idx : LineIdx} {s t : State} (h : lineActive x idx s = .ok t) :
    OnlyGenerated s t := by
  obtain ⟨cur, ws, -, -, -, rfl⟩ := lineActive_ok.mp h
  exact ⟨rfl⟩

/-- The generator on a line of a region other than ACTIVE never fails (R88, R89, R91, R92). -/
theorem generate_cases {x : Chan} {idx : LineIdx} {s t : State} (h : generate x idx s = .ok t) :
    (classify idx = .preeq ∧ t = linePreeq x s) ∨ (classify idx = .vsync ∧ t = lineVsync x s) ∨
    (classify idx = .active ∧ lineActive x idx s = .ok t) ∨ (classify idx = .bottom ∧ t = lineBottom x idx s) ∨
    (classify idx = .nowrite ∧ t = lineNowrite s) := by
  unfold generate at h
  cases hc : classify idx <;> simp_all

theorem generate_onlyGenerated {x : Chan} {idx : LineIdx} {s t : State} (h : generate x idx s = .ok t) :
    OnlyGenerated s t := by
  rcases generate_cases h with ⟨-, rfl⟩ | ⟨-, rfl⟩ | ⟨-, h⟩ | ⟨-, rfl⟩ | ⟨-, rfl⟩
  · exact onlyGenerated_linePreeq x s
  · exact onlyGenerated_lineVsync x s
  · exact onlyGenerated_lineActive h
  · exact onlyGenerated_lineBottom x idx s
  · exact onlyGenerated_lineNowrite s

/-- Every store of the generator lies in the buffer it was called for (R94). -/
theorem generate_writes {x : Chan} {idx : LineIdx} {s t : State} (h : generate x idx s = .ok t) :
    t.mem = s.mem ∨ ∃ n bytes, 2 * n + bytes.length ≤ 1816 ∧
      t.mem = Memory.writeBytes s.cfg s.mem ((s.cfg.bufBase x).toNat + 2 * n) bytes := by
  rcases generate_cases h with ⟨-, rfl⟩ | ⟨-, rfl⟩ | ⟨-, h⟩ | ⟨-, rfl⟩ | ⟨-, rfl⟩
  · exact .inr ⟨0, preeqSamples.flatMap sampleBytes, by rw [flatMap_sampleBytes_length, preeqSamples_length], rfl⟩
  · exact .inr ⟨0, vsyncSamples.flatMap sampleBytes, by rw [flatMap_sampleBytes_length, vsyncSamples_length], rfl⟩
  · obtain ⟨cur, ws, -, -, hw, rfl⟩ := lineActive_ok.mp h
    have hl := (pixelWords_eq_some.mp hw).1
    exact .inr ⟨activeStart, ws.flatMap wordBytes, by rw [flatMap_wordBytes_length, hl]; decide, rfl⟩
  · exact .inr ⟨activeStart, bottomSamples.flatMap sampleBytes, by rw [flatMap_sampleBytes_length, bottomSamples_length]; decide, rfl⟩
  · exact .inl rfl

/-- A byte outside the buffer reads as before a generator operation (R94). -/
theorem generate_byteAt {x : Chan} {idx : LineIdx} {s t : State} (h : generate x idx s = .ok t) {a : Nat}
    (ha : a < (s.cfg.bufBase x).toNat ∨ (s.cfg.bufBase x).toNat + 1816 ≤ a) : t.byteAt a = s.byteAt a := by
  have hc : t.cfg = s.cfg := by rw [(generate_onlyGenerated h).rest]
  rcases generate_writes h with hm | ⟨n, bytes, hn, hm⟩
  · exact byteAt_congr hm hc a
  · simp only [State.byteAt, hm, hc]
    exact read1_writeBytes_outside (by omega)

theorem generate_wf {x : Chan} {idx : LineIdx} {s t : State} (h : generate x idx s = .ok t)
    (hw : Memory.wf s.cfg s.mem) : Memory.wf t.cfg t.mem := by
  have hc : t.cfg = s.cfg := by rw [(generate_onlyGenerated h).rest]
  rcases generate_writes h with hm | ⟨n, bytes, -, hm⟩
  · rw [hm, hc]; exact hw
  · rw [hm, hc]; exact writeBytes_wf hw _ _

/-- Outside ACTIVE the generator leaves the cursor alone (R93). -/
theorem generate_cursor {x : Chan} {idx : LineIdx} {s t : State} (h : generate x idx s = .ok t)
    (ha : classify idx ≠ .active) : t.cursor = s.cursor := by
  rcases generate_cases h with ⟨-, rfl⟩ | ⟨-, rfl⟩ | ⟨h', -⟩ | ⟨-, rfl⟩ | ⟨-, rfl⟩ <;> first | rfl | exact absurd h' ha

/-- The generator faults only on an active line (R88, R89, R91, R92). -/
theorem generate_error {x : Chan} {idx : LineIdx} {s : State} {f : Fault} (h : generate x idx s = .error f) :
    lineActive x idx s = .error f ∧ classify idx = .active := by
  unfold generate at h
  cases hc : classify idx <;> simp_all

/-! ### The transport -/

/-- A trigger completes exactly for a channel that is not busy and whose buffer has been handed back (R115). -/
theorem trigger_ok {y : Chan} {s t : State} :
    trigger y s = .ok t ↔ (s.dma.get y).busy = false ∧ s.pend.get y = false ∧
      t = { s with dma := s.dma.set y { s.dma.get y with busy := true, count := s.reloadValue y } } := by
  unfold trigger
  cases (s.dma.get y).busy <;> cases s.pend.get y <;> simp [eq_comm]

theorem trigger_error {y : Chan} {s : State} {f : Fault} :
    trigger y s = .error f ↔
      (f = .internal ∧ (s.dma.get y).busy = true) ∨
      (f = .deadline ∧ (s.dma.get y).busy = false ∧ s.pend.get y = true) := by
  unfold trigger
  cases (s.dma.get y).busy <;> cases s.pend.get y <;> simp [eq_comm]

/-- What the end of a run does before it triggers the peer (R117). -/
def runOver (x : Chan) (s : State) : State :=
  { s with
    dma := s.dma.set x { s.dma.get x with busy := false }
    intr := s.intr.set x true
    pend := s.pend.set x true }

theorem completeRun_eq (x : Chan) (s : State) : completeRun x s = trigger x.peer (runOver x s) := rfl

/-- A transfer that completes: its address, its sample, and whether the run goes on (R116). -/
theorem transfer_ok {x : Chan} {s t : State} (h : transfer x s = .ok t) :
    ∃ addr v, (s.dma.get x).readAddr = some addr ∧ inOwnBuf s.cfg x addr = true ∧
      Memory.read2 s.cfg s.mem addr.toNat = some v ∧
      (((s.dma.get x).count - 1 ≠ 0 ∧ t = s.moveSample x addr v) ∨
        ((s.dma.get x).count - 1 = 0 ∧ completeRun x (s.moveSample x addr v) = .ok t)) := by
  unfold transfer at h
  cases ha : (s.dma.get x).readAddr with
  | none => simp [ha] at h
  | some addr =>
    simp only [ha] at h
    by_cases hi : inOwnBuf s.cfg x addr = false
    · simp [hi] at h
    · simp only [hi] at h
      cases hv : Memory.read2 s.cfg s.mem addr.toNat with
      | none => simp [hv] at h
      | some v =>
        simp only [hv, moveSample_dma] at h
        refine ⟨addr, v, rfl, by simpa using hi, hv, ?_⟩
        by_cases hc : (s.dma.get x).count - 1 = 0
        · rw [if_pos hc] at h
          exact .inr ⟨hc, h⟩
        · rw [if_neg hc] at h
          exact .inl ⟨hc, by cases h; rfl⟩

/-- How a transfer can fail (R116, R155). -/
theorem transfer_error {x : Chan} {s : State} {f : Fault} (h : transfer x s = .error f) :
   (f = .staleRead ∧ ∀ addr, (s.dma.get x).readAddr = some addr → inOwnBuf s.cfg x addr = false) ∨
   (f = .bufUnwritten ∧ ∃ addr, (s.dma.get x).readAddr = some addr ∧ Memory.read2 s.cfg s.mem addr.toNat = none) ∨
   ∃ addr v, (s.dma.get x).readAddr = some addr ∧ (s.dma.get x).count - 1 = 0 ∧ completeRun x (s.moveSample x addr v) = .error f := by
  unfold transfer at h
  cases ha : (s.dma.get x).readAddr with
  | none => simp [ha] at h; left; exact ⟨h.symm, by simp⟩
  | some addr =>
    simp only [ha] at h
    by_cases hi : inOwnBuf s.cfg x addr = false
    · simp [hi] at h; left; exact ⟨h.symm, by simpa using hi⟩
    · simp only [hi] at h
      cases hv : Memory.read2 s.cfg s.mem addr.toNat with
      | none => simp [hv] at h; right; left; exact ⟨h.symm, addr, rfl, hv⟩
      | some v =>
        simp only [hv, moveSample_dma] at h
        by_cases hc : (s.dma.get x).count - 1 = 0
        · rw [if_pos hc] at h
          exact .inr (.inr ⟨addr, v, rfl, hc, h⟩)
        · rw [if_neg hc] at h; cases h

end Sys2Proof.Machine
end

