-- ==== Sys2Proof/Laws/Step.lean ====
section
/-!
SUPPORT. What one operation and one step can do, said once: every next state of `exec` by its effect, every next state of
`step`, and every fault of `step`.
-/
namespace Sys2Proof.Machine

/-- START's state before the trigger of channel A (R144): lines 0 and 1 are pre-equalizing lines. -/
def startBuilt (s : State) : State := startEnabled (linePreeq .b (linePreeq .a (startConfigured s)))

/-! ### START's state before its trigger -/

@[simp] theorem startBuilt_cfg (s : State) : (startBuilt s).cfg = s.cfg := by
  simp only [startBuilt, startEnabled_cfg, linePreeq_cfg]; rfl
@[simp] theorem startBuilt_cursor (s : State) : (startBuilt s).cursor = s.cursor := by
  simp only [startBuilt, startEnabled_cursor, linePreeq_cursor]; rfl
@[simp] theorem startBuilt_frameCount (s : State) : (startBuilt s).frameCount = s.frameCount := by
  simp only [startBuilt, startEnabled_frameCount, linePreeq_frameCount]; rfl
@[simp] theorem startBuilt_fault (s : State) : (startBuilt s).fault = s.fault := by
  simp only [startBuilt, startEnabled_fault, linePreeq_fault]; rfl
@[simp] theorem startBuilt_refused (s : State) : (startBuilt s).refused = s.refused := by
  simp only [startBuilt, startEnabled_refused, linePreeq_refused]; rfl
@[simp] theorem startBuilt_handler (s : State) : (startBuilt s).handler = s.handler := by
  simp only [startBuilt, startEnabled_handler, linePreeq_handler]; rfl
@[simp] theorem startBuilt_pend (s : State) : (startBuilt s).pend = s.pend := by
  simp only [startBuilt, startEnabled_pend, linePreeq_pend]; rfl
@[simp] theorem startBuilt_dmaHist (s : State) : (startBuilt s).dmaHist = s.dmaHist := by
  simp only [startBuilt, startEnabled_dmaHist, linePreeq_dmaHist]; rfl
@[simp] theorem startBuilt_outHist (s : State) : (startBuilt s).outHist = s.outHist := by
  simp only [startBuilt, startEnabled_outHist, linePreeq_outHist]; rfl
@[simp] theorem startBuilt_inbox (s : State) : (startBuilt s).inbox = s.inbox := by
  simp only [startBuilt, startEnabled_inbox, linePreeq_inbox]; rfl
@[simp] theorem startBuilt_tick (s : State) : (startBuilt s).tick = s.tick := by
  simp only [startBuilt, startEnabled_tick, linePreeq_tick]; rfl
@[simp] theorem startBuilt_hostReads (s : State) : (startBuilt s).hostReads = s.hostReads := by
  simp only [startBuilt, startEnabled_hostReads, linePreeq_hostReads]; rfl
@[simp] theorem startBuilt_scanIdx (s : State) : (startBuilt s).scanIdx = some 2 := by
  simp only [startBuilt, startEnabled_scanIdx]
@[simp] theorem startBuilt_started (s : State) : (startBuilt s).started = true := by
  simp only [startBuilt, startEnabled_started]
@[simp] theorem startBuilt_intr (s : State) : (startBuilt s).intr = ⟨false, false⟩ := by
  simp only [startBuilt, startEnabled_intr]
@[simp] theorem startBuilt_inte (s : State) : (startBuilt s).inte = ⟨true, true⟩ := by
  simp only [startBuilt, startEnabled_inte]
@[simp] theorem startBuilt_dreq (s : State) : (startBuilt s).dreq = 0 := by
  simp only [startBuilt, startEnabled_dreq]
@[simp] theorem startBuilt_pwm (s : State) :
    (startBuilt s).pwm = { s.pwm with en := true, div := some pwmDiv, top := some pwmTop, ccB := 0, cmpB := 0 } := by
  simp only [startBuilt, startEnabled_pwm, linePreeq_pwm]; rfl
@[simp] theorem startBuilt_dma (s : State) (x : Chan) :
    (startBuilt s).dma.get x =
      { readAddr := some (s.cfg.bufBase x), writeAddr := some s.cfg.ccBAddr, countReload := some transferCount,
        count := 0, ctrl := some (ctrlValue s.cfg x), busy := false } := by
  simp only [startBuilt, startEnabled_dma, linePreeq_dma]; cases x <;> rfl

theorem execStart_eq {s : State} (hf : s.fault = none) (hs : s.started = false)
    (hc : s.cfg.sysClkHz = sysClkHzRequired) (hd : ¬s.cfg.freeDmaChannels.val < 2) :
    execStart s = finish (trigger .a (startBuilt s)) := by
  rw [execStart, whenEnabled_run hf rfl, if_neg (by simp [hs]), if_neg (by simp [hc]), if_neg hd]
  rfl

/-- What an operation does when it completes. -/
def Effect (i : Instr) (s t : State) : Prop :=
  match i with
  | .palWrite index blue red green =>
    s.started = false ∧ t = { s with
      mem := Memory.writeSamples s.cfg s.mem s.cfg.palBase (4 * index.toNat)
        ((encodeColour red green blue).map (BitVec.ofNat 16)) }
  | .start =>
    s.started = false ∧ s.cfg.sysClkHz = sysClkHzRequired ∧ 2 ≤ s.cfg.freeDmaChannels.val ∧
      trigger .a (startBuilt s) = .ok t
  | .rdFrameCount => t = { s with hostReads := s.hostReads ++ [s.frameCount] } ∨ t = { s with refused := true }
  | .rdRenderActive =>
    t = { s with hostReads := s.hostReads ++ [(BitVec.ofBool s.renderActive).setWidth 32] } ∨
      t = { s with refused := true }
  | .pwmWrap =>
    pwmWrapEnabled s = true ∧ t = { s with
      pwm := { s.pwm with cmpB := s.pwm.ccB }, outHist := s.outHist ++ [s.pwm.ccB], dreq := s.dreq + 1 }
  | .dmaXfer x => dmaXferEnabled x s = true ∧ transfer x s = .ok t
  | .dmaComplete x => completeRun x s = .ok t
  | .irqEntry => irqEntryEnabled s = true ∧ t = enterHandler s
  | .irqService => s.handler.active = true ∧ ∃ x rest, s.handler.todo = x :: rest ∧ service x rest s = .ok t
  | .irqReturn => s.handler.active = true ∧ s.handler.todo = [] ∧ t = leaveHandler s
  | .fbWrite offset byte =>
    (offset.toNat < 76800 ∧
      t = { s with mem := Memory.writeBytes s.cfg s.mem (s.cfg.fbBase.toNat + offset.toNat) [byte] }) ∨
      t = { s with refused := true }
  | .genTest x idx => (s.started = true ∧ t = { s with refused := true }) ∨
      (s.started = false ∧ generate x idx s = .ok t)
  | .genPreeq x _ => t = linePreeq x s
  | .genVsync x _ => t = lineVsync x s
  | .genActive x idx => lineActive x idx s = .ok t
  | .genBottom x idx => t = lineBottom x idx s
  | .genNowrite _ _ => t = lineNowrite s

/-- Every next state of `exec` is the operation's effect. -/
theorem exec_effect {i : Instr} {s t : State} (h : exec i s = .next t) : s.fault = none ∧ Effect i s t := by
  cases i with
  | palWrite index blue red green =>
    obtain ⟨hf, -, h⟩ := whenEnabled_next.mp h
    refine ⟨hf, ?_⟩
    by_cases hs : s.started = true
    · simp [hs] at h
    · rw [if_neg hs] at h
      split at h
      · simp at h
      · exact ⟨by simpa using hs, by simpa [eq_comm] using h⟩
  | start =>
    have hf : s.fault = none := (whenEnabled_next.mp h).1
    obtain ⟨-, -, hb⟩ := whenEnabled_next.mp h
    by_cases hs : s.started = true
    · simp [hs] at hb
    · by_cases hc : s.cfg.sysClkHz = sysClkHzRequired
      · by_cases hd : s.cfg.freeDmaChannels.val < 2
        · rw [if_neg hs, if_neg (by simp [hc]), if_pos hd] at hb
          simp at hb
        · have h' : execStart s = .next t := h
          rw [execStart_eq hf (by simpa using hs) hc hd, finish_next] at h'
          exact ⟨hf, by simpa using hs, hc, by omega, h'⟩
      · rw [if_neg hs, if_pos hc] at hb
        simp at hb
  | rdFrameCount =>
    obtain ⟨hf, -, h⟩ := whenEnabled_next.mp h
    refine ⟨hf, ?_⟩
    split at h
    · exact .inl (by simpa [eq_comm] using h)
    · exact .inr (by simpa [refuse, State.markRefused, eq_comm] using h)
  | rdRenderActive =>
    obtain ⟨hf, -, h⟩ := whenEnabled_next.mp h
    refine ⟨hf, ?_⟩
    split at h
    · exact .inl (by simpa [eq_comm] using h)
    · exact .inr (by simpa [refuse, State.markRefused, eq_comm] using h)
  | pwmWrap =>
    obtain ⟨hf, he, h⟩ := whenEnabled_next.mp h
    exact ⟨hf, he, by simpa [eq_comm] using h⟩
  | dmaXfer x =>
    obtain ⟨hf, he, h⟩ := whenEnabled_next.mp h
    exact ⟨hf, he, finish_next.mp h⟩
  | dmaComplete x =>
    obtain ⟨hf, -, h⟩ := whenEnabled_next.mp h
    exact ⟨hf, finish_next.mp h⟩
  | irqEntry =>
    obtain ⟨hf, he, h⟩ := whenEnabled_next.mp h
    exact ⟨hf, he, by simpa [eq_comm] using h⟩
  | irqService =>
    obtain ⟨hf, he, h⟩ := whenEnabled_next.mp h
    simp only [irqServiceEnabled, Bool.and_eq_true] at he
    cases ht : s.handler.todo with
    | nil => simp [ht] at h
    | cons x rest => exact ⟨hf, he.1, x, rest, ht, finish_next.mp (by simpa [ht] using h)⟩
  | irqReturn =>
    obtain ⟨hf, he, h⟩ := whenEnabled_next.mp h
    simp only [irqReturnEnabled, Bool.and_eq_true, List.isEmpty_iff] at he
    exact ⟨hf, he.1, he.2, by simpa [eq_comm] using h⟩
  | fbWrite offset byte =>
    obtain ⟨hf, -, h⟩ := whenEnabled_next.mp h
    refine ⟨hf, ?_⟩
    split at h
    · exact .inr (by simpa [refuse, State.markRefused, eq_comm] using h)
    · rename_i ho
      exact .inl ⟨by simp only [fbBytes] at ho; omega, by simpa [eq_comm] using h⟩
  | genTest x idx =>
    obtain ⟨hf, -, h⟩ := whenEnabled_next.mp h
    refine ⟨hf, ?_⟩
    by_cases hs : s.started = true
    · rw [if_pos hs] at h
      exact .inl ⟨hs, by simpa [refuse, State.markRefused, eq_comm] using h⟩
    · rw [if_neg hs] at h
      exact .inr ⟨by simpa using hs, finish_next.mp h⟩
  | genPreeq x idx =>
    obtain ⟨hf, -, h⟩ := whenEnabled_next.mp h
    exact ⟨hf, by simpa [Effect, eq_comm] using h⟩
  | genVsync x idx =>
    obtain ⟨hf, -, h⟩ := whenEnabled_next.mp h
    exact ⟨hf, by simpa [Effect, eq_comm] using h⟩
  | genActive x idx =>
    obtain ⟨hf, -, h⟩ := whenEnabled_next.mp h
    exact ⟨hf, finish_next.mp h⟩
  | genBottom x idx =>
    obtain ⟨hf, -, h⟩ := whenEnabled_next.mp h
    exact ⟨hf, by simpa [Effect, eq_comm] using h⟩
  | genNowrite x idx =>
    obtain ⟨hf, -, h⟩ := whenEnabled_next.mp h
    exact ⟨hf, by simpa [Effect, eq_comm] using h⟩

/-- The next state of a presented access: the mark set, or the effect of the operation it decodes to. -/
theorem present_next {acc : Access} {s t : State} (h : present acc s = .next t) :
    t = { s with refused := true } ∨ ∃ i, decode acc = .ok i ∧ schedulable i s = true ∧ exec i s = .next t := by
  unfold present at h
  cases hd : decode acc with
  | error e => rw [hd] at h; exact .inl (by simpa [refuse, State.markRefused, eq_comm] using h)
  | ok i =>
    simp only [hd] at h
    by_cases hs : schedulable i s = true
    · rw [if_pos hs] at h
      exact .inr ⟨i, rfl, hs, h⟩
    · rw [if_neg hs] at h
      exact .inl (by simpa [refuse, State.markRefused, eq_comm] using h)

theorem present_fault {acc : Access} {s : State} {f : Fault} (h : present acc s = .fault f) :
    ∃ i, decode acc = .ok i ∧ schedulable i s = true ∧ exec i s = .fault f := by
  unfold present at h
  cases hd : decode acc with
  | error e => rw [hd] at h; simp [refuse] at h
  | ok i =>
    simp only [hd] at h
    by_cases hs : schedulable i s = true
    · rw [if_pos hs] at h
      exact ⟨i, rfl, hs, h⟩
    · rw [if_neg hs] at h
      simp [refuse] at h

theorem step_of_cons {s : State} {acc : Access} {rest : List Access} (hf : s.fault = none)
    (hb : s.inbox = acc :: rest) : step s = present acc (s.advance rest) := by
  simp [step, stepOf, hf, takeAccess, hb]

theorem step_of_nil {s : State} (hf : s.fault = none) (hb : s.inbox = []) :
    step s = presentFree (Config.freeAccess s.tick) (s.advance []) := by
  simp [step, stepOf, hf, takeAccess, hb]

theorem step_of_fault {s : State} {f : Fault} (hf : s.fault = some f) : step s = .fault f := by
  simp [step, stepOf, hf]

/-- The step of an access placed first in the schedule is that access presented. -/
theorem step_withAccess {s : State} {acc : Access} (hf : s.fault = none) :
    step (s.withAccess acc) = present acc (s.advance s.inbox) :=
  step_of_cons (s := s.withAccess acc) hf rfl

/-- Every next state of `step`: the schedule and the index of the free values have moved on, and then nothing more, the
mark, or one operation's effect. -/
theorem step_next {s t : State} (h : step s = .next t) :
    s.fault = none ∧ ∃ box, t = s.advance box ∨ t = { s.advance box with refused := true } ∨
      ∃ i, schedulable i (s.advance box) = true ∧ exec i (s.advance box) = .next t := by
  by_cases hf : s.fault = none
  · refine ⟨hf, ?_⟩
    have of_present {acc : Access} {box : List Access} (hp : present acc (s.advance box) = .next t) :
        t = { s.advance box with refused := true } ∨
          ∃ i, schedulable i (s.advance box) = true ∧ exec i (s.advance box) = .next t := by
      rcases present_next hp with h | ⟨i, -, hs, hx⟩
      · exact .inl h
      · exact .inr ⟨i, hs, hx⟩
    cases hb : s.inbox with
    | cons acc rest =>
      rw [step_of_cons hf hb] at h
      exact ⟨rest, .inr (of_present h)⟩
    | nil =>
      rw [step_of_nil hf hb, presentFree] at h
      split at h
      · exact ⟨[], .inr (of_present h)⟩
      · exact ⟨[], .inl (by cases h; rfl)⟩
  · obtain ⟨f, hf⟩ := Option.ne_none_iff_exists'.mp hf
    simp [step_of_fault hf] at h

/-- Every fault of `step`: the one the machine already has, or that of one operation. -/
theorem step_fault {s : State} {f : Fault} (h : step s = .fault f) :
    s.fault = some f ∨ (s.fault = none ∧ ∃ box i, schedulable i (s.advance box) = true ∧
      exec i (s.advance box) = .fault f) := by
  by_cases hf : s.fault = none
  · refine .inr ⟨hf, ?_⟩
    have of_present {acc : Access} {box : List Access} (hp : present acc (s.advance box) = .fault f) :
        ∃ i, schedulable i (s.advance box) = true ∧ exec i (s.advance box) = .fault f := by
      obtain ⟨i, -, hs, hx⟩ := present_fault hp
      exact ⟨i, hs, hx⟩
    cases hb : s.inbox with
    | cons acc rest =>
      rw [step_of_cons hf hb] at h
      exact ⟨rest, of_present h⟩
    | nil =>
      rw [step_of_nil hf hb, presentFree] at h
      split at h
      · exact ⟨[], of_present h⟩
      · simp at h
  · obtain ⟨g, hg⟩ := Option.ne_none_iff_exists'.mp hf
    rw [step_of_fault hg] at h
    exact .inl (by cases h; exact hg)

/-- What makes an operation of a machine without a fault raise `f` (R153, R155). -/
def FaultCause (i : Instr) (s : State) (f : Fault) : Prop :=
  match i with
  | .palWrite _ _ _ _ => s.started = true ∧ f = .palAfterStart
  | .start =>
    (s.started = true ∧ f = .startTwice) ∨
      (s.started = false ∧ (f = .clock ∨ f = .dmaAlloc ∨ (f = .deadline ∧ s.pend.a = true)))
  | .rdFrameCount => False
  | .rdRenderActive => False
  | .pwmWrap => False
  | .dmaXfer x => dmaXferEnabled x s = true ∧ transfer x s = .error f
  | .dmaComplete x => completeRun x s = .error f
  | .irqEntry => False
  | .irqService =>
    s.handler.active = true ∧ ∃ x rest, s.handler.todo = x :: rest ∧
      lineActive x s.lineToMake { s with handler := { s.handler with todo := rest } } = .error f
  | .irqReturn => False
  | .fbWrite _ _ => False
  | .genTest x idx => s.started = false ∧ lineActive x idx s = .error f
  | .genPreeq _ _ => False
  | .genVsync _ _ => False
  | .genActive x idx => lineActive x idx s = .error f
  | .genBottom _ _ => False
  | .genNowrite _ _ => False

/-- Every fault of `exec` has its cause. -/
theorem exec_fault {i : Instr} {s : State} {f : Fault} (hf : s.fault = none) (h : exec i s = .fault f) :
    FaultCause i s f := by
  have body {en : Bool} {k : Result} (h : whenEnabled en s k = .fault f) : en = true ∧ k = .fault f := by
    rcases whenEnabled_fault.mp h with h | h
    · rw [hf] at h; cases h
    · exact h.2
  cases i with
  | palWrite index blue red green =>
    obtain ⟨-, h⟩ := body h
    split at h
    · exact ⟨by assumption, by simpa using h.symm⟩
    · simp [encodeColour_in_range] at h
  | start =>
    obtain ⟨-, h⟩ := body h
    by_cases h1 : s.started = true
    · rw [if_pos h1] at h; exact .inl ⟨h1, by simpa using h.symm⟩
    · refine .inr ⟨by simpa using h1, ?_⟩
      rw [if_neg h1] at h
      by_cases h2 : s.cfg.sysClkHz ≠ sysClkHzRequired
      · rw [if_pos h2] at h; exact .inl (by simpa using h.symm)
      · rw [if_neg h2] at h
        by_cases h3 : s.cfg.freeDmaChannels.val < 2
        · rw [if_pos h3] at h; exact .inr (.inl (by simpa using h.symm))
        · rw [if_neg h3] at h
          have ht : trigger .a (startBuilt s) = .error f := finish_fault.mp h
          rcases trigger_error.mp ht with ⟨_, hb⟩ | ⟨hd, _, hp⟩
          · simp [startBuilt_dma] at hb
          · exact .inr (.inr ⟨hd, by simpa [Pair.get] using hp⟩)
  | rdFrameCount => obtain ⟨-, h⟩ := body h; split at h <;> simp [refuse] at h
  | rdRenderActive => obtain ⟨-, h⟩ := body h; split at h <;> simp [refuse] at h
  | pwmWrap => obtain ⟨-, h⟩ := body h; cases h
  | dmaXfer x => exact ⟨(body h).1, finish_fault.mp (body h).2⟩
  | dmaComplete x => exact finish_fault.mp (body h).2
  | irqEntry => obtain ⟨-, h⟩ := body h; cases h
  | irqService =>
    obtain ⟨he, h⟩ := body h
    simp only [irqServiceEnabled, Bool.and_eq_true] at he
    cases ht : s.handler.todo with
    | nil => simp [ht] at h
    | cons x rest =>
      simp only [ht] at h
      refine ⟨he.1, x, rest, ht, ?_⟩
      rcases bind_error.mp (finish_fault.mp h) with h | ⟨_, _, h⟩
      · exact (generate_error h).1
      · cases h
  | irqReturn => obtain ⟨-, h⟩ := body h; cases h
  | fbWrite offset byte => obtain ⟨-, h⟩ := body h; split at h <;> simp [refuse] at h
  | genTest x idx =>
    obtain ⟨-, h⟩ := body h
    split at h
    · simp [refuse] at h
    · rename_i hs
      exact ⟨by simpa using hs, (generate_error (finish_fault.mp h)).1⟩
  | genPreeq x idx => obtain ⟨-, h⟩ := body h; cases h
  | genVsync x idx => obtain ⟨-, h⟩ := body h; cases h
  | genActive x idx => exact finish_fault.mp (body h).2
  | genBottom x idx => obtain ⟨-, h⟩ := body h; cases h
  | genNowrite x idx => obtain ⟨-, h⟩ := body h; cases h

end Sys2Proof.Machine
end

