-- ==== Sys2Proof/Laws/Regions.lean ====
section
/-!
SUPPORT. The four data regions of a valid placement are apart, so that a store in one leaves the others alone; and the
samples of a buffer after each generator operation.
-/
namespace Sys2Proof.Machine

/-- A valid placement in numbers: the regions are pairwise apart, aligned, and inside the 32-bit data space (R51). -/
theorem placementOk_apart {cfg : Config} (h : placementOk cfg = true) :
    (cfg.fbBase.toNat + 76800 ≤ cfg.palBase.toNat ∨ cfg.palBase.toNat + 2048 ≤ cfg.fbBase.toNat) ∧
    (cfg.fbBase.toNat + 76800 ≤ cfg.bufABase.toNat ∨ cfg.bufABase.toNat + 1816 ≤ cfg.fbBase.toNat) ∧
    (cfg.fbBase.toNat + 76800 ≤ cfg.bufBBase.toNat ∨ cfg.bufBBase.toNat + 1816 ≤ cfg.fbBase.toNat) ∧
    (cfg.palBase.toNat + 2048 ≤ cfg.bufABase.toNat ∨ cfg.bufABase.toNat + 1816 ≤ cfg.palBase.toNat) ∧
    (cfg.palBase.toNat + 2048 ≤ cfg.bufBBase.toNat ∨ cfg.bufBBase.toNat + 1816 ≤ cfg.palBase.toNat) ∧
    (cfg.bufABase.toNat + 1816 ≤ cfg.bufBBase.toNat ∨ cfg.bufBBase.toNat + 1816 ≤ cfg.bufABase.toNat) := by
  obtain ⟨h, -⟩ := Bool.and_eq_true_iff.mp h
  obtain ⟨h, -⟩ := Bool.and_eq_true_iff.mp h
  obtain ⟨h, -⟩ := Bool.and_eq_true_iff.mp h
  obtain ⟨-, h⟩ := Bool.and_eq_true_iff.mp h
  have h := of_decide_eq_true h
  simp only [dataRegions, List.pairwise_cons, List.mem_cons, List.not_mem_nil, or_false, forall_eq_or_imp, forall_eq,
    regionsApart, decide_eq_true_eq] at h
  obtain ⟨⟨h1, h2, h3⟩, ⟨h4, h5⟩, h6, -⟩ := h
  exact ⟨h1, h2, h3, h4, h5, h6⟩

theorem placementOk_fits {cfg : Config} (h : placementOk cfg = true) (x : Chan) :
    (cfg.bufBase x).toNat + 1816 ≤ 2 ^ 32 := by
  obtain ⟨h, -⟩ := Bool.and_eq_true_iff.mp h
  obtain ⟨h, -⟩ := Bool.and_eq_true_iff.mp h
  obtain ⟨h, -⟩ := Bool.and_eq_true_iff.mp h
  obtain ⟨h, -⟩ := Bool.and_eq_true_iff.mp h
  have h := List.all_eq_true.mp h
  cases x
  · exact (of_decide_eq_true (h (cfg.bufABase.toNat, bufBytes) (by simp [dataRegions]))).2
  · exact (of_decide_eq_true (h (cfg.bufBBase.toNat, bufBytes) (by simp [dataRegions]))).2

/-- Buffer `x` is apart from its peer, the palette and the framebuffer. -/
theorem placementOk_buf {cfg : Config} (h : placementOk cfg = true) (x : Chan) :
    ((cfg.bufBase x).toNat + 1816 ≤ (cfg.bufBase x.peer).toNat ∨
      (cfg.bufBase x.peer).toNat + 1816 ≤ (cfg.bufBase x).toNat) ∧
    ((cfg.bufBase x).toNat + 1816 ≤ cfg.palBase.toNat ∨ cfg.palBase.toNat + 2048 ≤ (cfg.bufBase x).toNat) ∧
    ((cfg.bufBase x).toNat + 1816 ≤ cfg.fbBase.toNat ∨ cfg.fbBase.toNat + 76800 ≤ (cfg.bufBase x).toNat) := by
  have := placementOk_apart h
  cases x <;> simp only [Config.bufBase, Chan.peer] <;> omega

/-! ### What a store in a buffer leaves alone -/

/-- `t` differs from `s` in memory only inside buffer `x`. -/
abbrev OnlyInBuf (x : Chan) (s t : State) : Prop :=
  t.cfg = s.cfg ∧ ∀ a, a < (s.cfg.bufBase x).toNat ∨ (s.cfg.bufBase x).toNat + 1816 ≤ a → t.byteAt a = s.byteAt a

theorem generate_onlyInBuf {x : Chan} {idx : LineIdx} {s t : State} (h : generate x idx s = .ok t) :
    OnlyInBuf x s t :=
  ⟨by rw [(generate_onlyGenerated h).rest], fun _ ha => generate_byteAt h ha⟩

theorem onlyInBuf_peer {x : Chan} {s t : State} (hp : placementOk s.cfg = true) (h : OnlyInBuf x s t) {n : Nat}
    (hn : n < 908) : t.buf x.peer n = s.buf x.peer n := by
  have ha := placementOk_buf hp x
  exact buf_congr h.1 (h.2 _ (by omega)) (h.2 _ (by omega))

theorem onlyInBuf_pal {x : Chan} {s t : State} (hp : placementOk s.cfg = true) (h : OnlyInBuf x s t) {j : Nat}
    (hj : j < 1024) : t.pal j = s.pal j := by
  have ha := placementOk_buf hp x
  exact pal_congr h.1 (h.2 _ (by omega)) (h.2 _ (by omega))

theorem onlyInBuf_fb {x : Chan} {s t : State} (hp : placementOk s.cfg = true) (h : OnlyInBuf x s t) {o : Nat}
    (ho : o < 76800) : t.fb o = s.fb o := by
  have ha := placementOk_buf hp x
  have := h.2 (s.cfg.fbBase.toNat + o) (by omega)
  simpa [State.fb, State.byteAt, h.1] using this

/-- A framebuffer byte written by the producer leaves the buffers and the palette alone. -/
theorem fbWrite_byteAt {s : State} {o : Nat} {byte : Byte} {a : Nat} (h : a ≠ s.cfg.fbBase.toNat + o) :
    State.byteAt { s with mem := Memory.writeBytes s.cfg s.mem (s.cfg.fbBase.toNat + o) [byte] } a = s.byteAt a := by
  simp only [State.byteAt]
  exact read1_writeBytes_outside (by simp only [List.length_cons, List.length_nil]; omega)

/-! ### The samples of a buffer after a generator operation -/

theorem fillBuf_buf_inside {s : State} {x : Chan} {n i : Nat} {vs : List Sample} (hlo : n ≤ i)
    (hhi : i < n + vs.length) : (s.fillBuf x n vs).buf x i = some (vs[i - n]'(by omega)) :=
  sample_writeSamples_inside hlo hhi

theorem fillBuf_buf_outside {s : State} {x : Chan} {n i : Nat} {vs : List Sample} (h : i < n ∨ n + vs.length ≤ i) :
    (s.fillBuf x n vs).buf x i = s.buf x i :=
  sample_writeSamples_outside h

@[simp] theorem markRender_buf (v : Bool) (s : State) (x : Chan) (n : Nat) : (markRender v s).buf x n = s.buf x n := rfl

theorem preeqSamples_get {n : Nat} (h : n < preeqSamples.length) : preeqSamples[n] = if n < 840 then 0 else 2 := by
  simp only [preeqSamples, List.getElem_append, List.length_replicate, List.getElem_replicate]
  split <;> simp_all [syncLevel, blankLevel]

theorem burst_flatten_get (k n : Nat) (h : n < ((List.replicate k burst).flatten).length) :
    (List.replicate k burst).flatten[n] = ([2, 1, 2, 3] : List Sample)[n % 4]'(Nat.mod_lt n (by decide)) := by
  induction k generalizing n with
  | zero => simp at h
  | succ k ih =>
    by_cases hn : n < 4
    · have : n = 0 ∨ n = 1 ∨ n = 2 ∨ n = 3 := by omega
      rcases this with rfl | rfl | rfl | rfl <;> simp [List.replicate_succ, burst]
    · have hk : n - 4 < ((List.replicate k burst).flatten).length := by
        simp only [List.replicate_succ, List.flatten_cons, List.length_append, burst, List.length_cons,
          List.length_nil] at h ⊢
        omega
      have := ih (n - 4) hk
      simp only [List.replicate_succ, List.flatten_cons]
      rw [List.getElem_append_right (by simp [burst]; omega)]
      simp only [burst, List.length_cons, List.length_nil, Nat.zero_add, Nat.reduceAdd] at this ⊢
      simp only [this, show (n - 4) % 4 = n % 4 by omega]

theorem vsyncSamples_get {n : Nat} (h : n < vsyncSamples.length) :
    vsyncSamples[n] =
      if n < 68 then 0
      else if n < 76 then 2
      else if n < 112 then ([2, 1, 2, 3] : List Sample)[(n - 76) % 4]'(Nat.mod_lt _ (by decide))
      else 2 := by
  have hb : ((List.replicate 9 burst).flatten).length = 36 := by
    simp [burst]
  by_cases h1 : n < 68
  · simp only [if_pos h1, vsyncSamples]
    rw [List.getElem_append_left (by simp only [List.length_append, List.length_replicate, hsyncLen]; omega),
      List.getElem_append_left (by simp only [List.length_append, List.length_replicate, hsyncLen]; omega),
      List.getElem_append_left (by simp only [List.length_replicate, hsyncLen]; omega), List.getElem_replicate]
  · by_cases h2 : n < 76
    · simp only [if_neg h1, if_pos h2, vsyncSamples]
      rw [List.getElem_append_left
          (by simp only [List.length_append, List.length_replicate, hsyncLen, bpPreLen]; omega),
        List.getElem_append_left
          (by simp only [List.length_append, List.length_replicate, hsyncLen, bpPreLen]; omega),
        List.getElem_append_right (by simp only [List.length_replicate, hsyncLen]; omega), List.getElem_replicate]
    · by_cases h3 : n < 112
      · simp only [if_neg h1, if_neg h2, if_pos h3, vsyncSamples]
        rw [List.getElem_append_left
            (by simp only [List.length_append, List.length_replicate, hsyncLen, bpPreLen, burstCycles, hb]; omega),
          List.getElem_append_right
            (by simp only [List.length_append, List.length_replicate, hsyncLen, bpPreLen]; omega)]
        simp only [List.length_append, List.length_replicate, hsyncLen, bpPreLen, burstCycles]
        rw [burst_flatten_get]
      · simp only [if_neg h1, if_neg h2, if_neg h3, vsyncSamples]
        rw [List.getElem_append_right
          (by simp only [List.length_append, List.length_replicate, hsyncLen, bpPreLen, burstCycles, hb]; omega),
          List.getElem_replicate]

theorem linePreeq_buf (x : Chan) (s : State) {n : Nat} (hn : n < 908) :
    (linePreeq x s).buf x n = some (if n < 840 then 0 else 2) := by
  have := fillBuf_buf_inside (s := s) (x := x) (n := 0) (i := n) (vs := preeqSamples) (by omega)
    (by rw [preeqSamples_length]; omega)
  rw [linePreeq, markRender_buf, this, preeqSamples_get]
  rfl

theorem lineVsync_buf (x : Chan) (s : State) {n : Nat} (hn : n < 908) :
    (lineVsync x s).buf x n = some (
      if n < 68 then 0
      else if n < 76 then 2
      else if n < 112 then ([2, 1, 2, 3] : List Sample)[(n - 76) % 4]'(Nat.mod_lt _ (by decide))
      else 2) := by
  have := fillBuf_buf_inside (s := s) (x := x) (n := 0) (i := n) (vs := vsyncSamples) (by omega)
    (by rw [vsyncSamples_length]; omega)
  rw [lineVsync, markRender_buf, this, vsyncSamples_get]
  rfl

theorem lineBottom_buf_inside (x : Chan) (idx : LineIdx) (s : State) {n : Nat} (hlo : 172 ≤ n) (hhi : n < 812) :
    (lineBottom x idx s).buf x n = some 2 := by
  have := fillBuf_buf_inside (s := { s with frameCount := frameAfter s.cfg idx s.frameCount }) (x := x)
    (n := activeStart) (i := n) (vs := bottomSamples) hlo (by rw [bottomSamples_length]; omega)
  rw [lineBottom, markRender_buf, this]
  simp only [bottomSamples, List.getElem_replicate]

/-- The pair of palette samples of pixel `k`, as an active line's pairs give it (R72, R90). -/
theorem pixelWord_eq_some {s : State} {cur k : Nat} {w : BitVec 32} :
    pixelWord s.cfg s.mem cur k = some w ↔
      ∃ p, s.fb (cur + k) = some p ∧ s.pal (4 * p.toNat + 2 * (k % 2)) = some (w.extractLsb' 0 16) ∧
        s.pal (4 * p.toNat + 2 * (k % 2) + 1) = some (w.extractLsb' 16 16) := by
  unfold pixelWord
  rw [show s.cfg.fbBase.toNat + cur + k = s.cfg.fbBase.toNat + (cur + k) by omega]
  change (match s.fb (cur + k) with
    | some p => Memory.read4 s.cfg s.mem (s.cfg.palBase.toNat + 2 * pixelPalIndex p k)
    | none => none) = some w ↔ _
  cases s.fb (cur + k) with
  | none => simp
  | some p =>
    have e0 : Memory.read2 s.cfg s.mem (s.cfg.palBase.toNat + 2 * pixelPalIndex p k)
        = s.pal (4 * p.toNat + 2 * (k % 2)) := rfl
    have e1 : Memory.read2 s.cfg s.mem (s.cfg.palBase.toNat + 2 * pixelPalIndex p k + 2)
        = s.pal (4 * p.toNat + 2 * (k % 2) + 1) := rfl
    simp only [Memory.read4, e0, e1]
    cases h0 : s.pal (4 * p.toNat + 2 * (k % 2)) with
    | none => simp [h0]
    | some lo =>
      cases h1 : s.pal (4 * p.toNat + 2 * (k % 2) + 1) with
      | none => simp [h1]
      | some hi =>
        simp only [Option.some.injEq, exists_eq_left', h0, h1]
        constructor
        · rintro rfl
          exact ⟨(BitVec.extractLsb'_append_eq_right).symm, (BitVec.extractLsb'_append_eq_left).symm⟩
        · rintro ⟨rfl, rfl⟩
          exact samples_of_word w

theorem pairs_get (ws : List (BitVec 32)) (k : Nat) (h : k < ws.length) :
    (ws.flatMap fun w => [w.extractLsb' 0 16, w.extractLsb' 16 16])[2 * k]? = some (ws[k].extractLsb' 0 16) ∧
    (ws.flatMap fun w => [w.extractLsb' 0 16, w.extractLsb' 16 16])[2 * k + 1]? =
      some (ws[k].extractLsb' 16 16) := by
  induction ws generalizing k with
  | nil => simp at h
  | cons w ws ih =>
    cases k with
    | zero => simp
    | succ k =>
      have := ih k (by simpa using h)
      simpa [List.flatMap_cons, show 2 * (k + 1) = 2 * k + 1 + 1 by omega] using this

theorem pairs_length (ws : List (BitVec 32)) :
    (ws.flatMap fun w => [w.extractLsb' 0 16, w.extractLsb' 16 16]).length = 2 * ws.length := by
  induction ws with
  | nil => rfl
  | cons w ws ih => simp [ih]; omega

/-- The samples of an active line: two for each pixel (R73, R90). -/
theorem lineActive_buf {x : Chan} {idx : LineIdx} {s t : State} (h : lineActive x idx s = .ok t) {k : Nat}
    (hk : k < 320) :
    ∃ cur p, lineCursor idx s = some cur ∧ s.fb (cur.toNat + k) = some p ∧
      t.buf x (172 + 2 * k) = s.pal (4 * p.toNat + 2 * (k % 2)) ∧
      t.buf x (173 + 2 * k) = s.pal (4 * p.toNat + 2 * (k % 2) + 1) ∧
      (t.buf x (172 + 2 * k)).isSome = true ∧ (t.buf x (173 + 2 * k)).isSome = true := by
  obtain ⟨cur, ws, hc, -, hw, rfl⟩ := lineActive_ok.mp h
  obtain ⟨hl, hall⟩ := pixelWords_eq_some.mp hw
  obtain ⟨p, hp, h0, h1⟩ := pixelWord_eq_some.mp (by simpa using hall k hk)
  have hs : (s.storePixels x cur ws).mem = Memory.writeSamples s.cfg s.mem (s.cfg.bufBase x) activeStart
      (ws.flatMap fun w => [w.extractLsb' 0 16, w.extractLsb' 16 16]) :=
    writeBytes_words s.cfg s.mem (s.cfg.bufBase x) activeStart ws
  have hlen := pairs_length ws
  obtain ⟨g0, g1⟩ := pairs_get ws k (by omega)
  have b0 : (markRender true (s.storePixels x cur ws)).buf x (172 + 2 * k) = some (ws[k].extractLsb' 0 16) := by
    change Memory.sample s.cfg (s.storePixels x cur ws).mem (s.cfg.bufBase x) _ = _
    rw [hs, sample_writeSamples_inside (by simp) (by simp only [activeStart]; omega), ← List.getElem?_eq_getElem]
    rw [show 172 + 2 * k - activeStart = 2 * k by simp [activeStart]]
    exact g0
  have b1 : (markRender true (s.storePixels x cur ws)).buf x (173 + 2 * k) = some (ws[k].extractLsb' 16 16) := by
    change Memory.sample s.cfg (s.storePixels x cur ws).mem (s.cfg.bufBase x) _ = _
    rw [hs, sample_writeSamples_inside (by simp only [activeStart]; omega) (by simp only [activeStart]; omega),
      ← List.getElem?_eq_getElem]
    rw [show 173 + 2 * k - activeStart = 2 * k + 1 by simp only [activeStart]; omega]
    exact g1
  exact ⟨cur, p, hc, hp, by rw [b0, h0], by rw [b1, h1], by rw [b0]; rfl, by rw [b1]; rfl⟩

/-- Outside its 640 samples an active line keeps the buffer (R90). -/
theorem lineActive_buf_outside {x : Chan} {idx : LineIdx} {s t : State} (h : lineActive x idx s = .ok t) {n : Nat}
    (hn : n < 172 ∨ 812 ≤ n) : t.buf x n = s.buf x n := by
  obtain ⟨cur, ws, -, -, hw, rfl⟩ := lineActive_ok.mp h
  have hl := (pixelWords_eq_some.mp hw).1
  have hs : (s.storePixels x cur ws).mem = Memory.writeSamples s.cfg s.mem (s.cfg.bufBase x) activeStart
      (ws.flatMap fun w => [w.extractLsb' 0 16, w.extractLsb' 16 16]) :=
    writeBytes_words s.cfg s.mem (s.cfg.bufBase x) activeStart ws
  have hlen := pairs_length ws
  change Memory.sample s.cfg (s.storePixels x cur ws).mem (s.cfg.bufBase x) _ = _
  rw [hs]
  exact sample_writeSamples_outside (by simp only [activeStart]; omega)

/-- START leaves a pre-equalizing line in both buffers (R144, R170). -/
theorem startBuilt_buf {s : State} (hp : placementOk s.cfg = true) (x : Chan) {n : Nat} (hn : n < 908) :
    (startBuilt s).buf x n = some (if n < 840 then 0 else 2) := by
  have hb := linePreeq_buf .b (linePreeq .a (startConfigured s)) hn
  cases x with
  | b => exact hb
  | a =>
    have hg : generate .b 1 (linePreeq .a (startConfigured s)) = .ok (linePreeq .b (linePreeq .a (startConfigured s))) :=
      rfl
    have hkeep := onlyInBuf_peer (x := .b) (by rw [linePreeq_cfg]; exact hp) (generate_onlyInBuf hg) hn
    exact hkeep.trans (linePreeq_buf .a (startConfigured s) hn)

end Sys2Proof.Machine
end

