-- ==== Sys2Proof/Laws/Lines.lean ====
section
/-!
SUPPORT. The lines that a buffer holds (R97): the table's samples, and what a generator operation makes of the line two
before.
-/
namespace Sys2Proof.Machine

theorem holdsLine_congr {s t : State} {x l} (hb : ∀ n < 908, t.buf x n = s.buf x n) (h : holdsLine s x l) : holdsLine t x l := by
  intro n hn
  obtain ⟨v, hv, hw⟩ := h n hn
  exact ⟨v, by rw [hb n hn, hv], hw⟩

/-- Line l' from the line two before. -/
theorem generate_holdsLine {s t : State} {y : Chan} {l : Nat} (hl : l < 262)
   (hold : 2 ≤ l → holdsLine s y (l - 2)) (hg : generate y (BitVec.ofNat 9 l) s = .ok t) : holdsLine t y l := by
  have hn : (BitVec.ofNat 9 l).toNat = l := by simp; omega
  have vs : ∀ n < 908, (if n < 68 then (0:Sample)
      else if n < 76 then 2
      else if n < 112 then ([2, 1, 2, 3] : List Sample)[(n - 76) % 4]'(Nat.mod_lt _ (by decide))
      else 2) = vsyncSample n := by
    intro n _
    unfold vsyncSample
    split; rfl
    split; rfl
    split
    · have : (n-76) % 4 = 0 ∨ (n-76) % 4 = 1 ∨ (n-76)%4 = 2 ∨ (n-76)%4 = 3 := by omega
      rcases this with h | h | h | h <;> simp [h, burstLow, burstHigh, blankLevel]
    · rfl
  rcases generate_cases hg with ⟨hc, rfl⟩ | ⟨hc, rfl⟩ | ⟨hc, ha⟩ | ⟨hc, rfl⟩ | ⟨hc, rfl⟩
  all_goals simp only [classify, hn] at hc
  · -- preeq
    have : l < 2 := by by_contra h; simp [h] at hc; split at hc <;> (try simp_all); split at hc <;> (try simp_all); split at hc <;> simp_all
    intro n hn'
    refine ⟨_, linePreeq_buf y s hn', fun w hw => ?_⟩
    simp only [lineSample, show l < 10 by omega, if_true, preeqSample] at hw
    simpa [syncLevel, blankLevel] using hw
  · have : l = 10 ∨ l = 11 := by
      split at hc; simp at hc
      split at hc; assumption
      split at hc; simp at hc
      split at hc <;> simp at hc
    intro n hn'
    refine ⟨_, lineVsync_buf y s hn', fun w hw => ?_⟩
    simp only [lineSample, show ¬ l < 10 by omega, show l < 36 by omega, if_true, if_false] at hw
    rw [vs n hn']; simpa using hw
  · have h36 : 36 ≤ l := by
      split at hc; simp at hc
      split at hc; simp at hc
      split at hc
      · omega
      · split at hc <;> simp at hc
    intro n hn'
    by_cases hin : 172 ≤ n ∧ n < 812
    · obtain ⟨k, hk⟩ : ∃ k, k < 320 ∧ (n = 172 + 2 * k ∨ n = 173 + 2 * k) := ⟨(n - 172) / 2, by omega, by omega⟩
      obtain ⟨cur, p, -, -, -, -, e1, e2⟩ := lineActive_buf ha hk.1
      have : (t.buf y n).isSome := by rcases hk.2 with rfl | rfl; exact e1; exact e2
      obtain ⟨v, hv⟩ := Option.isSome_iff_exists.mp this
      refine ⟨v, hv, fun w hw => ?_⟩
      simp [lineSample, show ¬ l < 10 by omega, show ¬ l < 36 by omega, activeStart, activeSamples, hin.1, hin.2] at hw
    · obtain ⟨v, hv, hw⟩ := hold (by omega) n hn'
      refine ⟨v, by rw [lineActive_buf_outside ha (by omega), hv], fun w h => hw w ?_⟩
      simp only [lineSample, show ¬ l < 10 by omega, show ¬ l < 36 by omega, if_false, activeStart, activeSamples] at h
      rw [if_neg (by omega)] at h
      simp only [lineSample, show ¬ l - 2 < 10 by omega, if_false, activeStart, activeSamples]
      split
      · exact h
      · exact h
  · exfalso
    split at hc; simp at hc
    split at hc; simp at hc
    split at hc; simp at hc
    split at hc
    · omega
    · simp at hc
  · have : (2 ≤ l ∧ l ≤ 9) ∨ (12 ≤ l ∧ l ≤ 35) := by
      split at hc; simp at hc
      split at hc; simp at hc
      split at hc; simp at hc
      split at hc; simp at hc
      omega
    intro n hn'
    obtain ⟨v, hv, hw⟩ := hold (by omega) n hn'
    refine ⟨v, hv, fun w h => hw w ?_⟩
    unfold lineSample at h ⊢
    rcases this with h1 | h1
    · rw [if_pos (by omega)] at h ⊢; exact h
    · rw [if_neg (by omega), if_pos (by omega)] at h ⊢; exact h


end Sys2Proof.Machine
end

