-- ==== Sys2Proof/Laws/Engine.lean ====
section
/-!
SUPPORT. The running engine: which elements its invariant speaks of, and that START establishes it.
-/
namespace Sys2Proof.Machine

/-- The invariant of the running engine speaks of these elements only. -/
theorem running_congr {s t : State} {m : Nat} {x : Chan} (h : Running s m x)
    (hb : ∀ y, ∀ n < 908, t.buf y n = s.buf y n) (h1 : t.cfg = s.cfg) (h2 : t.started = s.started)
    (h3 : t.fault = s.fault) (h4 : t.pwm.en = s.pwm.en) (h5 : t.inte = s.inte) (h6 : t.dma = s.dma)
    (h7 : t.pend = s.pend) (h8 : t.intr = s.intr) (h9 : t.handler = s.handler) (h10 : t.dmaHist = s.dmaHist)
    (h11 : t.scanIdx = s.scanIdx) (h12 : t.cursor = s.cursor) : Running t m x where
  placed := by rw [h1]; exact h.placed
  isStarted := by rw [h2]; exact h.isStarted
  noFault := by rw [h3]; exact h.noFault
  pwmOn := by rw [h4]; exact h.pwmOn
  unmasked := by rw [h5]; exact h.unmasked
  turn := h.turn
  busy := by rw [h6]; exact h.busy
  peerIdle := by rw [h6]; exact h.peerIdle
  reload := by rw [h6]; exact h.reload
  countPos := by rw [h6]; exact h.countPos
  countMax := by rw [h6]; exact h.countMax
  reading := by rw [h6, h1]; exact h.reading
  ownedByDma := by rw [h7]; exact h.ownedByDma
  noIntr := by rw [h8]; exact h.noIntr
  idleTodo := by rw [h9]; exact h.idleTodo
  histLength := by rw [h10, h6]; exact h.histLength
  sending := holdsLine_congr (hb x) h.sending
  peer := by
    rw [h7, h8, h9, h6, h1, h11]
    rcases h.peer with ⟨a, b, c, d, e, f⟩ | ⟨a, b, c, d, e⟩
    · exact .inl ⟨a, b, c, d, e, holdsLine_congr (hb _) f⟩
    · exact .inr ⟨a, b, c, d, holdsLine_congr (hb _) e⟩
  cursorAt := by rw [h11, h12]; exact h.cursorAt
  emitted := by rw [h10]; exact h.emitted

/-- Under the launch premises START completes from the block before START (R144, R172). -/
theorem start_completes {s : State} (hs : BeforeStart s) (hc : s.cfg.sysClkHz = sysClkHzRequired)
    (hd : 2 ≤ s.cfg.freeDmaChannels.val) : ∃ t, exec .start s = .next t := by
  have he : exec .start s = finish (trigger .a (startBuilt s)) := execStart_eq hs.noFault hs.notStarted hc (by omega)
  have hp : (startBuilt s).pend.get .a = false := by rw [startBuilt_pend, hs.noPend]; rfl
  exact ⟨_, he.trans (finish_next.mpr (trigger_ok.mpr ⟨by rw [startBuilt_dma], hp, rfl⟩))⟩

/-- START leaves the engine running: line 0 in buffer A, which the DMA owns, and line 1 in buffer B (R144, R170, R124). -/
theorem start_running {s t : State} (hs : BeforeStart s) (h : exec .start s = .next t) : Running t 0 .a := by
  obtain ⟨-, -, -, -, h⟩ := exec_effect h
  obtain ⟨-, -, ht⟩ := trigger_ok.mp h
  have hd := startBuilt_dma s
  have hrel : (startBuilt s).reloadValue .a = transferCount := by simp [State.reloadValue, hd]
  have hbuf : ∀ x, ∀ n < 908, t.buf x n = some (if n < 840 then 0 else 2) := by
    intro x n hn; rw [ht]; exact startBuilt_buf hs.placed x hn
  have hdA : t.dma.get .a = 
      { readAddr := some s.cfg.bufABase, writeAddr := some s.cfg.ccBAddr, countReload := some transferCount,
        count := 908, ctrl := some (ctrlValue s.cfg .a), busy := true } := by
    rw [ht]; simp only [Pair.get_set, hd, hrel]; rfl
  have hdB : t.dma.get .b = 
      { readAddr := some s.cfg.bufBBase, writeAddr := some s.cfg.ccBAddr, countReload := some transferCount,
        count := 0, ctrl := some (ctrlValue s.cfg .b), busy := false } := by
    rw [ht]; exact (Pair.get_set_peer (startBuilt s).dma .a _).trans (hd .b)
  have hline : ∀ x l, l < 2 → holdsLine t x l := by
    intro x l hl n hn
    refine ⟨_, hbuf x n hn, fun w hw => ?_⟩
    simp only [lineSample, preeqSample, show l < 10 by omega, if_true, Option.some.injEq] at hw
    exact hw
  have c1 : t.cfg = s.cfg := by rw [ht]; simp
  have c2 : t.pend = s.pend := by rw [ht]; simp
  have c3 : t.handler = s.handler := by rw [ht]; simp
  have c4 : t.dmaHist = s.dmaHist := by rw [ht]; simp
  have c5 : t.scanIdx = some 2 := by rw [ht]; simp
  have c6 : t.intr = ⟨false, false⟩ := by rw [ht]; simp
  refine ⟨by rw [c1]; exact hs.placed, by rw [ht]; simp, by rw [ht]; simp [hs.noFault], by rw [ht]; simp,
    by rw [ht]; simp, rfl, by rw [hdA], by rw [Chan.peer_a, hdB], ?_, ?_, ?_, ?_, ?_, ?_, ?_, ?_, ?_, ?_, ?_, ?_⟩
  · intro y; cases y; rw [hdA]; rw [hdB]
  · rw [hdA]; simp
  · rw [hdA]; simp
  · rw [hdA, c1]; simp [Config.bufBase]
  · rw [c2, hs.noPend]; rfl
  · rw [c6]; rfl
  · intro _; rw [c3, hs.handlerIdle]
  · rw [c4, hdA, hs.noDmaHist]; rfl
  · exact hline _ _ (by decide)
  · refine .inl ⟨?_, ?_, ?_, ?_, ?_, ?_⟩
    · rw [c2, hs.noPend]; rfl
    · rw [c6]; rfl
    · rw [c3, hs.handlerIdle]
    · rw [Chan.peer_a, hdB, c1]; rfl
    · rw [c5]; rfl
    · exact hline _ _ (by decide)
  · intro v hv h36
    rw [c5] at hv
    cases hv; simp at h36
  · intro i hi
    rw [c4, hs.noDmaHist] at hi; simp at hi

end Sys2Proof.Machine
end

