-- ==== Sys2Proof/Laws/Events.lean ====
section
/-!
SUPPORT. What each event does to the running engine (R118, R122, R131): it goes on with the same run,
    or the run that ends
is followed by its peer's; and which faults an event of the running engine can raise.
-/
namespace Sys2Proof.Machine

/-- The running engine after the schedule has moved on. -/
theorem running_advance {s : State} {m : Nat} {x : Chan} (box : List Access) (h : Running s m x) :
    Running (s.advance box) m x :=
  running_congr h (fun _ _ _ => rfl) rfl rfl rfl rfl rfl rfl rfl rfl rfl rfl rfl rfl

/-- A wrap goes on with the run (R136). -/
theorem running_wrap {s t : State} {m : Nat} {x : Chan} (h : Running s m x) (ht : Effect .pwmWrap s t) :
    Running t m x := by
  obtain ⟨-, rfl⟩ := ht
  exact running_congr h (fun _ _ _ => rfl) rfl rfl rfl rfl rfl rfl rfl rfl rfl rfl rfl rfl

/-- A transfer goes on with the run, or, if it is the last one, with the peer's run (R116, R117). -/
theorem running_xfer {s t : State} {m : Nat} {y : Chan} (h : Running s m y) (hx : transfer y s = .ok t) :
    ((s.dma.get y).count ≠ 1 ∧ t.pend = s.pend ∧ Running t m y) ∨
      ((s.dma.get y).count = 1 ∧ s.pend.get y.peer = false ∧ t.pend = s.pend.set y true ∧
          Running t (m + 1) y.peer) := by
  obtain ⟨addr, v, ha, hin, hv, hc⟩ := transfer_ok hx
  have hcp := h.countPos
  have hcm := h.countMax
  have hfit := placementOk_fits h.placed y
  rw [h.reading] at ha
  simp only [Option.some.injEq] at ha
  have han : addr.toNat = (s.cfg.bufBase y).toNat + 2 * (908 - (s.dma.get y).count.toNat) := by
    rw [← ha]; simp [samplesPerLine] at *; omega
  have hbuf : s.buf y (908 - (s.dma.get y).count.toNat) = some v := by
    have : s.buf y (908 - (s.dma.get y).count.toNat) = Memory.read2 s.cfg s.mem addr.toNat := by rw [han]; rfl
    rw [this, hv]
  obtain ⟨v', hv', hline⟩ := h.sending (908 - (s.dma.get y).count.toNat) (by simp [samplesPerLine]; omega)
  obtain rfl : v' = v := by rw [hbuf] at hv'; simpa using hv'.symm
  have hl := h.histLength
  have hmod : s.dmaHist.length / 908 = m ∧ s.dmaHist.length % 908 = 908 - (s.dma.get y).count.toNat := by
    simp only [samplesPerLine] at hl; omega
  have hem : ∀ i < (s.dmaHist ++ [v']).length, ∀ w,
    lineSample (i / samplesPerLine % linesPerFrame) (i % samplesPerLine) = some w →
      (s.dmaHist ++ [v'])[i]? = some w := by
    intro i hi w hw
    by_cases h' : i < s.dmaHist.length
    · rw [List.getElem?_append_left h']; exact h.emitted i h' w hw
    · have : i = s.dmaHist.length := by simp at hi; omega
      subst this
      simp only [samplesPerLine] at hw
      rw [hmod.1, hmod.2] at hw
      simp [hline w hw]
  rcases hc with ⟨hc, rfl⟩ | ⟨hc, hcr⟩
  · have hcn : ((s.dma.get y).count - 1).toNat = (s.dma.get y).count.toNat - 1 := by
      rw [BitVec.toNat_sub_of_le]; simp; simp [BitVec.le_def]; omega
    have hne : (s.dma.get y).count.toNat ≠ 1 := by
      intro h1; apply hc
      have : (s.dma.get y).count = 1 := BitVec.eq_of_toNat_eq (by simpa using h1)
      rw [this]; rfl
    refine .inl ⟨fun h1 => hne (by rw [h1]; rfl), rfl, ⟨h.placed, h.isStarted, h.noFault, h.pwmOn, h.unmasked,
        h.turn, ?_, ?_, ?_, ?_, ?_, ?_, h.ownedByDma, h.noIntr, h.idleTodo, ?_, h.sending, ?_, h.cursorAt, hem⟩⟩
    · simp [State.moveSample, h.busy]
    · simp [State.moveSample, h.peerIdle]
    · intro z
      rcases Chan.eq_or_peer y z with rfl | rfl
      · simp [State.moveSample, h.reload]
      · simp [State.moveSample, h.reload]
    · simp only [State.moveSample, Pair.get_set, hcn]; omega
    · simp only [State.moveSample, Pair.get_set, hcn]; omega
    · simp only [State.moveSample, Pair.get_set, hcn]
      rw [← ha]
      congr 1
      rw [BitVec.add_assoc]; congr 1
      apply BitVec.eq_of_toNat_eq
      simp [samplesPerLine] at *; omega
    · simp only [State.moveSample, Pair.get_set, hcn, List.length_append, List.length_singleton, hl,
        samplesPerLine] at *; omega
    · simp only [State.moveSample, Pair.get_set_peer]
      exact h.peer
  · have hc1 : (s.dma.get y).count.toNat = 1 := by
      have : (s.dma.get y).count = 1 := by
        have := congrArg (· + 1) hc; simpa using this
      rw [this]; rfl
    rw [completeRun_eq] at hcr
    obtain ⟨hb, hp, rfl⟩ := trigger_ok.mp hcr
    have hp' : s.pend.get y.peer = false := by simpa [runOver, State.moveSample] using hp
    rcases h.peer with ⟨-, p2, p3, p4, p5, p6⟩ | ⟨-, hpt, -⟩
    swap; · rw [hpt] at hp'; cases hp'
    refine .inr ⟨BitVec.eq_of_toNat_eq (by simpa using hc1), hp', rfl, ⟨h.placed, h.isStarted, h.noFault, h.pwmOn,
        h.unmasked, ?_, ?_, ?_, ?_, ?_, ?_, ?_, ?_, ?_, ?_, ?_, ?_, ?_, h.cursorAt, hem⟩⟩
    · have := h.turn
      rw [this]; unfold chanOf
      rcases Nat.mod_two_eq_zero_or_one m with h0 | h0 
      · rw [if_pos h0, if_neg (by omega)]; rfl
      · rw [if_neg (by omega), if_pos (by omega)]; rfl
    · simp
    · simp [runOver, State.moveSample]
    · intro z
      rcases Chan.eq_or_peer y z with rfl | rfl
      · simp [State.moveSample, h.reload, runOver]
      · simp [State.moveSample, h.reload, runOver]
    · simp [State.reloadValue, runOver, State.moveSample, h.reload]
    · simp [State.reloadValue, runOver, State.moveSample, h.reload, samplesPerLine]
    · simp [State.reloadValue, runOver, State.moveSample, h.reload, samplesPerLine, p4]
    · simpa [runOver, State.moveSample] using hp
    · simp [runOver, State.moveSample, p2]
    · exact fun _ => p3
    · simp [State.reloadValue, runOver, State.moveSample, h.reload, samplesPerLine] at *
      omega
    · exact p6
    · refine .inr ⟨by omega, ?_, .inl ⟨?_, ?_⟩, ?_, ?_⟩
      · simp [runOver, State.moveSample]
      · simp [runOver, State.moveSample]
      · exact p3
      · exact p5
      · rw [Chan.peer_peer]; exact h.sending

/-- The handler's entry goes on with the run (R125). -/
theorem running_entry {s t : State} {m : Nat} {x : Chan} (h : Running s m x) (ht : Effect .irqEntry s t) :
    Running t m x := by
  obtain ⟨he, rfl⟩ := ht
  simp only [irqEntryEnabled, Bool.and_eq_true, Bool.not_eq_true'] at he
  obtain ⟨⟨-, hl⟩, hna⟩ := he
  have htodo := h.idleTodo hna
  have hint : s.intr.get x.peer = true := by
    have h1 := h.noIntr
    have h2 := h.unmasked
    cases x <;> simp [State.irqLine, State.ints, Pair.get, h2] at * <;> simp_all
  rcases h.peer with ⟨_, p2, _⟩ | ⟨q1, q2, ⟨q3, q4⟩ | ⟨q3, q4⟩, q5, q6⟩
  · rw [p2] at hint; cases hint
  · have e1 : (enterHandler s).handler = ⟨true, [x.peer]⟩ := by
      have h1 := h.noIntr
      have h2 := h.unmasked
      cases x <;> simp [enterHandler, State.ints, Pair.get, h2] at * <;> simp_all [serviceList]
    have e2 : (enterHandler s).intr.get x.peer = false ∧ (enterHandler s).intr.get x = false := by
      have h1 := h.noIntr
      have h2 := h.unmasked
      cases x <;> simp [enterHandler, State.ints, Pair.get, h2] at *
    refine ⟨h.placed, h.isStarted, h.noFault, h.pwmOn, h.unmasked, h.turn, h.busy, h.peerIdle, h.reload,
        h.countPos, h.countMax, h.reading, h.ownedByDma, e2.2, ?_, h.histLength, h.sending, ?_, h.cursorAt, h.emitted⟩
    · rw [e1]; simp
    · right
      exact ⟨q1, q2, .inr ⟨e2.1, by rw [e1]⟩, q5, q6⟩
  · rw [q3] at hint; cases hint

/-- The handler's return goes on with the run (R128). -/
theorem running_return {s t : State} {m : Nat} {x : Chan} (h : Running s m x) (ht : Effect .irqReturn s t) :
    Running t m x := by
  obtain ⟨he, htodo, rfl⟩ := ht
  exact ⟨h.placed, h.isStarted, h.noFault, h.pwmOn, h.unmasked, h.turn, h.busy, h.peerIdle, h.reload, h.countPos,
      h.countMax, h.reading, h.ownedByDma, h.noIntr, fun _ => htodo, h.histLength, h.sending, h.peer, h.cursorAt,
      h.emitted⟩

/-- What a service of the running engine services (R126, R131). -/
theorem service_ctx {s : State} {m : Nat} {x y : Chan} {rest : List Chan} (h : Running s m x)
    (htodo : s.handler.todo = y :: rest) :
   y = x.peer ∧ rest = [] ∧ s.pend.get x.peer = true ∧ s.scanIdx = some (BitVec.ofNat 9 ((m + 1) % 262)) := by
    rcases h.peer with ⟨_, _, p3, _⟩ | ⟨q1, q2, ⟨q3, q4⟩ | ⟨q3, q4⟩, q5, q6⟩
    · rw [p3] at htodo; cases htodo
    · rw [q4] at htodo; cases htodo
    rw [q4] at htodo
    obtain ⟨rfl, rfl⟩ : y = x.peer ∧ rest = [] := by simpa [eq_comm] using htodo
    exact ⟨rfl, rfl, q2, q5⟩

/-- A service goes on with the run: the peer's buffer then holds the line after next (R127, R131). -/
theorem running_service {s t : State} {m : Nat} {x : Chan} (h : Running s m x) (ht : Effect .irqService s t) :
    Running t m x := by
  obtain ⟨he, y, rest, htodo, hsv⟩ := ht
  rcases h.peer with ⟨_, _, p3, _⟩ | ⟨q1, q2, ⟨q3, q4⟩ | ⟨q3, q4⟩, q5, q6⟩
  · rw [p3] at htodo; cases htodo
  · rw [q4] at htodo; cases htodo
  rw [q4] at htodo
  obtain ⟨rfl, rfl⟩ : y = x.peer ∧ rest = [] := by simpa [eq_comm] using htodo
  obtain ⟨s1, hg, h2⟩ := bind_ok.mp hsv
  cases h2
  have hlm : s.lineToMake = BitVec.ofNat 9 ((m + 1) % 262) := by simp [State.lineToMake, q5]
  rw [hlm] at hg ⊢
  have hr := (generate_onlyGenerated hg).rest
  have hb := generate_onlyInBuf hg
  have hl262 : (m + 1) % 262 < 262 := Nat.mod_lt _ (by decide)
  have hlt : (BitVec.ofNat 9 ((m + 1) % 262)).toNat = (m+1) % 262 := by simp; omega
  have hnl : nextLine (BitVec.ofNat 9 ((m + 1) % 262)) = BitVec.ofNat 9 ((m + 2) % 262) := by
    unfold nextLine; rw [hlt]; congr 1; simp only [linesPerFrame]; omega
  have hline : holdsLine s1 x.peer ((m + 1) % 262) := by
    refine generate_holdsLine hl262 (fun h2 => ?_) hg
    have : (m - 1) % 262 = (m + 1) % 262 - 2 := by omega
    rw [← this]; exact q6
  have hkeep : ∀ n < 908, s1.buf x n = s.buf x n := by
    intro n hn
    have := onlyInBuf_peer (x := x.peer) (s := { s with handler := ⟨s.handler.active, []⟩ }) (t := s1)
      h.placed hb hn
    rw [Chan.peer_peer] at this; exact this
  generalize hgl : BitVec.ofNat 9 ((m + 1) % 262) = idx at *
  have c : s1.cfg = s.cfg := by rw [hr]
  refine ⟨by rw [handBack_cfg, c]; exact h.placed, by rw [handBack_started, hr]; exact h.isStarted,
    by rw [handBack_fault, hr]; exact h.noFault, by rw [handBack_pwm, hr]; exact h.pwmOn,
    by rw [handBack_inte, hr]; exact h.unmasked, h.turn, ?_, ?_, ?_, ?_, ?_, ?_, ?_, ?_, ?_, ?_, ?_, ?_, ?_, ?_⟩
  · simp [handBack]; rw [hr]; exact h.busy
  · simp [handBack]; rw [hr]; exact h.peerIdle
  · intro z
    rcases Chan.eq_or_peer x z with rfl | rfl
    · simp [handBack]; rw [hr]; exact h.reload _
    · simp [handBack]; rw [hr]; exact h.reload _
  · simp [handBack]; rw [hr]; exact h.countPos
  · simp [handBack]; rw [hr]; exact h.countMax
  · simp [handBack]; rw [hr]; exact h.reading
  · simp [handBack]; rw [hr]; exact h.ownedByDma
  · rw [handBack_intr, hr]; exact h.noIntr
  · intro _; rw [handBack_handler, hr]
  · simp [handBack]; rw [hr]; exact h.histLength
  · exact holdsLine_congr hkeep h.sending
  · refine .inl ⟨?_, ?_, ?_, ?_, ?_, hline⟩
    · simp [handBack]
    · rw [handBack_intr, hr]; exact q3
    · rw [handBack_handler, hr]
    · simp [handBack]
    · simp [handBack, hnl]
  · intro v hv h36
    simp only [handBack, Option.some.injEq] at hv
    subst hv
    have hv2 : (nextLine idx).toNat = (m+2) % 262 := by rw [hnl]; simp; omega
    rw [hv2] at h36 ⊢
    change s1.cursor = _
    have hact : classify idx = .active := by simp only [classify, hlt]; rw [if_neg (by omega), if_neg (by omega),
        if_pos (by omega)]
    rcases generate_cases hg with ⟨hc, _⟩ | ⟨hc, _⟩ | ⟨hc, ha⟩ | ⟨hc, _⟩ | ⟨hc, _⟩
      <;> (try (rw [hact] at hc; cases hc))
    obtain ⟨cur, ws, hcur, -, -, rfl⟩ := lineActive_ok.mp ha
    rw [show (markRender true (State.storePixels { s with handler := ⟨s.handler.active,
        []⟩ } x.peer cur ws)).cursor = some (cur + 320) by simp [State.storePixels]]
    have hcv : cur = BitVec.ofNat 17 (320 * ((m+1) % 262 - 36)) := by
      unfold lineCursor at hcur
      by_cases hi : idx = 36
      · rw [if_pos hi] at hcur
        have : (m+1) % 262 = 36 := by rw [← hlt, hi]; rfl
        rw [this]; simpa using hcur.symm
      · rw [if_neg hi] at hcur
        have : (m+1) % 262 ≠ 36 := fun h' => hi (BitVec.eq_of_toNat_eq (by rw [hlt, h']; rfl))
        have := h.cursorAt idx (by rw [q5, ← hgl]) (by rw [hlt]; omega)
        rw [hlt] at this
        change s.cursor = _ at hcur
        rw [this] at hcur; simpa using hcur.symm
    rw [hcv]; refine congrArg some ?_
    have : 320 * ((m + 1) % 262 - 36) + 320 = 320 * ((m + 2) % 262 - 36) := by omega
    rw [show fbWidth * ((m + 2) % 262 - 36) = 320 * ((m + 1) % 262 - 36) + 320 from this.symm, BitVec.ofNat_add]; rfl
  · change ∀ i < s1.dmaHist.length, ∀ w, _ → s1.dmaHist[i]? = some w
    rw [hr]; exact h.emitted

/-- The faults of the running engine: a host operation that START has closed, a missed deadline,
    or a pixel that names an
unwritten palette sample (R153). -/
theorem running_fault {s : State} {m : Nat} {x : Chan} {i : Instr} {f : Fault} (h : Running s m x)
    (hs : schedulable i s = true) (hx : exec i s = .fault f) :
    (∃ a b c d, i = .palWrite a b c d ∧ f = .palAfterStart) ∨ (i = .start ∧ f = .startTwice) ∨
    (i = .dmaXfer x ∧ (s.dma.get x).count = 1 ∧ s.pend.get x.peer = true ∧ f = .deadline) ∨
    (i = .irqService ∧ f = .palUnwritten ∧ ∃ cur : Nat,
        cur + 320 ≤ 76800 ∧ pixelWords s.cfg s.mem cur 0 320 = none) := by
  have hst := h.isStarted
  have hc := exec_fault h.noFault hx
  cases i <;> simp only [FaultCause] at hc
  case palWrite a b c d => left; exact ⟨_, _, _, _, rfl, hc.2⟩
  case start => right; left; rcases hc with h | h; exact ⟨rfl, h.2⟩; rw [hst] at h; cases h.1
  case dmaXfer y =>
    obtain ⟨he, ht⟩ := hc
    right; right; left
    have hyx : y = x := by
      rcases Chan.eq_or_peer x y with rfl | rfl
      · rfl
      · simp [dmaXferEnabled, h.peerIdle] at he
    subst hyx
    have hcp := h.countPos
    have hcm := h.countMax
    have hfit := placementOk_fits h.placed y
    have han : (s.cfg.bufBase y + BitVec.ofNat 32 (2 * (908 - (s.dma.get y).count.toNat))).toNat =
        (s.cfg.bufBase y).toNat + 2 * (908 - (s.dma.get y).count.toNat) := by
      simp [samplesPerLine] at *; omega
    rcases transfer_error ht with ⟨_, hh⟩ | ⟨_, addr, hh, hn⟩ | ⟨addr, v, hh, hc, hcr⟩
    · have := hh _ h.reading
      simp only [inOwnBuf, samplesPerLine, han, decide_eq_false_iff_not, bufBytes] at this
      exfalso; apply this; simp [samplesPerLine] at hcm; omega
    · rw [h.reading] at hh
      simp only [Option.some.injEq, samplesPerLine] at hh
      obtain ⟨v, hv, -⟩ := h.sending (908 - (s.dma.get y).count.toNat) (by simp [samplesPerLine]; omega)
      rw [← hh, han] at hn
      have : s.buf y (908 - (s.dma.get y).count.toNat) = none := hn
      rw [hv] at this; cases this
    · rw [completeRun_eq] at hcr
      have hc1 : (s.dma.get y).count = 1 := by
        have := congrArg (· + 1) hc; simpa using this
      rcases trigger_error.mp hcr with ⟨_, hb⟩ | ⟨hf, _, hp⟩
      · simp [runOver, State.moveSample, h.peerIdle] at hb
      · exact ⟨rfl, hc1, by simpa [runOver, State.moveSample] using hp, hf⟩
  case dmaComplete => simp [schedulable] at hs
  case irqService =>
    right; right; right
    obtain ⟨-, y, rest, htodo, hl⟩ := hc
    refine ⟨rfl, ?_⟩
    obtain ⟨rfl, rfl, q2, q5⟩ := service_ctx h htodo
    have hlm : s.lineToMake = BitVec.ofNat 9 ((m + 1) % 262) := by simp [State.lineToMake, q5]
    have hl262 : (m + 1) % 262 < 262 := Nat.mod_lt _ (by decide)
    have hlt : (BitVec.ofNat 9 ((m + 1) % 262)).toNat = (m+1) % 262 := by simp; omega
    rw [hlm] at hl
    have hact : classify (BitVec.ofNat 9 ((m + 1) % 262)) = .active := by
      have hsv := (exec_fault h.noFault hx)
      by_contra hna
      have := whenEnabled_fault.mp hx
      rcases this with h' | ⟨_, _, h'⟩
      · rw [h.noFault] at h'; cases h'
      · simp only [htodo] at h'
        rcases bind_error.mp (finish_fault.mp h') with h' | ⟨_, _, h'⟩
        · rw [hlm] at h'; exact hna (generate_error h').2
        · cases h'
    have h36 : 36 ≤ (m+1) % 262 := by
      simp only [classify, hlt] at hact
      by_contra hh
      split at hact; cases hact
      split at hact; cases hact
      rw [if_neg (by omega)] at hact
      split at hact <;> cases hact
    have hcur : ∃ cur : BitVec 17,
        lineCursor (BitVec.ofNat 9 ((m + 1) % 262)) { s with handler := { s.handler with todo := [] } } = some cur ∧
          cur.toNat + 320 ≤ 76800 := by
      unfold lineCursor
      by_cases hi : (BitVec.ofNat 9 ((m + 1) % 262)) = 36
      · rw [if_pos hi]; exact ⟨0, rfl, by simp⟩
      · rw [if_neg hi]
        have : (m+1) % 262 ≠ 36 := fun h' => hi (by rw [h']; rfl)
        have := h.cursorAt _ q5 (by rw [hlt]; omega)
        rw [hlt] at this
        exact ⟨_, this, by simp only [fbWidth, BitVec.toNat_ofNat]; rw [Nat.mod_eq_of_lt (by omega)]; omega⟩
    obtain ⟨cur, hcur, hle⟩ := hcur
    rcases lineActive_error hl with ⟨-, h'⟩ | ⟨cur', h', ⟨-, h''⟩ | ⟨h'', hp⟩⟩
    · rw [hcur] at h'; cases h'
    · rw [hcur] at h'; cases h'; omega
    · rw [hcur] at h'; cases h'; exact ⟨h'', _, hle, hp⟩
  case genTest => simp [hst] at hc
  all_goals first | exact hc.elim | simp [schedulable, hst] at hs

end Sys2Proof.Machine
end

