-- ==== Sys2Proof/Laws/Paced.lean ====
section
/-!
SUPPORT. The paced schedule (R84's PACED, one access at a time): from every paced state of the engine its next access
completes and leaves a paced state, so that the premises of R172, R174, R177 and R179 can be met together.
-/
namespace Sys2Proof.Machine

/-! ### When an operation completes -/

/-- A fault-free state in which the operation is enabled, and which it does not fault in, has a next state. -/
theorem exec_completes {i : Instr} {s : State} (hf : s.fault = none) (he : enabled i s = true)
    (hn : ∀ f, exec i s ≠ .fault f) : ∃ t, exec i s = .next t := by
  cases hx : exec i s with
  | next t => exact ⟨t, rfl⟩
  | fault f => exact absurd hx (hn f)
  | refused r =>
    exfalso
    have run {en : Bool} {k : Result} (h : whenEnabled en s k = .refused r) (h' : en = true) : k = .refused r := by
      rwa [whenEnabled_run hf h'] at h
    have fin {e : Except Fault State} (h : finish e = .refused r) : False := by cases e <;> cases h
    cases i with
    | palWrite => have := run hx rfl; revert this; repeat' split
                  all_goals simp
    | start => have := run hx rfl; revert this; repeat' split
               all_goals first | exact fin | simp
    | rdFrameCount => have := run hx rfl; revert this; split <;> simp [refuse]
    | rdRenderActive => have := run hx rfl; revert this; split <;> simp [refuse]
    | pwmWrap => cases run hx he
    | dmaXfer => exact fin (run hx he)
    | dmaComplete => exact fin (run hx rfl)
    | irqEntry => cases run hx he
    | irqService =>
      have h := run hx he
      simp only [enabled, irqServiceEnabled, Bool.and_eq_true, Bool.not_eq_true'] at he
      cases ht : s.handler.todo with
      | nil => simp [ht] at he
      | cons y rest => rw [ht] at h; exact fin h
    | irqReturn => cases run hx he
    | fbWrite => have := run hx rfl; revert this; split <;> simp [refuse]
    | genTest => have := run hx rfl; revert this; split
                 · simp [refuse]
                 · exact fin
    | genPreeq => cases run hx rfl
    | genVsync => cases run hx rfl
    | genActive => exact fin (run hx rfl)
    | genBottom => cases run hx rfl
    | genNowrite => cases run hx rfl

/-- A palette that covers the framebuffer leaves no pixel of a row without its samples (R90, R172). -/
theorem pixelWords_of_covers {s : State} {cur : Nat} (h : paletteCovers s []) (hc : cur + 320 ≤ 76800) :
    pixelWords s.cfg s.mem cur 0 320 ≠ none := by
  intro hn
  obtain ⟨i, hi, hp⟩ := pixelWords_eq_none.mp hn
  rw [Nat.zero_add] at hp
  obtain ⟨p, hfb⟩ : ∃ p, s.fb (cur + i) = some p :=
    Option.isSome_iff_exists.mp (read1_framebuffer (by simp only [fbBytes]; omega))
  have held : byteHeld s [] p := .inl ⟨cur + i, by simp only [fbBytes]; omega, hfb⟩
  obtain ⟨lo, hlo⟩ := Option.isSome_iff_exists.mp (h p held (2 * (i % 2)) (by omega))
  obtain ⟨hi', hhi⟩ := Option.isSome_iff_exists.mp (h p held (2 * (i % 2) + 1) (by omega))
  have : pixelWord s.cfg s.mem cur i = some (hi' ++ lo) := by
    refine pixelWord_eq_some.mpr ⟨p, hfb, ?_, ?_⟩
    · rw [hlo, BitVec.extractLsb'_append_eq_right]
    · rw [← Nat.add_assoc] at hhi
      rw [hhi, BitVec.extractLsb'_append_eq_left]
  rw [this] at hp
  cases hp

/-! ### What a transfer and a service leave alone -/

/-- What a transfer does beside the channels and the completion marks (R116). -/
theorem transfer_frame {x : Chan} {s t : State} (h : transfer x s = .ok t) :
    t.cfg = s.cfg ∧ t.mem = s.mem ∧ t.handler = s.handler ∧ t.dreq = s.dreq - 1 ∧ t.outHist = s.outHist ∧
      t.dmaHist.length = s.dmaHist.length + 1 := by
  obtain ⟨addr, v, -, -, -, ⟨-, rfl⟩ | ⟨-, hc⟩⟩ := transfer_ok h
  · simp [State.moveSample]
  · rw [completeRun_eq] at hc
    obtain ⟨-, -, rfl⟩ := trigger_ok.mp hc
    simp [State.moveSample, runOver]

/-- What a service does beside the generation, in the fields that pace the engine (R127). -/
theorem service_frame {x : Chan} {rest : List Chan} {s t : State} (hp : placementOk s.cfg = true)
    (h : service x rest s = .ok t) :
    t.cfg = s.cfg ∧ t.handler = ⟨s.handler.active, rest⟩ ∧ t.dreq = s.dreq ∧ t.outHist = s.outHist ∧
      t.dmaHist = s.dmaHist ∧ t.pend = s.pend.set x false ∧ (∀ j < 1024, t.pal j = s.pal j) ∧
      ∀ o < 76800, t.fb o = s.fb o := by
  obtain ⟨s1, hg, h2⟩ := bind_ok.mp h
  cases h2
  have hr := (generate_onlyGenerated hg).rest
  have hb := generate_onlyInBuf hg
  refine ⟨by rw [handBack_cfg, hr], by rw [handBack_handler, hr], by rw [handBack_dreq, hr], by rw [handBack_outHist, hr],
    by rw [handBack_dmaHist, hr], by simp only [handBack]; rw [hr], fun j hj => ?_, fun o ho => ?_⟩
  · exact onlyInBuf_pal (s := { s with handler := ⟨s.handler.active, rest⟩ }) hp hb hj
  · exact onlyInBuf_fb (s := { s with handler := ⟨s.handler.active, rest⟩ }) hp hb ho

/-- Covering speaks of the palette and the framebuffer only. -/
theorem paletteCovers_congr {s t : State} (h : paletteCovers s []) (hp : ∀ j < 1024, t.pal j = s.pal j)
    (hf : ∀ o < 76800, t.fb o = s.fb o) : paletteCovers t [] := by
  rintro p (⟨o, ho, hfb⟩ | ⟨acc, hacc, -⟩) q hq
  · have := p.isLt
    rw [hp _ (by omega)]
    exact h p (.inl ⟨o, ho, by rw [← hf o ho]; exact hfb⟩) q hq
  · cases hacc

/-- A palette loaded in full covers every run (R172's simplest form). -/
theorem paletteCovers_of_loaded {s : State} (h : paletteLoaded s) (accs : List Access) : paletteCovers s accs := by
  intro p _ q hq
  have := p.isLt
  exact h _ (by omega)

/-- Accesses that write no byte of a row keep FB_QUIET for it. -/
theorem fbQuiet_of_noWrites {row : Nat} {accs : List Access} (h : ∀ acc ∈ accs, ¬writesRow row acc) (s : State) :
    fbQuiet row s accs := by
  induction accs generalizing s with
  | nil => trivial
  | cons acc rest ih =>
    exact ⟨fun _ => h acc (by simp), fun s' _ => ih (fun c hc => h c (by simp [hc])) s'⟩

/-! ### The schedule -/

/-- The operation that the paced schedule makes next: the handler runs as soon as it can, then the transfer that is asked
for, then the wrap. -/
def pacedInstr (s : State) : Instr :=
  if s.handler.active = true then (if s.handler.todo = [] then .irqReturn else .irqService)
  else if s.irqLine = true then .irqEntry
  else if 0 < s.dreq then .dmaXfer (if s.dma.a.busy = true then .a else .b)
  else .pwmWrap

/-- The next access of the paced schedule. -/
def pacedAccess (s : State) : Access := encode (pacedInstr s)

/-- The engine under the paced schedule, `x` sending run `m`. -/
structure Paced (s : State) (m : Nat) (x : Chan) : Prop where
  running : Running s m x
  covers : paletteCovers s []
  oneRequest : s.dreq ≤ 1
  idleRequest : s.handler.active = true → s.dreq = 0
  ownedRequest : s.pend.get x.peer = true → s.dreq = 0
  counted : s.outHist.length = s.dmaHist.length + s.dreq

/-- How far the next wrap is. -/
def pacedRank (s : State) : Nat :=
  if s.handler.active = true then
    (if s.handler.todo ≠ [] then 2 else if s.irqLine = true then 4 else 1)
  else if s.irqLine = true then 3
  else if 0 < s.dreq then 5
  else 0

theorem pacedInstr_mem (s : State) :
    pacedInstr s ∈ [Instr.pwmWrap, .dmaXfer .a, .dmaXfer .b, .irqEntry, .irqService, .irqReturn] := by
  unfold pacedInstr
  repeat' split
  all_goals simp

theorem decode_pacedAccess (s : State) : decode (pacedAccess s) = .ok (pacedInstr s) := by
  have := pacedInstr_mem s
  simp only [List.mem_cons, List.not_mem_nil, or_false] at this
  unfold pacedAccess
  rcases this with h | h | h | h | h | h <;> rw [h] <;> decide

theorem schedulable_pacedInstr (s t : State) : schedulable (pacedInstr s) t = true := by
  have := pacedInstr_mem s
  simp only [List.mem_cons, List.not_mem_nil, or_false] at this
  rcases this with h | h | h | h | h | h <;> rw [h] <;> rfl

/-- The step of the paced schedule is the meaning of its operation. -/
theorem step_paced {s : State} (hf : s.fault = none) :
    step (s.withAccess (pacedAccess s)) = exec (pacedInstr s) (s.advance s.inbox) := by
  rw [step_withAccess hf, present, decode_pacedAccess]
  simp only [schedulable_pacedInstr, if_true]

/-- The interrupt line of the running engine is the peer's completion bit. -/
theorem irqLine_running {s : State} {m : Nat} {x : Chan} (h : Running s m x) : s.irqLine = s.intr.get x.peer := by
  have h1 := h.noIntr
  have h2 := h.unmasked
  cases x <;> simp [State.irqLine, State.ints, Pair.get, h2] at * <;> simp_all

/-- The busy channel. -/
theorem busy_running {s : State} {m : Nat} {x : Chan} (h : Running s m x) :
    (if s.dma.a.busy = true then Chan.a else .b) = x := by
  have h1 := h.busy
  have h2 := h.peerIdle
  cases x
  · exact if_pos h1
  · exact if_neg (fun h' => by rw [Chan.peer_b] at h2; exact absurd h' (by simpa [Pair.get] using h2))

/-- What one access of the paced schedule leaves behind, beside a paced state (R119, R174, R177). -/
structure PacedStep (s t : State) (x : Chan) : Prop where
  marked :
    (markOf (pacedAccess s) s = none ∧ t.pend = s.pend) ∨
      (markOf (pacedAccess s) s = some (.completed x) ∧ s.pend.get x.peer = false ∧ t.pend = s.pend.set x true) ∨
      markOf (pacedAccess s) s = some (.serviced x.peer)
  paced : pacedInstr s = .pwmWrap → s.dreq = 0
  output : t.outHist.length = s.outHist.length + if pacedInstr s = .pwmWrap then 1 else 0
  nearer : pacedInstr s = .pwmWrap ∨ pacedRank t < pacedRank s

/-- From every paced state the next access of the schedule completes and leaves a paced state. -/
theorem paced_step {s : State} {m : Nat} {x : Chan} (h : Paced s m x) :
    ∃ t m' x', step (s.withAccess (pacedAccess s)) = .next t ∧ Paced t m' x' ∧ PacedStep s t x := by
  have hr := h.running
  have ha := running_advance s.inbox hr
  have hirq := irqLine_running hr
  have peer := hr.peer
  have markIs := fun {mk : Option Mark} (e : (match (Except.ok (pacedInstr s) : Except DecodeError Instr) with
      | .ok (.dmaXfer z) => if (s.dma.get z).count = 1 then some (Mark.completed z) else none
      | .ok .irqService => s.handler.todo.head?.map .serviced
      | _ => none) = mk) => (show markOf (pacedAccess s) s = mk by unfold markOf; rw [decode_pacedAccess]; exact e)
  rw [step_paced hr.noFault]
  by_cases hact : s.handler.active = true
  · have hdreq := h.idleRequest hact
    by_cases htodo : s.handler.todo = []
    · -- the return
      have hi : pacedInstr s = .irqReturn := by simp [pacedInstr, hact, htodo]
      rw [hi] at markIs ⊢
      have hx : exec .irqReturn (s.advance s.inbox) = .next (leaveHandler (s.advance s.inbox)) :=
        whenEnabled_run hr.noFault (by simp [irqReturnEnabled, State.advance, hact, htodo])
      refine ⟨_, m, x, hx, ⟨running_return ha (exec_effect hx).2, h.covers, h.oneRequest, fun _ => hdreq,
        h.ownedRequest, h.counted⟩, .inl ⟨markIs rfl, rfl⟩, fun _ => hdreq, by rw [hi]; rfl, .inr ?_⟩
      have e : (leaveHandler (s.advance s.inbox)).irqLine = s.irqLine := rfl
      simp only [pacedRank, hact, htodo, e]
      simp only [leaveHandler, State.advance, hdreq]
      cases s.irqLine <;> simp
    · -- the service
      have hi : pacedInstr s = .irqService := by simp [pacedInstr, hact, htodo]
      rw [hi] at markIs ⊢
      obtain ⟨y, rest, ht⟩ := List.exists_cons_of_ne_nil htodo
      obtain ⟨rfl, rfl, hpend, -⟩ := service_ctx hr ht
      obtain ⟨t, hx⟩ := exec_completes (i := .irqService) (s := s.advance s.inbox) hr.noFault
        (by simp [enabled, irqServiceEnabled, State.advance, hact, ht]) (fun f hf => by
          rcases running_fault ha rfl hf with ⟨_, _, _, _, h', -⟩ | ⟨h', -⟩ | ⟨h', -⟩ | ⟨-, -, cur, hle, hn⟩
          · cases h'
          · cases h'
          · cases h'
          · exact pixelWords_of_covers h.covers hle hn)
      obtain ⟨-, heff⟩ := exec_effect hx
      have hrt := running_service ha heff
      obtain ⟨-, y, rest, ht', hsv⟩ := heff
      have ht'' : s.handler.todo = y :: rest := ht'
      rw [ht] at ht''
      cases ht''
      obtain ⟨-, f1, f2, f3, f4, f5, f6, f7⟩ := service_frame (s := s.advance s.inbox) hr.placed hsv
      have hp' : t.pend.get x.peer = false := by rw [f5]; exact Pair.get_set _ _ _
      have hirq' : t.irqLine = false := by
        rw [irqLine_running hrt]
        rcases hrt.peer with ⟨-, h', -⟩ | ⟨-, h', -⟩
        · exact h'
        · rw [hp'] at h'; cases h'
      refine ⟨t, m, x, hx, ⟨hrt, paletteCovers_congr h.covers f6 f7, by rw [f2]; exact h.oneRequest,
        fun _ => by rw [f2]; exact hdreq, fun _ => by rw [f2]; exact hdreq, by rw [f2, f3, f4]; exact h.counted⟩,
        .inr (.inr (markIs (by simp [ht]))), fun _ => hdreq, by rw [hi, f3]; rfl, .inr ?_⟩
      have hact' : t.handler.active = true := by rw [f1]; exact hact
      have htodo' : t.handler.todo = [] := by rw [f1]
      simp [pacedRank, hact, htodo, hact', htodo', hirq']
  · have hti := hr.idleTodo (by simpa using hact)
    by_cases hline : s.irqLine = true
    · -- the entry
      have hi : pacedInstr s = .irqEntry := by simp [pacedInstr, hact, hline]
      rw [hi] at markIs ⊢
      have hx : exec .irqEntry (s.advance s.inbox) = .next (enterHandler (s.advance s.inbox)) :=
        whenEnabled_run hr.noFault (by
          unfold irqEntryEnabled
          rw [show (s.advance s.inbox).irqLine = true from hline]
          simp [State.advance, hr.isStarted, hact])
      have hdreq : s.dreq = 0 := by
        rcases peer with ⟨-, h', -⟩ | ⟨-, h', -⟩
        · rw [hirq, h'] at hline; cases hline
        · exact h.ownedRequest h'
      have hrt := running_entry ha (exec_effect hx).2
      refine ⟨_, m, x, hx, ⟨hrt, h.covers, h.oneRequest, fun _ => hdreq, h.ownedRequest, h.counted⟩,
        .inl ⟨markIs rfl, rfl⟩, fun _ => hdreq, by rw [hi]; rfl, .inr ?_⟩
      have hne : (enterHandler (s.advance s.inbox)).handler.todo ≠ [] := by
        intro he
        rcases hrt.peer with ⟨h', -⟩ | ⟨-, -, ⟨h', -⟩ | ⟨-, h'⟩, -⟩
        · have h'' : s.pend.get x.peer = false := h'
          rcases peer with ⟨-, h3, -⟩ | ⟨-, h3, -⟩
          · rw [hirq, h3] at hline; cases hline
          · rw [h''] at h3; cases h3
        · have h1 := hr.unmasked
          rw [hirq] at hline
          cases x <;> simp_all [enterHandler, State.ints, Pair.get, State.advance]
        · rw [he] at h'; cases h'
      have hact' : (enterHandler (s.advance s.inbox)).handler.active = true := rfl
      unfold pacedRank
      rw [if_pos hact', if_pos hne, if_neg hact, if_pos hline]
      decide
    · have hpend : s.pend.get x.peer = false := by
        rcases peer with ⟨h', -⟩ | ⟨-, -, ⟨h', -⟩ | ⟨-, h'⟩, -⟩
        · exact h'
        · rw [hirq, h'] at hline; exact absurd rfl hline
        · rw [hti] at h'; cases h'
      by_cases hreq : 0 < s.dreq
      · -- the transfer
        have hi : pacedInstr s = .dmaXfer x := by simp [pacedInstr, hact, hline, hreq, busy_running hr]
        rw [hi] at markIs ⊢
        have hcp := hr.countPos
        obtain ⟨t, hx⟩ := exec_completes (i := .dmaXfer x) (s := s.advance s.inbox) hr.noFault
          (by simp [enabled, dmaXferEnabled, State.advance, hr.isStarted, hr.busy, hcp, hreq]) (fun f hf => by
            rcases running_fault ha rfl hf with ⟨_, _, _, _, h', -⟩ | ⟨h', -⟩ | ⟨-, -, h', -⟩ | ⟨h', -⟩
            · cases h'
            · cases h'
            · have h'' : s.pend.get x.peer = true := h'
              rw [hpend] at h''; cases h''
            · cases h')
        obtain ⟨-, -, htr⟩ := exec_effect hx
        obtain ⟨f0, f1, f2, f3, f4, f5⟩ := transfer_frame htr
        have f3 : t.dreq = 0 := by
          have := h.oneRequest
          rw [f3]; simp only [State.advance]; omega
        have hcov : paletteCovers t [] := paletteCovers_congr h.covers
          (fun j _ => pal_congr f0 (byteAt_congr f1 f0 _) (byteAt_congr f1 f0 _)) (fun o _ => by
            simp only [State.fb]; rw [f0, f1]; rfl)
        have hcnt : t.outHist.length = t.dmaHist.length + t.dreq := by
          have := h.counted
          have := h.oneRequest
          rw [f3, f4, f5]; simp only [State.advance]; omega
        have hact' : ¬t.handler.active = true := by rw [f2]; exact hact
        have hrank : pacedRank t < pacedRank s := by
          simp only [pacedRank, hact, hline, hreq, hact', f3]
          cases t.irqLine <;> simp
        rcases running_xfer ha htr with ⟨hc, hp, hrt⟩ | ⟨hc, -, hp, hrt⟩
        · exact ⟨t, m, x, hx, ⟨hrt, hcov, by omega, fun _ => f3, fun _ => f3, hcnt⟩,
            .inl ⟨markIs (if_neg hc), hp⟩, fun h' => by simp [hi] at h', by rw [hi, f4]; rfl, .inr hrank⟩
        · exact ⟨t, m + 1, x.peer, hx, ⟨hrt, hcov, by omega, fun _ => f3, fun _ => f3, hcnt⟩,
            .inr (.inl ⟨markIs (if_pos hc), hpend, hp⟩), fun h' => by simp [hi] at h', by rw [hi, f4]; rfl,
            .inr hrank⟩
      · -- the wrap
        have hi : pacedInstr s = .pwmWrap := by simp [pacedInstr, hact, hline, hreq]
        rw [hi] at markIs ⊢
        have hx : exec .pwmWrap (s.advance s.inbox) = .next { s.advance s.inbox with
            pwm := { s.pwm with cmpB := s.pwm.ccB }, outHist := s.outHist ++ [s.pwm.ccB], dreq := s.dreq + 1 } :=
          whenEnabled_run hr.noFault (by simp [pwmWrapEnabled, State.advance, hr.isStarted, hr.pwmOn])
        refine ⟨_, m, x, hx, ⟨running_wrap ha (exec_effect hx).2, h.covers, ?_, fun h' => absurd h' hact, fun h' => ?_, ?_⟩,
          .inl ⟨markIs rfl, rfl⟩, fun _ => by omega, by rw [hi]; simp, .inl hi⟩
        · simp only; omega
        · have h'' : s.pend.get x.peer = true := h'
          rw [hpend] at h''; cases h''
        · have := h.counted
          simp only [List.length_append, List.length_singleton, State.advance]; omega

/-! ### Paced runs -/

/-- The state after the next access of the paced schedule. -/
def pacedNext (s : State) : State :=
  match step (s.withAccess (pacedAccess s)) with
  | .next t => t
  | .fault _ => s
  | .refused _ => s

/-- The next `n` accesses of the paced schedule. -/
def pacedAccs : Nat → State → List Access
  | 0, _ => []
  | n + 1, s => pacedAccess s :: pacedAccs n (pacedNext s)

theorem pacedAccs_snoc (n : Nat) (s : State) :
    pacedAccs (n + 1) s = pacedAccs n s ++ [pacedAccess (pacedNext^[n] s)] := by
  induction n generalizing s with
  | zero => rfl
  | succ n ih => rw [pacedAccs, ih]; rfl

/-- What the paced schedule is made of. -/
theorem pacedAccs_decode {n : Nat} {s : State} {c : Access} (h : c ∈ pacedAccs n s) :
    ∃ i ∈ [Instr.pwmWrap, .dmaXfer .a, .dmaXfer .b, .irqEntry, .irqService, .irqReturn], decode c = .ok i := by
  induction n generalizing s with
  | zero => cases h
  | succ n ih =>
    rcases List.mem_cons.mp h with rfl | h
    · exact ⟨_, pacedInstr_mem s, decode_pacedAccess s⟩
    · exact ih h

/-- The paced schedule writes no framebuffer byte. -/
theorem pacedAccs_noWrite {n : Nat} {s : State} {c : Access} (h : c ∈ pacedAccs n s) (offset : BitVec 17) (byte : Byte) :
    decode c ≠ .ok (.fbWrite offset byte) := by
  obtain ⟨i, hi, hd⟩ := pacedAccs_decode h
  rw [hd]
  rintro he
  cases he
  simp at hi

/-- A palette that covers the framebuffer covers it for the whole of a paced run. -/
theorem paletteCovers_paced {s t : State} (h : paletteCovers s []) (n : Nat) : paletteCovers s (pacedAccs n t) := by
  rintro p (hp | ⟨acc, hacc, offset, hd⟩)
  · exact h p (.inl hp)
  · exact absurd hd (pacedAccs_noWrite hacc offset p)

/-- `paced_step`, for the state that the schedule goes on with. -/
theorem pacedNext_step {s : State} {m : Nat} {x : Chan} (h : Paced s m x) :
    step (s.withAccess (pacedAccess s)) = .next (pacedNext s) ∧ (∃ m' x', Paced (pacedNext s) m' x') ∧
      PacedStep s (pacedNext s) x := by
  obtain ⟨t, m', x', hs, ht, hp⟩ := paced_step h
  have : pacedNext s = t := by unfold pacedNext; rw [hs]
  rw [this]
  exact ⟨hs, ⟨m', x', ht⟩, hp⟩

theorem paced_iterate {s : State} (h : ∃ m x, Paced s m x) (k : Nat) : ∃ m x, Paced (pacedNext^[k] s) m x := by
  induction k generalizing s with
  | zero => exact h
  | succ k ih =>
    obtain ⟨m, x, h⟩ := h
    exact ih (pacedNext_step h).2.1

theorem paced_run {s : State} (h : ∃ m x, Paced s m x) (n : Nat) : Run s (pacedAccs n s) (pacedNext^[n] s) := by
  induction n generalizing s with
  | zero => exact .done s
  | succ n ih =>
    obtain ⟨m, x, h⟩ := h
    obtain ⟨hs, hn, -⟩ := pacedNext_step h
    exact .more hs (ih hn)

/-- A paced run is paced (R177). -/
theorem dmaPace_paced {s : State} (h : ∃ m x, Paced s m x) (n : Nat) : dmaPace s (pacedAccs n s) := by
  induction n generalizing s with
  | zero => trivial
  | succ n ih =>
    obtain ⟨m, x, h⟩ := h
    obtain ⟨hs, hn, hp⟩ := pacedNext_step h
    refine ⟨fun hd => hp.paced ?_, fun s' hs' => ?_⟩
    · rw [decode_pacedAccess] at hd
      simpa using hd
    · rw [hs] at hs'
      cases hs'
      exact ih hn

/-- A paced run is prompt (R174). -/
theorem handlerPrompt_paced {s : State} (h : ∃ m x, Paced s m x) (n : Nat) :
    handlerPrompt (marks s (pacedAccs n s)) = true ∧
      ∀ y, s.pend.get y = true → servedFirst y (marks s (pacedAccs n s)) = true := by
  induction n generalizing s with
  | zero => exact ⟨rfl, fun _ _ => rfl⟩
  | succ n ih =>
    obtain ⟨m, x, h⟩ := h
    obtain ⟨hs, hn, hp⟩ := pacedNext_step h
    obtain ⟨i1, i2⟩ := ih hn
    have hm : marks s (pacedAccs (n + 1) s) =
        (markOf (pacedAccess s) s).toList ++ marks (pacedNext s) (pacedAccs n (pacedNext s)) := by
      rw [pacedAccs, marks, hs]
    have own : ∀ y, s.pend.get y = true → y = x.peer := by
      intro y hy
      rcases Chan.eq_or_peer x y with rfl | rfl
      · rw [h.running.ownedByDma] at hy; cases hy
      · rfl
    rw [hm]
    rcases hp.marked with ⟨hk, hpe⟩ | ⟨hk, hpe, hpe'⟩ | hk
    · rw [hk]
      exact ⟨i1, fun y hy => i2 y (by rw [hpe]; exact hy)⟩
    · rw [hk]
      refine ⟨?_, fun y hy => ?_⟩
      · simp only [Option.toList, List.cons_append, List.nil_append, handlerPrompt, i1, Bool.and_true]
        exact i2 x (by rw [hpe']; exact Pair.get_set _ _ _)
      · rw [own y hy, hpe] at hy; cases hy
    · rw [hk]
      refine ⟨?_, fun y hy => ?_⟩
      · simpa only [Option.toList, List.cons_append, List.nil_append, handlerPrompt] using i1
      · simp [servedFirst, own y hy]

/-- A paced run makes a wrap within reach of every state. -/
theorem paced_wraps {s : State} (h : ∃ m x, Paced s m x) : ∃ k, pacedInstr (pacedNext^[k] s) = .pwmWrap := by
  generalize hr : pacedRank s = r
  induction r using Nat.strongRecOn generalizing s with
  | _ r ih =>
    obtain ⟨m, x, h⟩ := h
    obtain ⟨-, hn, hp⟩ := pacedNext_step h
    rcases hp.nearer with hw | hlt
    · exact ⟨0, hw⟩
    · obtain ⟨k, hk⟩ := ih _ (hr ▸ hlt) hn rfl
      exact ⟨k + 1, hk⟩

/-- A paced run outputs any number of samples. -/
theorem paced_output {s : State} (h : ∃ m x, Paced s m x) (n : Nat) : ∃ k, n ≤ (pacedNext^[k] s).outHist.length := by
  have grows : ∀ k {s : State}, (∃ m x, Paced s m x) → s.outHist.length ≤ (pacedNext^[k] s).outHist.length := by
    intro k
    induction k with
    | zero => exact fun _ => Nat.le_refl _
    | succ k ih =>
      rintro s ⟨m, x, h⟩
      obtain ⟨-, hn, hp⟩ := pacedNext_step h
      exact Nat.le_trans (by rw [hp.output]; omega) (ih hn)
  induction n with
  | zero => exact ⟨0, Nat.zero_le _⟩
  | succ n ih =>
    obtain ⟨k, hk⟩ := ih
    obtain ⟨j, hj⟩ := paced_wraps (paced_iterate h k)
    obtain ⟨m, x, hjs⟩ := paced_iterate (paced_iterate h k) j
    obtain ⟨-, -, hp⟩ := pacedNext_step hjs
    refine ⟨1 + (j + k), ?_⟩
    have := grows j (paced_iterate h k)
    rw [Function.iterate_add_apply, Function.iterate_add_apply]
    change n + 1 ≤ (pacedNext (pacedNext^[j] (pacedNext^[k] s))).outHist.length
    rw [hp.output, if_pos hj]
    omega

/-- The paced schedule without an end. -/
theorem paced_endless {s : State} (h : ∃ m x, Paced s m x) :
    EndlessRun (fun k => pacedNext^[k] s) (fun k => pacedAccess (pacedNext^[k] s)) := by
  intro k
  obtain ⟨m, x, hk⟩ := paced_iterate h k
  have := (pacedNext_step hk).1
  simpa only [Function.iterate_succ_apply'] using this

/-- The paced schedule without an end is weakly fair (R179). -/
theorem paced_fair {s : State} (h : ∃ m x, Paced s m x) :
    WeaklyFair (fun k => pacedNext^[k] s) (fun k => pacedAccess (pacedNext^[k] s)) := by
  intro agent hagent k hen
  obtain ⟨-, i, hi, he⟩ := hen k (Nat.le_refl _)
  obtain ⟨m, x, hk⟩ := paced_iterate h k
  have hr := hk.running
  have now (hj : agentOf (pacedInstr (pacedNext^[k] s)) = some agent) :
      ∃ j, k ≤ j ∧ isStepOf agent (pacedAccess (pacedNext^[j] s)) :=
    ⟨k, Nat.le_refl _, _, decode_pacedAccess _, hj⟩
  have transferring {y : Chan} (he : enabled (.dmaXfer y) (pacedNext^[k] s) = true) :
      pacedInstr (pacedNext^[k] s) = .dmaXfer y := by
    simp only [enabled, dmaXferEnabled, Bool.and_eq_true, decide_eq_true_eq] at he
    have hy : y = x := by
      rcases Chan.eq_or_peer x y with rfl | rfl
      · rfl
      · rw [hr.peerIdle] at he; simp at he
    have hact : ¬(pacedNext^[k] s).handler.active = true := fun h' => by have := hk.idleRequest h'; omega
    have hline : ¬(pacedNext^[k] s).irqLine = true := by
      rw [irqLine_running hr]
      rcases hr.peer with ⟨-, h', -⟩ | ⟨-, h', -⟩
      · simp [h']
      · have := hk.ownedRequest h'; omega
    rw [pacedInstr, if_neg hact, if_neg hline, if_pos he.2, busy_running hr, hy]
  simp only [List.mem_cons, List.not_mem_nil, or_false] at hagent
  rcases hagent with rfl | rfl | rfl | rfl
  · obtain ⟨j, hj⟩ := paced_wraps (paced_iterate h k)
    rw [← Function.iterate_add_apply] at hj
    exact ⟨j + k, by omega, _, decode_pacedAccess _, by rw [hj]; rfl⟩
  · cases i <;> simp [agentOf] at hi
    subst hi
    exact now (by rw [transferring he]; rfl)
  · cases i <;> simp [agentOf] at hi
    subst hi
    exact now (by rw [transferring he]; rfl)
  · refine now ?_
    by_cases hact : (pacedNext^[k] s).handler.active = true
    · rw [pacedInstr, if_pos hact]
      split <;> rfl
    · have hline : (pacedNext^[k] s).irqLine = true := by
        cases i <;> simp [agentOf] at hi <;> simp [enabled, irqEntryEnabled, irqServiceEnabled, irqReturnEnabled] at he
        · exact he.1.2
        · exact absurd he.1 hact
        · exact absurd he.1 hact
      rw [pacedInstr, if_neg hact, if_pos hline]
      rfl

/-- START leaves the engine paced, if the palette covers the framebuffer (R170, R172). -/
theorem start_paced {s t : State} (hs : BeforeStart s) (hc : paletteCovers s []) (h : exec .start s = .next t) :
    Paced t 0 .a := by
  have hr := start_running hs h
  obtain ⟨-, -, -, -, ht⟩ := exec_effect h
  obtain ⟨-, -, ht⟩ := trigger_ok.mp ht
  have gA : generate .a 0 (startConfigured s) = .ok (linePreeq .a (startConfigured s)) := rfl
  have gB : generate .b 1 (linePreeq .a (startConfigured s)) = .ok (linePreeq .b (linePreeq .a (startConfigured s))) :=
    rfl
  have pA : placementOk (startConfigured s).cfg = true := hs.placed
  have pB : placementOk (linePreeq .a (startConfigured s)).cfg = true := by rw [linePreeq_cfg]; exact pA
  have hp : ∀ j < 1024, t.pal j = s.pal j := fun j hj => by
    have e : t.pal j = (startBuilt s).pal j := by rw [ht]; rfl
    have e2 := onlyInBuf_pal pB (generate_onlyInBuf gB) hj
    have e3 := onlyInBuf_pal pA (generate_onlyInBuf gA) hj
    exact e.trans (e2.trans e3)
  have hf : ∀ o < 76800, t.fb o = s.fb o := fun o ho => by
    have e : t.fb o = (startBuilt s).fb o := by rw [ht]; rfl
    have e2 := onlyInBuf_fb pB (generate_onlyInBuf gB) ho
    have e3 := onlyInBuf_fb pA (generate_onlyInBuf gA) ho
    exact e.trans (e2.trans e3)
  have hd : t.dreq = 0 := by rw [ht]; simp
  exact ⟨hr, paletteCovers_congr hc hp hf, by omega, fun _ => hd, fun _ => hd, by
    rw [hd, ht]; simp [hs.noDmaHist, hs.noOutHist]⟩

end Sys2Proof.Machine
end

