-- ==== Sys2Proof/Laws/PerInstr.lean ====
section
/-!
SUPPORT. Laws made per operation: the event code that the encoder puts into `[31:28]` of each event word (R80).
-/
namespace Sys2Proof.Laws.EventCode

/-- The code of R80 of the operations that are event words; none for a host access or a generator call. -/
def code : Instr → Option (BitVec 4)
  | .palWrite _ _ _ _ => none
  | .start => none
  | .rdFrameCount => none
  | .rdRenderActive => none
  | .pwmWrap => some 0x1
  | .dmaXfer _ => some 0x2
  | .dmaComplete _ => some 0x3
  | .irqEntry => some 0x4
  | .irqService => some 0x5
  | .irqReturn => some 0x6
  | .fbWrite _ _ => some 0x7
  | .genTest _ _ => some 0x8
  | .genPreeq _ _ => none
  | .genVsync _ _ => none
  | .genActive _ _ => none
  | .genBottom _ _ => none
  | .genNowrite _ _ => none

/-- The encoding of an operation is an event word exactly if R80 gives it a code, and then carries that code. -/
def Statement (i : Instr) : Prop :=
  match encode i with
  | .event w => code i = some (w.extractLsb' 28 4)
  | .host _ _ _ => code i = none
  | .gen _ _ => code i = none

theorem palWrite (index blue red green : BitVec 8) : Statement (.palWrite index blue red green) := rfl
theorem start : Statement .start := rfl
theorem rdFrameCount : Statement .rdFrameCount := rfl
theorem rdRenderActive : Statement .rdRenderActive := rfl
theorem pwmWrap : Statement .pwmWrap := rfl
theorem dmaXfer (x : Chan) : Statement (.dmaXfer x) := by cases x <;> rfl
theorem dmaComplete (x : Chan) : Statement (.dmaComplete x) := by cases x <;> rfl
theorem irqEntry : Statement .irqEntry := rfl
theorem irqService : Statement .irqService := rfl
theorem irqReturn : Statement .irqReturn := rfl

theorem fbWrite (offset : BitVec 17) (byte : Byte) : Statement (.fbWrite offset byte) := by
  refine congrArg some ?_
  ext i hi
  simp only [BitVec.getElem_extractLsb', BitVec.getLsbD_append]
  simp [show ¬28 + i < 8 by omega, show ¬28 + i - 8 < 17 by omega, show ¬28 + i - 8 - 17 < 3 by omega,
    show 28 + i - 8 - 17 - 3 = i by omega, BitVec.getLsbD_eq_getElem hi]

theorem genTest (x : Chan) (idx : LineIdx) : Statement (.genTest x idx) := by
  refine congrArg some ?_
  ext i hi
  simp only [BitVec.getElem_extractLsb', BitVec.getLsbD_append]
  simp [show ¬28 + i < 9 by omega, show ¬28 + i - 9 < 1 by omega, show ¬28 + i - 9 - 1 < 18 by omega,
    show 28 + i - 9 - 1 - 18 = i by omega, BitVec.getLsbD_eq_getElem hi]

theorem genPreeq (x : Chan) (idx : LineIdx) : Statement (.genPreeq x idx) := rfl
theorem genVsync (x : Chan) (idx : LineIdx) : Statement (.genVsync x idx) := rfl
theorem genActive (x : Chan) (idx : LineIdx) : Statement (.genActive x idx) := rfl
theorem genBottom (x : Chan) (idx : LineIdx) : Statement (.genBottom x idx) := rfl
theorem genNowrite (x : Chan) (idx : LineIdx) : Statement (.genNowrite x idx) := rfl

end Sys2Proof.Laws.EventCode
end

