-- ==== Sys2Proof/Tests/Slice0.lean ====
section
/-!
SUPPORT. The model's own tests: the vectors of spec/95_test_vectors.md, the words of the encoding tables, ill-formed
terms, and a concrete state that meets the hypotheses of each statement. Every expected value is the spec's.
-/
namespace Sys2Proof.Machine.Tests

/-! ### Helpers -/

/-- The result is a next state with the property. -/
def nextIs (r : Result) (p : State → Bool) : Bool :=
  match r with
  | .next s => p s
  | _ => false

/-- The result is the fault. -/
def faultIs (r : Result) (f : Fault) : Bool :=
  match r with
  | .fault g => decide (g = f)
  | _ => false

/-- The result is the answer to a step that is not enabled. -/
def isNotEnabled (r : Result) : Bool :=
  match r with
  | .refused .notEnabled => true
  | _ => false

/-- The step that one access makes. -/
def stepOn (acc : Access) (s : State) : Result := step (s.withAccess acc)

/-- The set-up of 2.4: palette entries 0 to 2 black, white, red; framebuffer bytes 0 and 1 are 2, byte 320 is 1. -/
def setup : State :=
  let cfg := Config.standard
  let pal := Memory.writeSamples cfg [] cfg.palBase 0 [2, 2, 2, 2, 9, 9, 9, 9, 7, 1, 1, 7]
  let fb := Memory.writeBytes cfg pal cfg.fbBase.toNat [2, 2]
  { State.reset with mem := Memory.writeBytes cfg fb (cfg.fbBase.toNat + 320) [1] }

/-- The framebuffer all 0 and palette entry 0 black: every line of row 0 can be made. -/
def black : State :=
  { State.reset with mem := Memory.writeSamples Config.standard [] Config.standard.palBase 0 [2, 2, 2, 2] }

/-- A channel of a started engine. -/
def channel (x : Chan) (n : Nat) (count : BitVec 32) (busy : Bool) : Dma where
  readAddr := some (Config.standard.bufBase x + BitVec.ofNat 32 (2 * n))
  writeAddr := some Config.standard.ccBAddr
  countReload := some 908
  count := count
  ctrl := some (ctrlValue Config.standard x)
  busy := busy

/-- The registers that START leaves (R170), with sample 0 of buffer A and nothing else in memory. -/
def engine : State :=
  { State.reset with
    started := true
    scanIdx := some 2
    inte := ⟨true, true⟩
    pwm := { en := true, div := some 0x020, top := some 10, ccB := 0, cmpB := 0, ctr := none }
    dma := ⟨channel .a 0 908 true, channel .b 0 0 false⟩
    mem := Memory.writeSamples Config.standard [] Config.standard.bufABase 0 [0] }

/-- The engine before the last transfer of channel A's first run, its request made (vector D4). -/
def lastSample : State :=
  { engine with
    dreq := 1
    dma := ⟨channel .a 907 1 true, channel .b 0 0 false⟩
    mem := Memory.writeSamples Config.standard [] Config.standard.bufABase 907 [2] }

/-- The engine after that transfer: A awaits its service, B runs (the end of vector D4). -/
def completed : State :=
  { engine with
    intr := ⟨true, false⟩
    pend := ⟨true, false⟩
    dma := ⟨channel .a 908 0 false, channel .b 0 908 true⟩ }

/-- The engine inside the handler, A to be serviced (vector H1). -/
def inHandler : State :=
  { completed with intr := ⟨false, false⟩, handler := ⟨true, [.a]⟩ }

/-- The engine with the handler done but not returned (vector H2). -/
def serviced : State :=
  { inHandler with handler := ⟨true, []⟩, pend := ⟨false, false⟩, dma := ⟨channel .a 0 0 false, channel .b 0 908 true⟩ }

/-! ### Ill-formed terms -/

theorem test_illformed_fbWrite : (Instr.fbWrite 76800 0).wellFormed = false := by decide
theorem test_illformed_genPreeq : (Instr.genPreeq .a 2).wellFormed = false := by decide
theorem test_illformed_genVsync : (Instr.genVsync .a 12).wellFormed = false := by decide
theorem test_illformed_genActive_low : (Instr.genActive .a 35).wellFormed = false := by decide
theorem test_illformed_genActive_high : (Instr.genActive .a 276).wellFormed = false := by decide
theorem test_illformed_genBottom : (Instr.genBottom .a 278).wellFormed = false := by decide
theorem test_illformed_genNowrite : (Instr.genNowrite .a 10).wellFormed = false := by decide
theorem test_wellformed_edges :
    (Instr.fbWrite 76799 255).wellFormed = true ∧ (Instr.genActive .a 36).wellFormed = true ∧
    (Instr.genActive .a 275).wellFormed = true ∧ (Instr.genNowrite .b 511).wellFormed = true := by decide

/-! ### Decoding (2.1, 2.2) -/

theorem test_decode_pwmWrap : decode (.event 0x10000000) = .ok .pwmWrap := by decide
theorem test_decode_dmaXfer :
    decode (.event 0x20000000) = .ok (.dmaXfer .a) ∧ decode (.event 0x20000001) = .ok (.dmaXfer .b) := by decide
theorem test_decode_dmaComplete : decode (.event 0x30000000) = .ok (.dmaComplete .a) := by decide
theorem test_decode_irq :
    decode (.event 0x40000000) = .ok .irqEntry ∧ decode (.event 0x50000000) = .ok .irqService ∧
    decode (.event 0x60000000) = .ok .irqReturn := by decide
theorem test_decode_fbWrite :
    decode (.event 0x70000002) = .ok (.fbWrite 0 2) ∧ decode (.event 0x70014001) = .ok (.fbWrite 320 1) ∧
    decode (.event 0x712BFFFF) = .ok (.fbWrite 76799 255) := by decide
theorem test_decode_genTest :
    decode (.event 0x80000025) = .ok (.genTest .a 37) ∧ decode (.event 0x80000225) = .ok (.genTest .b 37) ∧
    decode (.event 0x80000114) = .ok (.genTest .a 276) := by decide
theorem test_decode_event_refused :
    decode (.event 0x10000001) = .error .eventBits ∧ decode (.event 0x20000002) = .error .eventBits ∧
    decode (.event 0x712C0000) = .error .fbOffset ∧ decode (.event 0x80000400) = .error .eventBits ∧
    decode (.event 0x00000000) = .error .eventCode ∧ decode (.event 0x90000000) = .error .eventCode ∧
    decode (.event 0xF0000000) = .error .eventCode := by decide
theorem test_decode_host :
    decode (.host true 0x00 0x0200FF00) = .ok (.palWrite 2 0 255 0) ∧
    decode (.host true 0x04 0xDEADBEEF) = .ok .start ∧ decode (.host false 0x08 0) = .ok .rdFrameCount ∧
    decode (.host false 0x0C 0) = .ok .rdRenderActive := by decide
theorem test_decode_host_refused :
    decode (.host false 0x00 0) = .error .hostSelector ∧ decode (.host true 0x08 0) = .error .hostSelector ∧
    decode (.host false 0x10 0) = .error .hostSelector := by decide
theorem test_decode_gen :
    decode (.gen .a 1) = .ok (.genPreeq .a 1) ∧ decode (.gen .b 10) = .ok (.genVsync .b 10) ∧
    decode (.gen .a 261) = .ok (.genActive .a 261) ∧ decode (.gen .b 277) = .ok (.genBottom .b 277) ∧
    decode (.gen .a 511) = .ok (.genNowrite .a 511) := by decide
theorem test_classify :
    classify 0 = .preeq ∧ classify 1 = .preeq ∧ classify 2 = .nowrite ∧ classify 9 = .nowrite ∧ classify 10 = .vsync ∧
    classify 11 = .vsync ∧ classify 12 = .nowrite ∧ classify 35 = .nowrite ∧ classify 36 = .active ∧
    classify 37 = .active ∧ classify 261 = .active ∧ classify 262 = .active ∧ classify 275 = .active ∧
    classify 276 = .bottom ∧ classify 277 = .bottom ∧ classify 278 = .nowrite ∧ classify 300 = .nowrite ∧
    classify 511 = .nowrite := by decide
theorem test_encode_program1 :
    encode (.palWrite 1 255 255 255) = .host true 0x00 0x01FFFFFF ∧ encode (.fbWrite 1 2) = .event 0x70000102 ∧
    encode .start = .host true 0x04 0x00000000 := by decide

/-! ### The colour encoder (2.3) -/

theorem test_encoder_greys :
    encodeColour 0 0 0 = [2, 2, 2, 2] ∧ encodeColour 1 1 1 = [2, 2, 2, 2] ∧ encodeColour 3 3 3 = [2, 2, 2, 2] ∧
    encodeColour 64 64 64 = [4, 4, 4, 4] ∧ encodeColour 85 85 85 = [4, 4, 4, 4] ∧
    encodeColour 128 128 128 = [6, 6, 6, 6] ∧ encodeColour 192 192 192 = [7, 7, 7, 7] ∧
    encodeColour 254 254 254 = [9, 9, 9, 9] ∧ encodeColour 255 255 255 = [9, 9, 9, 9] := by decide
theorem test_encoder_primaries :
    encodeColour 255 0 0 = [7, 1, 1, 7] ∧ encodeColour 0 255 0 = [2, 6, 10, 6] ∧ encodeColour 0 0 255 = [4, 6, 2, 0] ∧
    encodeColour 255 255 0 = [7, 5, 9, 11] ∧ encodeColour 0 255 255 = [4, 10, 10, 4] ∧
    encodeColour 255 0 255 = [9, 5, 1, 5] := by decide
theorem test_encoder_mixed :
    encodeColour 170 0 0 = [6, 1, 1, 5] ∧ encodeColour 0 0 170 = [3, 5, 2, 1] ∧ encodeColour 0 128 0 = [2, 4, 6, 4] ∧
    encodeColour 128 0 128 = [6, 3, 1, 3] ∧ encodeColour 255 128 0 = [7, 3, 5, 9] ∧
    encodeColour 100 150 200 = [5, 7, 6, 5] := by decide
theorem test_encoder_red_numerators :
    luma 255 0 0 = 77 ∧ numerator 0 77 (-77) 178 = 510125 ∧ numerator 1 77 (-77) 178 = 103088 ∧
    numerator 2 77 (-77) 178 = 93523 ∧ numerator 3 77 (-77) 178 = 500560 := by decide

/-! ### Host operations (2.8) -/

theorem test_palWrite_red :
    nextIs (stepOn (.host true 0x00 0x0200FF00) State.reset) (fun s =>
      decide ([s.pal 8, s.pal 9, s.pal 10, s.pal 11] = [some 7, some 1, some 1, some 7] ∧ s.pal 7 = none ∧
        s.pal 12 = none)) = true := by decide
theorem test_palWrite_after_start : faultIs (exec (.palWrite 3 1 2 3) engine) .palAfterStart = true := by decide
theorem test_start_state :
    nextIs (stepOn (.host true 0x04 0) State.reset) (fun s =>
      decide (s.scanIdx = some 2 ∧ s.dma.a.busy = true ∧ s.dma.a.count = 908 ∧
        s.dma.a.readAddr = some 0x20000000 ∧ s.dma.b.readAddr = some 0x20000718 ∧ s.dma.b.count = 0 ∧
        s.buf .a 839 = some 0 ∧ s.buf .a 840 = some 2 ∧ s.buf .b 907 = some 2)) = true := by decide +kernel
theorem test_start_faults :
    faultIs (exec .start engine) .startTwice = true ∧
    faultIs (exec .start { State.reset with cfg := { Config.standard with sysClkHz := 300000000 } }) .clock = true ∧
    faultIs (exec .start { State.reset with cfg := { Config.standard with freeDmaChannels := 1 } }) .dmaAlloc = true ∧
    faultIs (exec .start { State.reset with cfg := { Config.standard with sysClkHz := 1, freeDmaChannels := 0 } })
      .clock = true := by decide
theorem test_rdFrameCount :
    nextIs (stepOn (.host false 0x08 0) State.reset) (fun s => decide (s.hostReads = [0x00000000])) = true := by decide
theorem test_rdFrameCount_no_diag :
    nextIs (stepOn (.host false 0x08 0) { State.reset with cfg := { Config.standard with diag := false } })
      (fun s => s.refused && s.hostReads.isEmpty) = true := by decide
theorem test_rdRenderActive :
    nextIs (stepOn (.host false 0x0C 0) { State.reset with renderActive := true })
      (fun s => decide (s.hostReads = [0x00000001])) = true := by decide

/-! ### The environment -/

theorem test_fbWrite_last :
    nextIs (stepOn (.event 0x712BFFFF) State.reset) (fun s => decide (s.fb 76799 = some 255 ∧ s.fb 76798 = some 0)) = true := by
  decide
theorem test_fbWrite_past_end :
    nextIs (stepOn (.event 0x712C0000) State.reset) (fun s => s.refused && decide (s.mem = [])) = true := by decide
theorem test_genTest_line276 :
    nextIs (stepOn (.event 0x80000114) State.reset) (fun s =>
      decide (s.frameCount = 1 ∧ s.buf .a 172 = some 2 ∧ s.buf .a 811 = some 2 ∧ s.buf .a 171 = none ∧
        s.buf .a 812 = none)) = true := by decide +kernel
theorem test_genTest_after_start :
    nextIs (stepOn (.event 0x80000000) engine) (fun s => s.refused && decide (s.mem = engine.mem)) = true := by decide

/-! ### The generator (2.4) -/

theorem test_genPreeq_line0 :
    nextIs (exec (.genPreeq .a 0) State.reset) (fun s =>
      decide (s.buf .a 0 = some 0 ∧ s.buf .a 839 = some 0 ∧ s.buf .a 840 = some 2 ∧ s.buf .a 907 = some 2 ∧
        s.renderActive = false)) = true := by decide +kernel
theorem test_genVsync_line10 :
    nextIs (exec (.genVsync .a 10) State.reset) (fun s =>
      decide ([s.buf .a 67, s.buf .a 68, s.buf .a 75] = [some 0, some 2, some 2] ∧
        [s.buf .a 76, s.buf .a 77, s.buf .a 78, s.buf .a 79] = [some 2, some 1, some 2, some 3] ∧
        [s.buf .a 110, s.buf .a 111, s.buf .a 112, s.buf .a 907] = [some 2, some 3, some 2, some 2])) = true := by
  decide +kernel
theorem test_genActive_lines :
    nextIs (exec (.genActive .a 36) setup) (fun s =>
      decide (s.cursor = some 320 ∧ s.renderActive = true ∧ s.buf .a 171 = none ∧
        [s.buf .a 172, s.buf .a 173, s.buf .a 174, s.buf .a 175] = [some 7, some 1, some 1, some 7] ∧
        s.buf .a 176 = some 2 ∧ s.buf .a 811 = some 2 ∧ s.buf .a 812 = none)) = true ∧
    nextIs (exec (.genActive .b 37) { setup with cursor := some 320 }) (fun s =>
      decide (s.cursor = some 640 ∧ s.buf .b 172 = some 9 ∧ s.buf .b 173 = some 9 ∧ s.buf .b 174 = some 2)) = true := by
  decide +kernel
theorem test_genActive_faults :
    faultIs (exec (.genActive .b 37) { setup with cursor := some 76800 }) .fbRange = true ∧
    faultIs (exec (.genActive .a 37) State.reset) .cursor = true ∧
    faultIs (exec (.genActive .a 36) State.reset) .palUnwritten = true ∧
    faultIs (exec (.genActive .b 36)
      { setup with mem := Memory.writeBytes setup.cfg setup.mem (setup.cfg.fbBase.toNat + 5) [7] })
      .palUnwritten = true := by decide +kernel
theorem test_genBottom_line277 :
    nextIs (exec (.genBottom .a 277) { setup with renderActive := true }) (fun s =>
      decide (s.frameCount = 0 ∧ s.buf .a 811 = some 2 ∧ s.renderActive = false)) = true := by decide +kernel
theorem test_genBottom_no_diag :
    nextIs (exec (.genBottom .a 276)
        { State.reset with renderActive := true, cfg := { Config.standard with diag := false } })
      (fun s => decide (s.frameCount = 0 ∧ s.renderActive = true)) = true := by decide +kernel
theorem test_genNowrite_flag :
    nextIs (exec (.genNowrite .b 300) { setup with renderActive := true })
      (fun s => decide (s.mem = setup.mem ∧ s.renderActive = false)) = true := by decide
theorem test_genNowrite_sticky :
    nextIs (exec (.genNowrite .a 2)
        { setup with renderActive := true, cfg := { Config.standard with renderFlagClear := .sticky } })
      (fun s => s.renderActive) = true := by decide

/-! ### The transport (2.5) -/

theorem test_dmaXfer_samples :
    nextIs (stepOn (.event 0x20000000) { engine with dreq := 1 }) (fun s =>
      decide (s.dreq = 0 ∧ s.pwm.ccB = 0 ∧ s.dma.a.readAddr = some 0x20000002 ∧ s.dma.a.count = 907 ∧
        s.dmaHist = [0])) = true ∧
    nextIs (stepOn (.event 0x20000000) lastSample) (fun s =>
      decide (s.pwm.ccB = 2 ∧ s.dma.a.count = 0 ∧ s.dma.a.busy = false ∧ s.intr.a = true ∧ s.pend.a = true ∧
        s.dma.b.busy = true ∧ s.dma.b.count = 908 ∧ s.dma.b.readAddr = some 0x20000718 ∧ s.irqLine = true)) = true := by
  decide
theorem test_dmaXfer_stops :
    isNotEnabled (stepOn (.event 0x20000000) engine) = true ∧
    faultIs (stepOn (.event 0x20000000) { lastSample with pend := ⟨false, true⟩ }) .deadline = true ∧
    faultIs (stepOn (.event 0x20000000) { lastSample with dma := ⟨channel .a 908 1 true, channel .b 0 0 false⟩ })
      .staleRead = true := by decide
theorem test_dmaComplete_as_step :
    nextIs (stepOn (.event 0x30000000) engine) (fun s => s.refused && s.dma.a.busy) = true := by decide
theorem test_dmaComplete_busy_peer :
    faultIs (exec (.dmaComplete .a) { engine with dma := ⟨channel .a 0 0 true, channel .b 0 908 true⟩ }) .internal = true := by
  decide

/-! ### The interrupt handler (2.6) -/

theorem test_irqEntry :
    nextIs (stepOn (.event 0x40000000) completed) (fun s =>
      decide (s.intr = ⟨false, false⟩ ∧ s.handler = ⟨true, [.a]⟩ ∧ s.irqLine = false)) = true := by decide
theorem test_irqEntry_both_bits :
    nextIs (exec .irqEntry { completed with intr := ⟨true, true⟩ }) (fun s => decide (s.handler.todo = [.a, .b])) = true ∧
    nextIs (exec .irqEntry
        { completed with intr := ⟨true, true⟩, cfg := { Config.standard with bothBits := .aElseB } })
      (fun s => decide (s.handler.todo = [.a] ∧ s.intr = ⟨false, false⟩)) = true := by decide
theorem test_irqService_line2 :
    nextIs (stepOn (.event 0x50000000) inHandler) (fun s =>
      decide (s.mem = inHandler.mem ∧ s.dma.a.readAddr = some 0x20000000 ∧ s.scanIdx = some 3 ∧ s.pend.a = false ∧
        s.handler.todo = [])) = true := by decide
theorem test_irqService_wraps :
    nextIs (exec .irqService { inHandler with scanIdx := some 261, mem := setup.mem, cursor := some 72000 })
      (fun s => decide (s.scanIdx = some 0 ∧ s.cursor = some 72320)) = true := by decide +kernel
theorem test_irqReturn :
    nextIs (stepOn (.event 0x60000000) serviced) (fun s => decide (s.handler = ⟨false, []⟩)) = true := by decide
theorem test_irq_not_enabled :
    isNotEnabled (exec .irqService engine) = true ∧ isNotEnabled (exec .irqEntry inHandler) = true := by decide

/-! ### The sample clock (2.7) -/

theorem test_pwmWrap_example :
    nextIs (exec .pwmWrap { engine with pwm := { engine.pwm with ccB := 9, cmpB := 2 }, outHist := [0] }) (fun s =>
      decide (s.pwm.cmpB = 9 ∧ s.outHist = [0, 9] ∧ s.dreq = 1)) = true := by decide
theorem test_pwmWrap_before_start : isNotEnabled (stepOn (.event 0x10000000) State.reset) = true := by decide
theorem test_duty : highSteps 0 10 = 0 ∧ highSteps 9 10 = 9 ∧ highSteps 11 10 = 11 ∧ highSteps 65535 10 = 11 := by decide

/-! ### Launch, refusals, register words -/

theorem test_launch_even_pin : placementOk { Config.standard with outPin := 26 } = false := by decide
theorem test_launch_overlap : placementOk { Config.standard with palBase := 0x20000714 } = false := by decide
theorem test_launch_sink :
    placementOk { Config.standard with ccBAddr := 0x40050073 } = false ∧
    placementOk { Config.standard with ccBAddr := 0x2001422E } = false ∧
    placementOk { Config.standard with ccBAddr := 0x20014230 } = true := by decide
theorem test_launch_misaligned : placementOk { Config.standard with fbBase := 0x20001632 } = false := by decide
theorem test_pwm_slice : Config.standard.pwmSlice = 5 := by decide
theorem test_control_words :
    ctrlWord (ctrlValue Config.standard .a) = 0x000E8815 ∧ ctrlWord (ctrlValue Config.standard .b) = 0x000E8015 := by decide
theorem test_pwm_words : pwmCsrWord engine.pwm = 0x1 ∧ ccBAddrOfSlice 5 = 0x40050072 := by decide
theorem test_both_reads_at_reset :
    nextIs (runProgram [encode .rdFrameCount, encode .rdRenderActive] State.reset)
      (fun s => decide (s.hostReads = [0, 0])) = true := by decide
theorem test_beat_after_refusal :
    nextIs (beat { engine with refused := true }) (fun s => decide (s.dmaHist = [0] ∧ s.outHist = [0])) = true := by decide
theorem test_handle_after_completion :
    nextIs (handleIrq completed) (fun s =>
      decide (s.intr = ⟨false, false⟩ ∧ s.pend = ⟨false, false⟩ ∧ s.scanIdx = some 3 ∧ s.handler = ⟨false, []⟩)) = true := by
  decide

/-! ### A state that meets the hypotheses of each statement -/

/-- The engine with a line of pixels to make next: line 36, row 0 black. -/
def beforeLine36 : State := { inHandler with scanIdx := some 36, mem := black.mem }

theorem reset_beforeStart : BeforeStart State.reset := by
  constructor <;> first | rfl | decide

theorem setup_beforeStart : BeforeStart setup := by
  constructor <;> first | rfl | decide

/-- Program 1 of part 3 starts under LAUNCH_OK with three palette entries, those the framebuffer names. -/
theorem setup_covers : paletteCovers setup [] := by
  rintro p (⟨o, ho, hp⟩ | ⟨acc, hacc, -⟩) q hq
  · have hv : p = 0 ∨ p = 1 ∨ p = 2 := by
      have hp : Memory.read1 Config.standard (Memory.writeBytes Config.standard (Memory.writeBytes Config.standard
          (Memory.writeSamples Config.standard [] Config.standard.palBase 0 [2, 2, 2, 2, 9, 9, 9, 9, 7, 1, 1, 7])
          Config.standard.fbBase.toNat [2, 2]) (Config.standard.fbBase.toNat + 320) [1])
          (Config.standard.fbBase.toNat + o) = some p := hp
      have e1 : Config.standard.fbBase.toNat = 0x20001630 := rfl
      have e2 : Config.standard.palBase.toNat = 0x20000E30 := rfl
      simp only [Memory.writeSamples, read1_writeBytes] at hp
      split at hp
      · have := List.mem_of_getElem? hp
        simp only [List.mem_singleton] at this
        exact .inr (.inl this)
      split at hp
      · have := List.mem_of_getElem? hp
        simp only [List.mem_cons, List.not_mem_nil, or_false, or_self] at this
        exact .inr (.inr this)
      split at hp
      · simp only [flatMap_sampleBytes_length, e1, e2, List.length_cons, List.length_nil] at *
        omega
      · simp only [Memory.read1, Memory.cell, Memory.unlisted] at hp
        rw [if_pos ⟨Nat.le_add_right _ _, Nat.add_lt_add_left ho _⟩] at hp
        exact .inl (by simpa using hp.symm)
    have hq' : q = 0 ∨ q = 1 ∨ q = 2 ∨ q = 3 := by omega
    rcases hv with rfl | rfl | rfl <;> rcases hq' with rfl | rfl | rfl | rfl <;> decide
  · cases hacc

theorem black_pal {j : Nat} (h : j < 4) : black.pal j = some 2 := by
  have : j = 0 ∨ j = 1 ∨ j = 2 ∨ j = 3 := by omega
  rcases this with rfl | rfl | rfl | rfl <;> decide

theorem black_fb {o : Nat} (h : o < 76800) : black.fb o = some 0 := by
  have e : State.fb State.reset o = some 0 := by
    change (match (none : Option Byte) with
      | some v => some v
      | none => Memory.unlisted Config.standard (0x20001630 + o)) = some 0
    simp only [Memory.unlisted]
    rw [if_pos ⟨Nat.le_add_right _ _, Nat.add_lt_add_left h _⟩]
  have hw : black.fb o = State.fb State.reset o := read1_writeBytes_outside (.inr (by
    rw [flatMap_sampleBytes_length]
    change 0x20000E30 + 2 * 0 + 2 * 4 ≤ 0x20001630 + o
    omega))
  rw [hw, e]

/-- Every pixel of a row of black names the written entry 0. -/
theorem black_pixels {cur : Nat} (h : cur + 320 ≤ 76800) :
    ∀ k < 320, ∀ p, black.fb (cur + k) = some p →
      (black.pal (4 * p.toNat + 2 * (k % 2))).isSome = true ∧ (black.pal (4 * p.toNat + 2 * (k % 2) + 1)).isSome = true := by
  intro k hk p hp
  rw [black_fb (by omega)] at hp
  cases hp
  have h0 : 4 * (0 : Byte).toNat + 2 * (k % 2) < 4 := by simp; omega
  have h1 : 4 * (0 : Byte).toNat + 2 * (k % 2) + 1 < 4 := by simp; omega
  rw [black_pal h0, black_pal h1]
  exact ⟨rfl, rfl⟩

theorem witness_lineReady_active : classify 36 = .active ∧ lineReady black 36 :=
  ⟨by decide, fun _ => ⟨0, by decide, by decide, by simpa using black_pixels (cur := 0) (by decide)⟩⟩
theorem witness_lineReady_other : lineReady State.reset 0 := fun h => absurd h (by decide)
theorem witness_launch : ∃ s, launch Config.standard (Vector.replicate fbBytes 0) = .ok s :=
  ⟨_, by rw [launch, if_pos (by decide)]⟩
theorem witness_launch_refused :
    launch { Config.standard with outPin := 26 } (Vector.replicate fbBytes 0) = .error .placement := by
  rw [launch, if_neg (by decide)]
theorem witness_StepRunsDecodedAccess :
    (State.reset.withAccess (.host true 0x04 0)).fault = none ∧
    (State.reset.withAccess (.host true 0x04 0)).inbox = .host true 0x04 0 :: [] ∧
    decode (.host true 0x04 0) = .ok .start ∧ schedulable .start (State.reset.withAccess (.host true 0x04 0)) = true := by
  decide
theorem witness_RefusedAccesses_host :
    nextIs (stepOn (.host false 0x00 0) engine) (fun s => s.refused) = true ∧
    nextIs (stepOn (.host true 0x0C 0) engine) (fun s => s.refused) = true ∧
    nextIs (stepOn (.host false 0x0C 0) { engine with cfg := { Config.standard with diag := false } })
      (fun s => s.refused) = true ∧
    nextIs (stepOn (.host false 0x0C 0) engine) (fun s => !s.refused) = true := by decide
theorem witness_RefusedAccesses_event :
    ([0x0FFFFFFF, 0x90000000, 0x3FFFFFFF, 0x10000001, 0x20000002, 0x40000001, 0x60000001, 0x7E000000, 0x712C0000,
      0x80000400, 0x800003FF] : List (BitVec 32)).all
        (fun w => nextIs (stepOn (.event w) { engine with dreq := 1 }) (fun s => s.refused)) = true ∧
    ([0x10000000, 0x20000000, 0x712BFFFF] : List (BitVec 32)).all
        (fun w => nextIs (stepOn (.event w) { engine with dreq := 1 }) (fun s => !s.refused)) = true := by decide
theorem witness_RefusedAccesses_gen :
    nextIs (stepOn (.gen .a 2) engine) (fun s => s.refused) = true ∧
    nextIs (stepOn (.gen .a 2) State.reset) (fun s => !s.refused) = true := by decide
theorem witness_HostAfterStart :
    engine.fault = none ∧ engine.started = true ∧ engine.cfg.diag = true ∧
    faultIs (stepOn (.host true 0x00 0) engine) .palAfterStart = true ∧
    faultIs (stepOn (.host true 0x04 0) engine) .startTwice = true ∧
    nextIs (stepOn (.host false 0x08 0) engine) (fun s => decide (s.hostReads = [0])) = true ∧
    nextIs (stepOn (.host true 0x08 0) engine) (fun s => s.refused) = true := by decide
theorem witness_FaultedMachineHasNoStep : { engine with fault := some .deadline }.fault = some .deadline := rfl
theorem witness_RefusalChangesNothingElse :
    exec (.fbWrite 76800 0) State.reset = .next { State.reset with refused := true } ∧ State.reset.refused = false :=
  ⟨rfl, rfl⟩
theorem witness_EventsRunExactlyWhenEnabled :
    engine.fault = none ∧ isNotEnabled (exec .pwmWrap State.reset) = true ∧
    nextIs (exec .pwmWrap engine) (fun _ => true) = true ∧ isNotEnabled (exec (.dmaXfer .b) lastSample) = true ∧
    nextIs (exec (.dmaXfer .a) lastSample) (fun _ => true) = true ∧ isNotEnabled (exec .irqEntry engine) = true ∧
    isNotEnabled (exec .irqService serviced) = true ∧ isNotEnabled (exec .irqReturn inHandler) = true := by decide
theorem witness_FreeStep : State.reset.fault = none ∧ State.reset.inbox = [] := ⟨rfl, rfl⟩
theorem witness_RoundTrip : (Instr.fbWrite 76799 255).wellFormed = true := by decide
theorem witness_DecodedAccess : decode (.event 0x800003FF) = .ok (.genTest .b 511) := by decide
theorem witness_PalWrite : engine.fault = none ∧ engine.started = true ∧ State.reset.fault = none ∧
    State.reset.started = false := ⟨rfl, rfl, rfl, rfl⟩
theorem witness_EncoderIsSymmetric : encodePhase 3 9 9 9 = 2 := by decide
theorem witness_Start : State.reset.fault = none ∧ State.reset.started = false ∧ State.reset.cfg.sysClkHz = 315000000 ∧
    2 ≤ State.reset.cfg.freeDmaChannels.val ∧ placementOk State.reset.cfg = true ∧ State.reset.pend.a = false := by decide
theorem witness_PwmWrap : ∃ t, exec .pwmWrap engine = .next t := ⟨_, rfl⟩
theorem witness_DmaXferMovesOneSample :
    let s := { engine with dreq := 1 }
    s.fault = none ∧ s.started = true ∧ (s.dma.get .a).busy = true ∧ 1 < (s.dma.get .a).count.toNat ∧ 0 < s.dreq ∧
    (s.dma.get .a).readAddr = some 0x20000000 ∧ (s.cfg.bufBase .a).toNat ≤ (0x20000000 : Addr).toNat ∧
    (0x20000000 : Addr).toNat < (s.cfg.bufBase .a).toNat + 1816 ∧
    Memory.read2 s.cfg s.mem (0x20000000 : Addr).toNat = some 0 := by decide
theorem witness_LastTransfer :
    lastSample.fault = none ∧ lastSample.started = true ∧ (lastSample.dma.get .a).busy = true ∧
    (lastSample.dma.get .a).count = 1 ∧ 0 < lastSample.dreq ∧ (lastSample.dma.get .a).readAddr = some 0x20000716 ∧
    (lastSample.cfg.bufBase .a).toNat ≤ (0x20000716 : Addr).toNat ∧
    (0x20000716 : Addr).toNat < (lastSample.cfg.bufBase .a).toNat + 1816 ∧
    Memory.read2 lastSample.cfg lastSample.mem (0x20000716 : Addr).toNat = some 2 ∧
    (lastSample.dma.get (Chan.peer .a)).busy = false ∧ lastSample.pend.get (Chan.peer .a) = false ∧
    (lastSample.dma.get (Chan.peer .a)).countReload = some 908 := by decide
theorem witness_DmaXferFaults :
    faultIs (exec (.dmaXfer .a) { lastSample with dma := ⟨{ channel .a 0 1 true with readAddr := none }, channel .b 0 0 false⟩ })
      .staleRead = true ∧
    faultIs (exec (.dmaXfer .a) { lastSample with dma := ⟨channel .a 908 1 true, channel .b 0 0 false⟩ }) .staleRead = true ∧
    faultIs (exec (.dmaXfer .a) { lastSample with dma := ⟨channel .a 906 1 true, channel .b 0 0 false⟩ })
      .bufUnwritten = true ∧
    faultIs (exec (.dmaXfer .a) { lastSample with dma := ⟨channel .a 907 1 true, channel .b 0 908 true⟩ }) .internal = true ∧
    faultIs (exec (.dmaXfer .a) { lastSample with pend := ⟨false, true⟩ }) .deadline = true := by decide
theorem witness_DmaComplete :
    nextIs (exec (.dmaComplete .a) engine) (fun _ => true) = true ∧
    faultIs (exec (.dmaComplete .a) { engine with pend := ⟨false, true⟩ }) .deadline = true ∧
    (engine.dma.get (Chan.peer .a)).countReload = some 908 := by decide
theorem witness_IrqEntry :
    completed.fault = none ∧ completed.started = true ∧ completed.handler.active = false ∧
    (true = (completed.intr.a && completed.inte.a)) ∧ (false = (completed.intr.b && completed.inte.b)) := by decide
theorem witness_IrqService :
    beforeLine36.fault = none ∧ beforeLine36.handler.active = true ∧ beforeLine36.handler.todo = .a :: [] ∧
    beforeLine36.scanIdx = some 36 ∧ lineReady beforeLine36 36 :=
  ⟨rfl, rfl, rfl, rfl, witness_lineReady_active.2⟩
theorem witness_IrqService_fault :
    faultIs (exec .irqService { inHandler with scanIdx := some 36 }) .palUnwritten = true ∧
    faultIs (exec .irqService { inHandler with scanIdx := some 37 }) .cursor = true ∧
    faultIs (exec .irqService { inHandler with scanIdx := some 37, cursor := some 76481 }) .fbRange = true ∧
    ¬lineReady { inHandler with scanIdx := some 37 } 37 :=
  ⟨by decide, by decide, by decide, fun h => by
    obtain ⟨cur, hc, -⟩ := h (by decide)
    cases hc⟩
theorem witness_IrqReturn : ∃ t, exec .irqReturn serviced = .next t := ⟨_, rfl⟩
theorem witness_CompletionDuringHandler :
    let s := { lastSample with handler := ⟨true, []⟩ }
    s.handler.active = true ∧ s.inte = ⟨true, true⟩ ∧ (s.dma.get .a).count = 1 ∧
    nextIs (exec (.dmaXfer .a) s) (fun t => nextIs (exec .irqReturn t) (fun _ => true)) = true := by decide
theorem witness_FbWrite : (76799 : BitVec 17).toNat < 76800 ∧ 76800 ≤ (76800 : BitVec 17).toNat := by decide
theorem witness_GenTest :
    black.started = false ∧ lineReady black 36 ∧ faultIs (exec (.genTest .a 37) State.reset) .cursor = true ∧
    generate .a 37 State.reset = .error .cursor :=
  ⟨rfl, witness_lineReady_active.2, by decide, by decide⟩
theorem witness_GenActive :
    black.fault = none ∧ (if (36 : LineIdx) = 36 then some (0 : BitVec 17) else black.cursor) = some 0 ∧
    (0 : BitVec 17).toNat + 320 ≤ 76800 ∧
    ∀ k < 320, ∀ p, black.fb ((0 : BitVec 17).toNat + k) = some p →
      black.pal (4 * p.toNat + 2 * (k % 2)) ≠ none ∧ black.pal (4 * p.toNat + 2 * (k % 2) + 1) ≠ none :=
  ⟨rfl, rfl, by decide, fun k hk p hp => by
    have h := black_pixels (cur := 0) (by decide) k hk p (by simpa using hp)
    exact ⟨Option.isSome_iff_ne_none.mp h.1, Option.isSome_iff_ne_none.mp h.2⟩⟩
theorem witness_GenActive_last_row :
    let s := { black with cursor := some 76480 }
    (if (275 : LineIdx) = 36 then some 0 else s.cursor) = some 76480 ∧ (76480 : BitVec 17).toNat + 320 ≤ 76800 ∧
    76800 < (76481 : BitVec 17).toNat + 320 := by decide
theorem witness_generate : generate .a 2 State.reset = .ok State.reset := by decide
theorem witness_GeneratorIgnoresPicture :
    classify 0 ≠ .active ∧ State.reset.cfg = setup.cfg ∧ State.reset.mem ≠ setup.mem ∧
    (∀ n < 908, State.reset.buf .a n = setup.buf .a n) ∧ (∃ t, generate .a 0 State.reset = .ok t) ∧
    ∃ t, generate .a 0 setup = .ok t :=
  ⟨by decide, rfl, by decide, by decide +kernel, ⟨_, rfl⟩, ⟨_, rfl⟩⟩
theorem witness_PaletteFixed :
    placementOk engine.cfg = true ∧ engine.started = true ∧ nextIs (stepOn (encode .pwmWrap) engine) (fun _ => true) = true := by
  decide
theorem witness_OnlyProducer : exec .rdFrameCount engine = .next { engine with hostReads := [0] } := rfl
theorem witness_OnlyGenerator :
    ∃ t, exec (.genPreeq .a 0) State.reset = .next t ∧ ∃ n < 908, t.buf .a n ≠ State.reset.buf .a n :=
  ⟨_, rfl, 0, by decide, by rw [linePreeq_buf .a State.reset (by decide)]; decide⟩
theorem witness_FrameCountFixed :
    inHandler.started = true ∧ inHandler.scanIdx = some 2 ∧ (2 : LineIdx).toNat < 262 ∧
    nextIs (stepOn (encode .irqService) inHandler) (fun _ => true) = true := by decide
theorem witness_CompletionBits :
    nextIs (exec (.dmaXfer .a) lastSample) (fun t => !lastSample.intr.a && t.intr.a) = true ∧
    nextIs (exec .irqEntry completed) (fun t => completed.intr.a && !t.intr.a) = true := by decide
theorem witness_Sticky : ∃ t, exec .start State.reset = .next t :=
  start_completes reset_beforeStart rfl (by decide)
theorem witness_ScanIndex : nextIs (exec .irqService inHandler) (fun t => decide (t.scanIdx ≠ inHandler.scanIdx)) = true := by
  decide
theorem witness_DataOk : DataOk engine ∧ nextIs (stepOn (encode .pwmWrap) engine) (fun _ => true) = true := by
  refine ⟨⟨by decide, by decide, ?_, ?_⟩, by decide⟩
  · intro v hv
    cases hv
    decide
  · intro v hv
    cases hv
theorem witness_EngineInv_before : EngineInv State.reset := .inl reset_beforeStart
theorem witness_EngineInv_running : ∃ t, exec .start State.reset = .next t ∧ EngineInv t := by
  obtain ⟨t, ht⟩ := start_completes reset_beforeStart rfl (by decide)
  exact ⟨t, ht, .inr ⟨0, .a, start_running reset_beforeStart ht⟩⟩

/-- START of program 1, and the paced state it leaves. -/
theorem setup_paced : ∃ t, exec .start setup = .next t ∧ Paced t 0 .a := by
  obtain ⟨t, ht⟩ := start_completes setup_beforeStart rfl (by decide)
  exact ⟨t, ht, start_paced setup_beforeStart setup_covers ht⟩

theorem setup_launchOk (n : Nat) (t : State) : LaunchOk setup (pacedAccs n t) :=
  ⟨by decide, rfl, by decide, paletteCovers_paced setup_covers n⟩

/-- The statements about runs: from program 1's START there are runs of any length, through every kind of line and any
number of completions, that meet all their premises together. -/
theorem witness_runs :
    ∃ t, BeforeStart setup ∧ exec .start setup = .next t ∧ LaunchOk setup [] ∧
      ∀ n, ∃ accs u, Run t accs u ∧ n ≤ u.dmaHist.length ∧ 0 < u.outHist.length ∧ LaunchOk setup accs ∧
        dmaPace t accs ∧ handlerPrompt (marks t accs) = true ∧ ∀ row, fbQuiet row t accs := by
  obtain ⟨t, ht, hp⟩ := setup_paced
  refine ⟨t, setup_beforeStart, ht, setup_launchOk 0 t, fun n => ?_⟩
  have hp : ∃ m x, Paced t m x := ⟨_, _, hp⟩
  obtain ⟨k, hk⟩ := paced_output hp (n + 1)
  obtain ⟨m, x, hkp⟩ := paced_iterate hp k
  have hc := hkp.counted
  have hd := hkp.oneRequest
  refine ⟨pacedAccs k t, _, paced_run hp k, by omega, by omega, setup_launchOk k t, dmaPace_paced hp k,
    (handlerPrompt_paced hp k).1, fun row => fbQuiet_of_noWrites (fun c hc => ?_) t⟩
  rintro ⟨offset, byte, hw, -⟩
  exact pacedAccs_noWrite hc offset byte hw

/-- The premises of PromptRunNeverFaults, the run before the step as long as one likes. -/
theorem witness_PromptRun (n : Nat) :
    ∃ t u before acc, exec .start setup = .next t ∧ LaunchOk setup (before ++ [acc]) ∧ before.length = n ∧
      Run t before u ∧ handlerPrompt (marks t (before ++ [acc])) = true ∧
      ∀ c ∈ before ++ [acc], decode c ≠ .ok .start ∧
        ∀ index blue red green, decode c ≠ .ok (.palWrite index blue red green) := by
  obtain ⟨t, ht, hp⟩ := setup_paced
  have hp : ∃ m x, Paced t m x := ⟨_, _, hp⟩
  have hl : ∀ n (s : State), (pacedAccs n s).length = n := by
    intro n
    induction n with
    | zero => exact fun _ => rfl
    | succ n ih => exact fun s => by rw [pacedAccs, List.length_cons, ih]
  refine ⟨t, _, pacedAccs n t, pacedAccess (pacedNext^[n] t), ht, ?_, hl n t, paced_run hp n, ?_, ?_⟩
  · rw [← pacedAccs_snoc]; exact setup_launchOk (n + 1) t
  · rw [← pacedAccs_snoc]; exact (handlerPrompt_paced hp (n + 1)).1
  · rw [← pacedAccs_snoc]
    intro c hc
    obtain ⟨i, hi, hd⟩ := pacedAccs_decode hc
    rw [hd]
    constructor
    · rintro he
      cases he
      simp at hi
    · rintro _ _ _ _ he
      cases he
      simp at hi

theorem witness_FairRuns :
    ∃ states accs, exec .start setup = .next (states 0) ∧ EndlessRun states accs ∧ WeaklyFair states accs := by
  obtain ⟨t, ht, hp⟩ := setup_paced
  have hp : ∃ m x, Paced t m x := ⟨_, _, hp⟩
  exact ⟨_, _, ht, paced_endless hp, paced_fair hp⟩

end Sys2Proof.Machine.Tests
end

/-!
The scope of the block: the timing constants of a line (R9, R11, R139, R181), and that the launch parameters, `started`
and the interrupt enables are written by START alone (R12, R22, R33).
-/
namespace Sys2Proof.Machine

/-! ### Timing constants -/

/-- Settles O60: each constant is computed from the configured divider, wrap value and geometry. -/
theorem lineTimingConstants : Obligations.LineTimingConstants := by
  unfold Obligations.LineTimingConstants
  decide

/-! ### The fields that START alone writes -/

/-- The launch parameters (R12), `started` (R22) and the interrupt enables (R33) are the same in both states. -/
structure KeepsSettings (s t : State) : Prop where
  cfg : t.cfg = s.cfg
  started : t.started = s.started
  inte : t.inte = s.inte

theorem KeepsSettings.trans {s t u : State} (h : KeepsSettings s t) (k : KeepsSettings t u) : KeepsSettings s u :=
  ⟨k.cfg.trans h.cfg, k.started.trans h.started, k.inte.trans h.inte⟩

theorem OnlyGenerated.keepsSettings {s t : State} (h : OnlyGenerated s t) : KeepsSettings s t := by
  rw [h.rest]
  exact ⟨rfl, rfl, rfl⟩

theorem generate_keepsSettings {x : Chan} {idx : LineIdx} {s t : State} (h : generate x idx s = .ok t) :
    KeepsSettings s t :=
  (generate_onlyGenerated h).keepsSettings

theorem trigger_keepsSettings {y : Chan} {s t : State} (h : trigger y s = .ok t) : KeepsSettings s t := by
  obtain ⟨-, -, rfl⟩ := trigger_ok.mp h
  exact ⟨rfl, rfl, rfl⟩

theorem completeRun_keepsSettings {x : Chan} {s t : State} (h : completeRun x s = .ok t) : KeepsSettings s t := by
  rw [completeRun_eq] at h
  have hover : KeepsSettings s (runOver x s) := ⟨rfl, rfl, rfl⟩
  exact hover.trans (trigger_keepsSettings h)

theorem transfer_keepsSettings {x : Chan} {s t : State} (h : transfer x s = .ok t) : KeepsSettings s t := by
  obtain ⟨addr, v, -, -, -, hend⟩ := transfer_ok h
  have hmove : KeepsSettings s (s.moveSample x addr v) := ⟨rfl, rfl, rfl⟩
  obtain ⟨-, rfl⟩ | ⟨-, hcomplete⟩ := hend
  · exact hmove
  · exact hmove.trans (completeRun_keepsSettings hcomplete)

theorem service_keepsSettings {x : Chan} {rest : List Chan} {s t : State} (h : service x rest s = .ok t) :
    KeepsSettings s t := by
  obtain ⟨made, hgen, hback⟩ := bind_ok.mp h
  cases hback
  obtain ⟨hcfg, hstarted, hinte⟩ := generate_keepsSettings hgen
  exact ⟨hcfg, hstarted, hinte⟩

/-- Every operation but START leaves the launch parameters, `started` and the enables alone (R22, R33, R64). -/
theorem exec_keepsSettings {i : Instr} {s t : State} (h : exec i s = .next t) (hi : i ≠ .start) :
    KeepsSettings s t := by
  have he := (exec_effect h).2
  cases i with
  | start => exact absurd rfl hi
  | palWrite index blue red green => obtain ⟨-, rfl⟩ := he; exact ⟨rfl, rfl, rfl⟩
  | rdFrameCount => obtain rfl | rfl := he <;> exact ⟨rfl, rfl, rfl⟩
  | rdRenderActive => obtain rfl | rfl := he <;> exact ⟨rfl, rfl, rfl⟩
  | pwmWrap => obtain ⟨-, rfl⟩ := he; exact ⟨rfl, rfl, rfl⟩
  | dmaXfer x => exact transfer_keepsSettings he.2
  | dmaComplete x => exact completeRun_keepsSettings he
  | irqEntry => obtain ⟨-, rfl⟩ := he; exact ⟨rfl, rfl, rfl⟩
  | irqService => obtain ⟨-, x, rest, -, hservice⟩ := he; exact service_keepsSettings hservice
  | irqReturn => obtain ⟨-, -, rfl⟩ := he; exact ⟨rfl, rfl, rfl⟩
  | fbWrite offset byte => obtain ⟨-, rfl⟩ | rfl := he <;> exact ⟨rfl, rfl, rfl⟩
  | genTest x idx =>
    obtain ⟨-, rfl⟩ | ⟨-, hgen⟩ := he
    · exact ⟨rfl, rfl, rfl⟩
    · exact generate_keepsSettings hgen
  | genPreeq x idx => obtain rfl := he; exact (onlyGenerated_linePreeq x s).keepsSettings
  | genVsync x idx => obtain rfl := he; exact (onlyGenerated_lineVsync x s).keepsSettings
  | genActive x idx => exact (onlyGenerated_lineActive he).keepsSettings
  | genBottom x idx => obtain rfl := he; exact (onlyGenerated_lineBottom x idx s).keepsSettings
  | genNowrite x idx => obtain rfl := he; exact (onlyGenerated_lineNowrite s).keepsSettings

/-- START completes only before the engine has started, and keeps the launch parameters (R12, R144). -/
theorem execStart_cfg_started {s t : State} (h : exec .start s = .next t) : s.started = false ∧ t.cfg = s.cfg := by
  obtain ⟨-, hstarted, -, -, htrigger⟩ := exec_effect h
  exact ⟨hstarted, (trigger_keepsSettings htrigger).cfg.trans (startBuilt_cfg s)⟩

/-- Settles O46: START completes only on a machine that has not started, and every other operation keeps all three. -/
theorem startedAndEnablesAreSticky : Obligations.StartedAndEnablesAreSticky := by
  unfold Obligations.StartedAndEnablesAreSticky
  intro i s t h
  by_cases hi : i = .start
  · subst hi
    obtain ⟨hnot, hcfg⟩ := execStart_cfg_started h
    exact ⟨hcfg, fun hstarted => by simp [hnot] at hstarted, fun _ => rfl⟩
  · obtain ⟨hcfg, hstarted, hinte⟩ := exec_keepsSettings h hi
    exact ⟨hcfg, fun hs => ⟨hstarted.trans hs, hinte⟩, fun hchanged => by simp [hstarted, hinte] at hchanged⟩

end Sys2Proof.Machine

/-!
The data of the block (R18, R19, R24, R26, R32, R50): what an operation may do to memory, to the scanline index and to
the cursor, and who sets and clears a completion bit.
-/
namespace Sys2Proof.Machine

/-! ### Regions -/

/-- The palette as a region (R51). -/
def palRegion (cfg : Config) : Nat × Nat := (cfg.palBase.toNat, palBytes)

/-- The framebuffer as a region (R51). -/
def fbRegion (cfg : Config) : Nat × Nat := (cfg.fbBase.toNat, fbBytes)

/-- Scanline buffer `x` as a region (R51). -/
def bufRegion (cfg : Config) (x : Chan) : Nat × Nat := ((cfg.bufBase x).toNat, bufBytes)

theorem dataRegions_eq (cfg : Config) :
    dataRegions cfg = [fbRegion cfg, palRegion cfg, bufRegion cfg .a, bufRegion cfg .b] := rfl

/-- The regions an operation may store in: PAL_WRITE the palette (R101), FB_WRITE the framebuffer (R147), every other
operation at most the two buffers (R94). -/
def storeRegions (cfg : Config) : Instr → List (Nat × Nat)
  | .palWrite _ _ _ _ => [palRegion cfg]
  | .fbWrite _ _ => [fbRegion cfg]
  | _ => [bufRegion cfg .a, bufRegion cfg .b]

theorem storeRegions_subset (cfg : Config) (i : Instr) : storeRegions cfg i ⊆ dataRegions cfg := by
  rw [dataRegions_eq]
  unfold storeRegions
  split <;> simp

/-- In a valid placement an operation other than PAL_WRITE stores outside the palette. -/
theorem storeRegions_apart_pal {cfg : Config} {i : Instr} (hp : placementOk cfg = true)
    (hi : ∀ index blue red green, i ≠ .palWrite index blue red green) {r : Nat × Nat} (hr : r ∈ storeRegions cfg i) :
    r.1 + r.2 ≤ cfg.palBase.toNat ∨ cfg.palBase.toNat + 2048 ≤ r.1 := by
  obtain ⟨hfb, -, -, ha, hb, -⟩ := placementOk_apart hp
  unfold storeRegions at hr
  split at hr
  · exact absurd rfl (hi _ _ _ _)
  · obtain rfl := List.mem_singleton.mp hr
    exact hfb
  · obtain rfl | hr := List.mem_cons.mp hr
    · exact ha.symm
    · obtain rfl := List.mem_singleton.mp hr
      exact hb.symm

/-- In a valid placement an operation other than FB_WRITE stores outside the framebuffer. -/
theorem storeRegions_apart_fb {cfg : Config} {i : Instr} (hp : placementOk cfg = true)
    (hi : ∀ offset byte, i ≠ .fbWrite offset byte) {r : Nat × Nat} (hr : r ∈ storeRegions cfg i) :
    r.1 + r.2 ≤ cfg.fbBase.toNat ∨ cfg.fbBase.toNat + 76800 ≤ r.1 := by
  obtain ⟨hpal, ha, hb, -, -, -⟩ := placementOk_apart hp
  unfold storeRegions at hr
  split at hr
  · obtain rfl := List.mem_singleton.mp hr
    exact hpal.symm
  · exact absurd rfl (hi _ _)
  · obtain rfl | hr := List.mem_cons.mp hr
    · exact ha.symm
    · obtain rfl := List.mem_singleton.mp hr
      exact hb.symm

/-! ### What an operation may do to the data -/

/-- From `s` to `t` bytes are stored in the regions `rs` only, memory stays canonical (R50), and a new scanline index or
cursor is in its bounds (R18, R19). -/
structure DataStep (rs : List (Nat × Nat)) (s t : State) : Prop where
  cfg : t.cfg = s.cfg
  wf : Memory.wf s.cfg s.mem → Memory.wf s.cfg t.mem
  listed : ∀ c ∈ t.mem, c ∈ s.mem ∨ ∃ r ∈ rs, r.1 ≤ c.1 ∧ c.1 < r.1 + r.2
  outside : ∀ a, (∀ r ∈ rs, a < r.1 ∨ r.1 + r.2 ≤ a) → t.byteAt a = s.byteAt a
  scan : ∀ v, t.scanIdx = some v → s.scanIdx = some v ∨ v.toNat < linesPerFrame
  cursor : ∀ v, t.cursor = some v → s.cursor = some v ∨ v.toNat ≤ fbBytes

theorem DataStep.trans {rs : List (Nat × Nat)} {s t u : State} (h : DataStep rs s t) (k : DataStep rs t u) :
    DataStep rs s u where
  cfg := k.cfg.trans h.cfg
  wf hw := h.cfg ▸ k.wf (h.cfg.symm ▸ h.wf hw)
  listed c hc := (k.listed c hc).elim (h.listed c) .inr
  outside a ha := (k.outside a ha).trans (h.outside a ha)
  scan v hv := (k.scan v hv).elim (h.scan v) .inr
  cursor v hv := (k.cursor v hv).elim (h.cursor v) .inr

/-- An update of other fields than memory, the scanline index and the cursor. -/
theorem dataStep_of_eq {rs : List (Nat × Nat)} {s t : State} (hcfg : t.cfg = s.cfg) (hmem : t.mem = s.mem)
    (hscan : t.scanIdx = s.scanIdx) (hcursor : t.cursor = s.cursor) : DataStep rs s t where
  cfg := hcfg
  wf hw := hmem.symm ▸ hw
  listed _ hc := .inl (hmem ▸ hc)
  outside a _ := byteAt_congr hmem hcfg a
  scan _ hv := .inl (hscan ▸ hv)
  cursor _ hv := .inl (hcursor ▸ hv)

/-- A store of a run of bytes inside a region. -/
theorem dataStep_writeBytes {rs : List (Nat × Nat)} {r : Nat × Nat} {s : State} {addr : Nat} {bytes : List Byte}
    (hr : r ∈ rs) (hlo : r.1 ≤ addr) (hhi : addr + bytes.length ≤ r.1 + r.2) :
    DataStep rs s { s with mem := Memory.writeBytes s.cfg s.mem addr bytes } where
  cfg := rfl
  wf hw := writeBytes_wf hw addr bytes
  listed _ hc := (mem_writeBytes hc).imp id fun hin => ⟨r, hr, by omega, by omega⟩
  outside a ha := read1_writeBytes_outside (by have := ha r hr; omega)
  scan _ hv := .inl hv
  cursor _ hv := .inl hv

theorem DataStep.pal_eq {rs : List (Nat × Nat)} {s t : State} (h : DataStep rs s t)
    (hrs : ∀ r ∈ rs, r.1 + r.2 ≤ s.cfg.palBase.toNat ∨ s.cfg.palBase.toNat + 2048 ≤ r.1) {j : Nat} (hj : j < 1024) :
    t.pal j = s.pal j :=
  pal_congr h.cfg (h.outside _ fun r hr => by have := hrs r hr; omega)
    (h.outside _ fun r hr => by have := hrs r hr; omega)

theorem DataStep.fb_eq {rs : List (Nat × Nat)} {s t : State} (h : DataStep rs s t)
    (hrs : ∀ r ∈ rs, r.1 + r.2 ≤ s.cfg.fbBase.toNat ∨ s.cfg.fbBase.toNat + 76800 ≤ r.1) {o : Nat} (ho : o < 76800) :
    t.fb o = s.fb o := by
  have hbyte := h.outside (s.cfg.fbBase.toNat + o) fun r hr => by have := hrs r hr; omega
  simpa [State.fb, State.byteAt, h.cfg] using hbyte

/-- A step that stores in data regions only keeps the form of the data. -/
theorem DataStep.dataOk {rs : List (Nat × Nat)} {s t : State} (h : DataStep rs s t) (hrs : rs ⊆ dataRegions s.cfg)
    (hs : DataOk s) : DataOk t where
  memWf := h.cfg.symm ▸ h.wf hs.memWf
  memPlaced := by
    intro c hc
    rw [h.cfg]
    obtain hold | ⟨r, hr, hin⟩ := h.listed c hc
    · exact hs.memPlaced c hold
    · exact ⟨r, hrs hr, hin⟩
  scanBound v hv := (h.scan v hv).elim (hs.scanBound v) id
  cursorBound v hv := (h.cursor v hv).elim (hs.cursorBound v) id

/-! ### The generator -/

section Generator

variable {rs : List (Nat × Nat)} {x : Chan} {s t : State}

theorem markRender_dataStep (active : Bool) (s : State) : DataStep rs s (markRender active s) :=
  dataStep_of_eq rfl rfl rfl rfl

theorem fillBuf_dataStep {n : Nat} {vs : List Sample} (hx : bufRegion s.cfg x ∈ rs) (hfit : n + vs.length ≤ 908) :
    DataStep rs s (s.fillBuf x n vs) :=
  dataStep_writeBytes hx (by simp only [bufRegion]; omega)
    (by simp only [bufRegion, flatMap_sampleBytes_length, bufBytes]; omega)

theorem linePreeq_dataStep (hx : bufRegion s.cfg x ∈ rs) : DataStep rs s (linePreeq x s) :=
  (fillBuf_dataStep hx (by simp)).trans (markRender_dataStep _ _)

theorem lineVsync_dataStep (hx : bufRegion s.cfg x ∈ rs) : DataStep rs s (lineVsync x s) :=
  (fillBuf_dataStep hx (by simp)).trans (markRender_dataStep _ _)

theorem lineBottom_dataStep {idx : LineIdx} (hx : bufRegion s.cfg x ∈ rs) : DataStep rs s (lineBottom x idx s) := by
  have hfill : DataStep rs s (s.fillBuf x activeStart bottomSamples) :=
    fillBuf_dataStep hx (by rw [bottomSamples_length]; decide)
  have hmarks : DataStep rs (s.fillBuf x activeStart bottomSamples) (lineBottom x idx s) :=
    dataStep_of_eq rfl rfl rfl rfl
  exact hfill.trans hmarks

theorem lineNowrite_dataStep : DataStep rs s (lineNowrite s) := markRender_dataStep false s

/-- The stores of an active line whose row lies in the framebuffer: the cursor moves on to the end of that row, which is
at most the framebuffer's (R19, R90). -/
theorem storePixels_dataStep {cur : BitVec 17} {ws : List (BitVec 32)} (hx : bufRegion s.cfg x ∈ rs)
    (hcur : cur.toNat + 320 ≤ 76800) (hlen : ws.length = 320) : DataStep rs s (s.storePixels x cur ws) :=
  have hstore : DataStep rs s { s with
      mem := Memory.writeBytes s.cfg s.mem ((s.cfg.bufBase x).toNat + 2 * activeStart) (ws.flatMap wordBytes) } :=
    dataStep_writeBytes hx (by simp only [bufRegion]; omega)
      (by simp only [bufRegion, flatMap_wordBytes_length, hlen, activeStart, bufBytes]; omega)
  { hstore with
    cursor := by
      intro v hv
      obtain rfl : cur + 320 = v := Option.some.inj hv
      have hrow : (320 : BitVec 17).toNat = 320 := rfl
      exact .inr (by simp only [fbBytes, BitVec.toNat_add, hrow]; omega) }

theorem lineActive_dataStep {idx : LineIdx} (hx : bufRegion s.cfg x ∈ rs) (h : lineActive x idx s = .ok t) :
    DataStep rs s t := by
  obtain ⟨cur, ws, -, hcur, hpixels, rfl⟩ := lineActive_ok.mp h
  obtain ⟨hlen, -⟩ := pixelWords_eq_some.mp hpixels
  exact (storePixels_dataStep hx hcur hlen).trans (markRender_dataStep _ _)

theorem generate_dataStep {idx : LineIdx} (hx : bufRegion s.cfg x ∈ rs) (h : generate x idx s = .ok t) :
    DataStep rs s t := by
  obtain ⟨-, rfl⟩ | ⟨-, rfl⟩ | ⟨-, hactive⟩ | ⟨-, rfl⟩ | ⟨-, rfl⟩ := generate_cases h
  · exact linePreeq_dataStep hx
  · exact lineVsync_dataStep hx
  · exact lineActive_dataStep hx hactive
  · exact lineBottom_dataStep hx
  · exact lineNowrite_dataStep

end Generator

/-! ### The transport, the handler and START -/

theorem trigger_dataStep {rs : List (Nat × Nat)} {y : Chan} {s t : State} (h : trigger y s = .ok t) :
    DataStep rs s t := by
  obtain ⟨-, -, rfl⟩ := trigger_ok.mp h
  exact dataStep_of_eq rfl rfl rfl rfl

theorem completeRun_dataStep {rs : List (Nat × Nat)} {x : Chan} {s t : State} (h : completeRun x s = .ok t) :
    DataStep rs s t := by
  rw [completeRun_eq] at h
  have hover : DataStep rs s (runOver x s) := dataStep_of_eq rfl rfl rfl rfl
  exact hover.trans (trigger_dataStep h)

theorem transfer_dataStep {rs : List (Nat × Nat)} {x : Chan} {s t : State} (h : transfer x s = .ok t) :
    DataStep rs s t := by
  obtain ⟨addr, v, -, -, -, hend⟩ := transfer_ok h
  have hmove : DataStep rs s (s.moveSample x addr v) := dataStep_of_eq rfl rfl rfl rfl
  obtain ⟨-, rfl⟩ | ⟨-, hcomplete⟩ := hend
  · exact hmove
  · exact hmove.trans (completeRun_dataStep hcomplete)

theorem nextLine_lt (idx : LineIdx) : (nextLine idx).toNat < linesPerFrame := by
  simp only [nextLine, linesPerFrame, BitVec.toNat_ofNat]
  omega

/-- Setting the scanline index to a line of the frame. -/
theorem dataStep_of_scanIdx {rs : List (Nat × Nat)} {s t : State} {line : LineIdx} (hcfg : t.cfg = s.cfg)
    (hmem : t.mem = s.mem) (hscan : t.scanIdx = some line) (hline : line.toNat < linesPerFrame)
    (hcursor : t.cursor = s.cursor) : DataStep rs s t :=
  have hrest : DataStep rs s { t with scanIdx := s.scanIdx } := dataStep_of_eq hcfg hmem rfl hcursor
  { hrest with
    scan := by
      intro v hv
      obtain rfl : line = v := Option.some.inj (hscan ▸ hv)
      exact .inr hline }

theorem service_dataStep {rs : List (Nat × Nat)} {x : Chan} {rest : List Chan} {s t : State}
    (hx : bufRegion s.cfg x ∈ rs) (h : service x rest s = .ok t) : DataStep rs s t := by
  obtain ⟨made, hgen, hback⟩ := bind_ok.mp h
  cases hback
  have htake : DataStep rs s { s with handler := { s.handler with todo := rest } } := dataStep_of_eq rfl rfl rfl rfl
  have hmade : DataStep rs { s with handler := { s.handler with todo := rest } } made := generate_dataStep hx hgen
  have hback : DataStep rs made (handBack x s.lineToMake made) :=
    dataStep_of_scanIdx rfl rfl rfl (nextLine_lt _) rfl
  exact htake.trans (hmade.trans hback)

theorem startBuilt_dataStep {rs : List (Nat × Nat)} {s : State} (ha : bufRegion s.cfg .a ∈ rs)
    (hb : bufRegion s.cfg .b ∈ rs) : DataStep rs s (startBuilt s) := by
  have hconfigured : DataStep rs s (startConfigured s) := dataStep_of_eq rfl rfl rfl rfl
  have hlineA : DataStep rs (startConfigured s) (linePreeq .a (startConfigured s)) := linePreeq_dataStep ha
  have hlineB : DataStep rs (linePreeq .a (startConfigured s)) (linePreeq .b (linePreeq .a (startConfigured s))) :=
    linePreeq_dataStep hb
  have henabled : DataStep rs (linePreeq .b (linePreeq .a (startConfigured s))) (startBuilt s) :=
    dataStep_of_scanIdx rfl rfl rfl (by decide) rfl
  exact hconfigured.trans (hlineA.trans (hlineB.trans henabled))

/-! ### Every operation -/

theorem bufRegion_mem (cfg : Config) (x : Chan) : bufRegion cfg x ∈ [bufRegion cfg .a, bufRegion cfg .b] := by
  cases x <;> simp

/-- PAL_WRITE's four samples lie in the palette: an entry is 8 bytes, and there are 256 (R71, R101). -/
theorem palWrite_dataStep {index : BitVec 8} {s : State} {vs : List Sample} (hlen : vs.length = 4) :
    DataStep [palRegion s.cfg] s
      { s with mem := Memory.writeSamples s.cfg s.mem s.cfg.palBase (4 * index.toNat) vs } :=
  dataStep_writeBytes (List.mem_singleton.mpr rfl) (by simp only [palRegion]; omega)
    (by have := index.isLt; simp only [palRegion, flatMap_sampleBytes_length, hlen, palBytes]; omega)

theorem fbWrite_dataStep {offset : BitVec 17} {byte : Byte} {s : State} (ho : offset.toNat < 76800) :
    DataStep [fbRegion s.cfg] s
      { s with mem := Memory.writeBytes s.cfg s.mem (s.cfg.fbBase.toNat + offset.toNat) [byte] } :=
  dataStep_writeBytes (List.mem_singleton.mpr rfl) (by simp only [fbRegion]; omega)
    (by simp only [fbRegion, List.length_singleton, fbBytes]; omega)

/-- What each operation may do to the data (R18, R19, R50, R94, R101, R147). -/
theorem exec_dataStep {i : Instr} {s t : State} (h : exec i s = .next t) : DataStep (storeRegions s.cfg i) s t := by
  have hbuf := bufRegion_mem s.cfg
  have he := (exec_effect h).2
  cases i with
  | palWrite index blue red green => obtain ⟨-, rfl⟩ := he; exact palWrite_dataStep rfl
  | start =>
    obtain ⟨-, -, -, htrigger⟩ := he
    exact (startBuilt_dataStep (hbuf .a) (hbuf .b)).trans (trigger_dataStep htrigger)
  | rdFrameCount => obtain rfl | rfl := he <;> exact dataStep_of_eq rfl rfl rfl rfl
  | rdRenderActive => obtain rfl | rfl := he <;> exact dataStep_of_eq rfl rfl rfl rfl
  | pwmWrap => obtain ⟨-, rfl⟩ := he; exact dataStep_of_eq rfl rfl rfl rfl
  | dmaXfer x => exact transfer_dataStep he.2
  | dmaComplete x => exact completeRun_dataStep he
  | irqEntry => obtain ⟨-, rfl⟩ := he; exact dataStep_of_eq rfl rfl rfl rfl
  | irqService => obtain ⟨-, x, rest, -, hservice⟩ := he; exact service_dataStep (hbuf x) hservice
  | irqReturn => obtain ⟨-, -, rfl⟩ := he; exact dataStep_of_eq rfl rfl rfl rfl
  | fbWrite offset byte =>
    obtain ⟨ho, rfl⟩ | rfl := he
    · exact fbWrite_dataStep ho
    · exact dataStep_of_eq rfl rfl rfl rfl
  | genTest x idx =>
    obtain ⟨-, rfl⟩ | ⟨-, hgen⟩ := he
    · exact dataStep_of_eq rfl rfl rfl rfl
    · exact generate_dataStep (hbuf x) hgen
  | genPreeq x idx => obtain rfl := he; exact linePreeq_dataStep (hbuf x)
  | genVsync x idx => obtain rfl := he; exact lineVsync_dataStep (hbuf x)
  | genActive x idx => exact lineActive_dataStep (hbuf x) he
  | genBottom x idx => obtain rfl := he; exact lineBottom_dataStep (hbuf x)
  | genNowrite x idx => obtain rfl := he; exact lineNowrite_dataStep

/-- A step stores where the one operation it runs may store; fetching and refusing store nothing. -/
theorem step_dataStep {s t : State} (h : step s = .next t) :
    DataStep [] s t ∨ ∃ box i, exec i (s.advance box) = .next t ∧ DataStep (storeRegions s.cfg i) s t := by
  obtain ⟨-, box, rfl | rfl | ⟨i, -, hexec⟩⟩ := step_next h
  · exact .inl (dataStep_of_eq rfl rfl rfl rfl)
  · exact .inl (dataStep_of_eq rfl rfl rfl rfl)
  · have hfetch : DataStep (storeRegions s.cfg i) s (s.advance box) := dataStep_of_eq rfl rfl rfl rfl
    exact .inr ⟨box, i, hexec, hfetch.trans (exec_dataStep hexec)⟩

/-- Settles O48: whatever a step does, it stores in the four regions only and keeps the two bounds. -/
theorem stepKeepsDataOk : Obligations.StepKeepsDataOk := by
  unfold Obligations.StepKeepsDataOk
  intro s t hs h
  obtain hnone | ⟨box, i, -, hdata⟩ := step_dataStep h
  · exact hnone.dataOk (List.nil_subset _) hs
  · exact hdata.dataOk (storeRegions_subset s.cfg i) hs

/-- Settles O41: after START the operation of a step is not PAL_WRITE, and every other one stores outside the
palette. -/
theorem paletteFixedAfterStart : Obligations.PaletteFixedAfterStart := by
  unfold Obligations.PaletteFixedAfterStart
  intro s t hp hstarted h j hj
  obtain hnone | ⟨box, i, hexec, hdata⟩ := step_dataStep h
  · exact hnone.pal_eq (by simp) hj
  · have hi : ∀ index blue red green, i ≠ .palWrite index blue red green := by
      rintro index blue red green rfl
      obtain ⟨-, hnot, -⟩ := exec_effect hexec
      simp [hstarted] at hnot
    exact hdata.pal_eq (fun _ hr => storeRegions_apart_pal hp hi hr) hj

/-- Settles O42: every operation but FB_WRITE stores outside the framebuffer. -/
theorem onlyProducerWritesFramebuffer : Obligations.OnlyProducerWritesFramebuffer := by
  unfold Obligations.OnlyProducerWritesFramebuffer
  intro i s t hp h hi o ho
  exact (exec_dataStep h).fb_eq (fun _ hr => storeRegions_apart_fb hp hi hr) ho

/-! ### The completion bits -/

theorem OnlyGenerated.intr_eq {s t : State} (h : OnlyGenerated s t) : t.intr = s.intr := by
  rw [h.rest]

theorem trigger_intr {y : Chan} {s t : State} (h : trigger y s = .ok t) : t.intr = s.intr := by
  obtain ⟨-, -, rfl⟩ := trigger_ok.mp h
  rfl

theorem completeRun_intr {x : Chan} {s t : State} (h : completeRun x s = .ok t) : t.intr = s.intr.set x true := by
  rw [completeRun_eq] at h
  exact trigger_intr h

/-- A transfer sets its channel's bit if it ends the run, the count being 1, and else leaves both alone (R116, R117). -/
theorem transfer_intr {x : Chan} {s t : State} (h : transfer x s = .ok t) :
    t.intr = s.intr ∨ ((s.dma.get x).count = 1 ∧ t.intr = s.intr.set x true) := by
  obtain ⟨addr, v, -, -, -, ⟨-, rfl⟩ | ⟨hcount, hcomplete⟩⟩ := transfer_ok h
  · exact .inl rfl
  · have hset : t.intr = (s.moveSample x addr v).intr.set x true := completeRun_intr hcomplete
    exact .inr ⟨sub_eq_zero.mp hcount, hset⟩

theorem service_intr {x : Chan} {rest : List Chan} {s t : State} (h : service x rest s = .ok t) :
    t.intr = s.intr := by
  obtain ⟨made, hgen, hback⟩ := bind_ok.mp h
  cases hback
  exact (generate_onlyGenerated hgen).intr_eq

/-- The operation `i` completes channel `y`'s run: the transfer that ends it, or the completion itself (R116, R117). -/
def Completes (i : Instr) (s : State) (y : Chan) : Prop :=
  (i = .dmaXfer y ∧ (s.dma.get y).count = 1) ∨ i = .dmaComplete y

/-- The completion bits after an operation: START clears both, the handler's entry clears those it reads, a completion
sets its channel's, and any other operation leaves them alone (R32, R117, R125, R144). -/
theorem exec_intr {i : Instr} {s t : State} (h : exec i s = .next t) :
    t.intr = s.intr ∨ (i = .start ∧ t.intr = ⟨false, false⟩) ∨ (i = .irqEntry ∧ t.intr = (enterHandler s).intr) ∨
      ∃ y, Completes i s y ∧ t.intr = s.intr.set y true := by
  have he := (exec_effect h).2
  cases i with
  | start =>
    obtain ⟨-, -, -, htrigger⟩ := he
    exact .inr (.inl ⟨rfl, (trigger_intr htrigger).trans (startBuilt_intr s)⟩)
  | irqEntry => obtain ⟨-, rfl⟩ := he; exact .inr (.inr (.inl ⟨rfl, rfl⟩))
  | dmaXfer x =>
    obtain hkeep | ⟨hcount, hset⟩ := transfer_intr he.2
    · exact .inl hkeep
    · exact .inr (.inr (.inr ⟨x, .inl ⟨rfl, hcount⟩, hset⟩))
  | dmaComplete x => exact .inr (.inr (.inr ⟨x, .inr rfl, completeRun_intr he⟩))
  | palWrite index blue red green => obtain ⟨-, rfl⟩ := he; exact .inl rfl
  | rdFrameCount => obtain rfl | rfl := he <;> exact .inl rfl
  | rdRenderActive => obtain rfl | rfl := he <;> exact .inl rfl
  | pwmWrap => obtain ⟨-, rfl⟩ := he; exact .inl rfl
  | irqService => obtain ⟨-, x, rest, -, hservice⟩ := he; exact .inl (service_intr hservice)
  | irqReturn => obtain ⟨-, -, rfl⟩ := he; exact .inl rfl
  | fbWrite offset byte => obtain ⟨-, rfl⟩ | rfl := he <;> exact .inl rfl
  | genTest x idx =>
    obtain ⟨-, rfl⟩ | ⟨-, hgen⟩ := he
    · exact .inl rfl
    · exact .inl (generate_onlyGenerated hgen).intr_eq
  | genPreeq x idx => obtain rfl := he; exact .inl (onlyGenerated_linePreeq x s).intr_eq
  | genVsync x idx => obtain rfl := he; exact .inl (onlyGenerated_lineVsync x s).intr_eq
  | genActive x idx => exact .inl (onlyGenerated_lineActive he).intr_eq
  | genBottom x idx => obtain rfl := he; exact .inl (onlyGenerated_lineBottom x idx s).intr_eq
  | genNowrite x idx => obtain rfl := he; exact .inl (onlyGenerated_lineNowrite s).intr_eq

/-- Settles O45: the four things an operation can do to the completion bits, read at channel `x`. -/
theorem completionBitsHaveOneWriter : Obligations.CompletionBitsHaveOneWriter := by
  unfold Obligations.CompletionBitsHaveOneWriter
  intro i s t x h
  by_cases hsame : t.intr.get x = s.intr.get x
  · rw [hsame]
    exact ⟨fun hdown hup => absurd hup (by simp [hdown]), fun hup hdown => absurd hup (by simp [hdown])⟩
  · obtain hkeep | ⟨rfl, hclear⟩ | ⟨rfl, hentry⟩ | ⟨y, hcompletes, hset⟩ := exec_intr h
    · exact absurd (by rw [hkeep]) hsame
    · have hzero : t.intr.get x = false := by rw [hclear]; cases x <;> rfl
      exact ⟨fun _ hup => absurd hup (by simp [hzero]), fun _ _ => .inl rfl⟩
    · rw [hentry, enterHandler_intr]
      refine ⟨fun hdown hup => absurd hup (by simp [hdown]), fun hup hdown => .inr ⟨rfl, ?_⟩⟩
      simpa [State.ints, hup] using hdown
    · obtain rfl : x = y := by_contra fun hne => hsame (by rw [hset, Pair.get_set_ne hne])
      exact ⟨fun _ _ => hcompletes, fun _ hdown => absurd hdown (by simp [hset])⟩

end Sys2Proof.Machine

/-!
The placement (R51, R56, R156): which launches have an initial state; and, for a valid placement, which buffers an
operation may change (R25, R63).
-/
namespace Sys2Proof.Machine

/-! ### The placement check -/

/-- Two regions that hold a byte each are apart exactly if no address lies in both. -/
theorem regionsApart_iff {r t : Nat × Nat} (hr : 0 < r.2) (ht : 0 < t.2) :
    regionsApart r t = true ↔ ∀ a, r.1 ≤ a ∧ a < r.1 + r.2 → ¬(t.1 ≤ a ∧ a < t.1 + t.2) := by
  rw [regionsApart, decide_eq_true_iff]
  constructor
  · intro hapart a ha hta
    omega
  · intro hnone
    have hhigher := hnone (max r.1 t.1)
    omega

theorem regionsApart_symm {r t : Nat × Nat} (h : regionsApart r t = true) : regionsApart t r = true := by
  simpa [regionsApart, or_comm] using h

/-- Regions that hold a byte each are pairwise apart exactly if no address lies in two of them and none is listed
twice. -/
theorem pairwise_regionsApart_iff {rs : List (Nat × Nat)} (hpos : ∀ r ∈ rs, 0 < r.2) :
    rs.Pairwise (fun r t => regionsApart r t = true) ↔
      (∀ a, ∀ r ∈ rs, ∀ t ∈ rs, r.1 ≤ a ∧ a < r.1 + r.2 → t.1 ≤ a ∧ a < t.1 + t.2 → r = t) ∧ rs.Nodup := by
  constructor
  · intro hapart
    have hsymm : Std.Symm fun r t => regionsApart r t = true := ⟨fun _ _ => regionsApart_symm⟩
    constructor
    · intro a r hr t ht ha hta
      by_contra hne
      exact (regionsApart_iff (hpos r hr) (hpos t ht)).mp (hapart.forall hr ht hne) a ha hta
    · refine hapart.imp_of_mem ?_
      rintro r _ hr - hself rfl
      have := hpos r hr
      exact (regionsApart_iff this this).mp hself r.1 (by omega) (by omega)
  · rintro ⟨honce, hnodup⟩
    refine hnodup.pairwise_of_forall_ne fun r hr t ht hne => ?_
    exact (regionsApart_iff (hpos r hr) (hpos t ht)).mpr fun a ha hta => hne (honce a r hr t ht ha hta)

theorem dataRegions_size_pos {cfg : Config} : ∀ r ∈ dataRegions cfg, 0 < r.2 := by
  simp [dataRegions]

/-- The four regions are different pairs unless the two buffers have one base: all other sizes differ. -/
theorem dataRegions_nodup {cfg : Config} : (dataRegions cfg).Nodup ↔ cfg.bufABase ≠ cfg.bufBBase := by
  simp [dataRegions, BitVec.toNat_inj]

/-- The sink is placed exactly if its address is even and neither of its two bytes lies in a region (R56). -/
theorem sinkPlaced_iff {cfg : Config} :
    sinkPlaced cfg = true ↔ cfg.ccBAddr.toNat % 2 = 0 ∧ ∀ r ∈ dataRegions cfg, ∀ a,
      a = cfg.ccBAddr.toNat ∨ a = cfg.ccBAddr.toNat + 1 → ¬(r.1 ≤ a ∧ a < r.1 + r.2) := by
  rw [sinkPlaced, Bool.and_eq_true, decide_eq_true_iff, List.all_eq_true]
  refine and_congr_right fun _ => forall₂_congr fun r hr => ?_
  rw [regionsApart_iff Nat.two_pos (dataRegions_size_pos r hr)]
  exact forall_congr' fun a => imp_congr_left (by omega)

/-- The placement check, clause by clause. -/
theorem placementOk_iff {cfg : Config} :
    placementOk cfg = true ↔
      (∀ r ∈ dataRegions cfg, r.1 % 4 = 0 ∧ r.1 + r.2 ≤ 2 ^ 32) ∧
      (dataRegions cfg).Pairwise (fun r t => regionsApart r t = true) ∧
      cfg.outPin.val % 2 = 1 ∧ cfg.chA ≠ cfg.chB ∧ sinkPlaced cfg = true := by
  simp only [placementOk, Bool.and_eq_true, decide_eq_true_iff, List.all_eq_true, regionPlaced, and_assoc]

theorem launch_of_placed {cfg : Config} (hp : placementOk cfg = true) (fbInit : Vector Byte fbBytes) :
    launch cfg fbInit = .ok (State.powerOn cfg (Memory.cellsOf cfg cfg.fbBase.toNat fbInit.toList)) := if_pos hp

theorem launch_of_not_placed {cfg : Config} (hp : ¬placementOk cfg = true) (fbInit : Vector Byte fbBytes) :
    launch cfg fbInit = .error .placement := if_neg hp

theorem launch_ok_iff {cfg : Config} {fbInit : Vector Byte fbBytes} :
    (∃ s, launch cfg fbInit = .ok s) ↔ placementOk cfg = true := by
  by_cases hp : placementOk cfg = true
  · simp [launch_of_placed hp, hp]
  · simp [launch_of_not_placed hp, hp]

/-- Settles O2: the launch has the two outcomes of its check, whose clauses say the same over addresses. -/
theorem launchRefusesBadPlacement : Obligations.LaunchRefusesBadPlacement := by
  unfold Obligations.LaunchRefusesBadPlacement
  intro cfg fbInit
  constructor
  · by_cases hp : placementOk cfg = true
    · exact .inr (launch_ok_iff.mpr hp)
    · exact .inl (launch_of_not_placed hp fbInit)
  · rw [launch_ok_iff, placementOk_iff, pairwise_regionsApart_iff dataRegions_size_pos, dataRegions_nodup,
      sinkPlaced_iff, and_assoc]

/-! ### Who changes a buffer -/

/-- The buffers that an operation calls the generator for (R25, R63): START both, a service the one it refills, a test
call and a writing generator operation its own. -/
def filledBufs (s : State) : Instr → List Chan
  | .start => if s.started then [] else [.a, .b]
  | .irqService => s.handler.todo.head?.toList
  | .genTest x _ => if s.started then [] else [x]
  | .genPreeq x _ => [x]
  | .genVsync x _ => [x]
  | .genActive x _ => [x]
  | .genBottom x _ => [x]
  | _ => []

/-- The regions an operation may store in: PAL_WRITE the palette, FB_WRITE the framebuffer, every other operation the
buffers it calls the generator for. -/
def filledRegions (s : State) : Instr → List (Nat × Nat)
  | .palWrite _ _ _ _ => [palRegion s.cfg]
  | .fbWrite _ _ => [fbRegion s.cfg]
  | i => (filledBufs s i).map (bufRegion s.cfg)

theorem mem_filledBufs {i : Instr} {s : State} {x : Chan} (hx : x ∈ filledBufs s i) :
    (i = .start ∧ s.started = false) ∨ (i = .irqService ∧ s.handler.todo.head? = some x) ∨
      (∃ idx, i = .genTest x idx ∧ s.started = false) ∨
      ∃ idx, i ∈ [Instr.genPreeq x idx, .genVsync x idx, .genActive x idx, .genBottom x idx] := by
  cases i with
  | start =>
    obtain ⟨hnot, -⟩ : s.started = false ∧ (x = .a ∨ x = .b) := by simpa [filledBufs] using hx
    exact .inl ⟨rfl, hnot⟩
  | irqService => exact .inr (.inl ⟨rfl, Option.mem_toList.mp hx⟩)
  | genTest y idx =>
    obtain ⟨hnot, rfl⟩ : s.started = false ∧ x = y := by simpa [filledBufs] using hx
    exact .inr (.inr (.inl ⟨idx, rfl, hnot⟩))
  | genPreeq y idx => obtain rfl := List.mem_singleton.mp hx; exact .inr (.inr (.inr ⟨idx, by simp⟩))
  | genVsync y idx => obtain rfl := List.mem_singleton.mp hx; exact .inr (.inr (.inr ⟨idx, by simp⟩))
  | genActive y idx => obtain rfl := List.mem_singleton.mp hx; exact .inr (.inr (.inr ⟨idx, by simp⟩))
  | genBottom y idx => obtain rfl := List.mem_singleton.mp hx; exact .inr (.inr (.inr ⟨idx, by simp⟩))
  | _ => simp [filledBufs] at hx

/-- `exec_dataStep` with the buffers told apart: what each operation may do to the data (R25, R63, R101, R147). -/
theorem exec_dataStep_filled {i : Instr} {s t : State} (h : exec i s = .next t) : DataStep (filledRegions s i) s t := by
  have hown (x : Chan) : bufRegion s.cfg x ∈ [bufRegion s.cfg x] := List.mem_singleton_self _
  have he := (exec_effect h).2
  cases i with
  | palWrite index blue red green => exact exec_dataStep h
  | fbWrite offset byte => exact exec_dataStep h
  | start =>
    obtain ⟨hnot, -⟩ := he
    simpa [filledRegions, filledBufs, hnot, storeRegions] using exec_dataStep h
  | irqService =>
    obtain ⟨-, x, rest, htodo, hservice⟩ := he
    simpa [filledRegions, filledBufs, htodo] using service_dataStep (hown x) hservice
  | genTest x idx =>
    obtain ⟨-, rfl⟩ | ⟨hnot, hgen⟩ := he
    · exact dataStep_of_eq rfl rfl rfl rfl
    · simpa [filledRegions, filledBufs, hnot] using generate_dataStep (hown x) hgen
  | genPreeq x idx => obtain rfl := he; exact linePreeq_dataStep (hown x)
  | genVsync x idx => obtain rfl := he; exact lineVsync_dataStep (hown x)
  | genActive x idx => exact lineActive_dataStep (hown x) he
  | genBottom x idx => obtain rfl := he; exact lineBottom_dataStep (hown x)
  | genNowrite x idx => obtain rfl := he; exact lineNowrite_dataStep
  | dmaXfer x => exact transfer_dataStep he.2
  | dmaComplete x => exact completeRun_dataStep he
  | rdFrameCount => obtain rfl | rfl := he <;> exact dataStep_of_eq rfl rfl rfl rfl
  | rdRenderActive => obtain rfl | rfl := he <;> exact dataStep_of_eq rfl rfl rfl rfl
  | pwmWrap => obtain ⟨-, rfl⟩ := he; exact dataStep_of_eq rfl rfl rfl rfl
  | irqEntry => obtain ⟨-, rfl⟩ := he; exact dataStep_of_eq rfl rfl rfl rfl
  | irqReturn => obtain ⟨-, -, rfl⟩ := he; exact dataStep_of_eq rfl rfl rfl rfl

/-- In a valid placement an operation stores outside every buffer that it does not call the generator for. -/
theorem filledRegions_apart_buf {i : Instr} {s : State} {x : Chan} (hp : placementOk s.cfg = true)
    (hx : x ∉ filledBufs s i) {r : Nat × Nat} (hr : r ∈ filledRegions s i) :
    r.1 + r.2 ≤ (s.cfg.bufBase x).toNat ∨ (s.cfg.bufBase x).toNat + 1816 ≤ r.1 := by
  obtain ⟨hpeer, hpal, hfb⟩ := placementOk_buf hp x
  unfold filledRegions at hr
  split at hr
  · obtain rfl := List.mem_singleton.mp hr
    exact hpal.symm
  · obtain rfl := List.mem_singleton.mp hr
    exact hfb.symm
  · obtain ⟨y, hy, rfl⟩ := List.mem_map.mp hr
    obtain rfl | rfl := Chan.eq_or_peer x y
    · exact absurd hy hx
    · exact hpeer.symm

theorem DataStep.buf_eq {rs : List (Nat × Nat)} {s t : State} {x : Chan} (h : DataStep rs s t)
    (hrs : ∀ r ∈ rs, r.1 + r.2 ≤ (s.cfg.bufBase x).toNat ∨ (s.cfg.bufBase x).toNat + 1816 ≤ r.1) {n : Nat}
    (hn : n < 908) : t.buf x n = s.buf x n :=
  buf_congr h.cfg (h.outside _ fun r hr => by have := hrs r hr; omega)
    (h.outside _ fun r hr => by have := hrs r hr; omega)

/-- Settles O43: an operation stores outside every buffer that it does not call the generator for. -/
theorem onlyGeneratorWritesBuffers : Obligations.OnlyGeneratorWritesBuffers := by
  unfold Obligations.OnlyGeneratorWritesBuffers
  rintro i s t x hp h ⟨n, hn, hchanged⟩
  refine mem_filledBufs (by_contra fun hx => hchanged ?_)
  exact (exec_dataStep_filled h).buf_eq (fun _ hr => filledRegions_apart_buf hp hx hr) hn

end Sys2Proof.Machine

/-!
The encodings (R75, R77 to R80, R83, R86): for each form of access, that the decoder answers exactly the well-formed
operation whose encoding the access is.
-/
namespace Sys2Proof

/-! ### Words as numbers -/

theorem toNat_append_eq_add {m n : Nat} (x : BitVec m) (y : BitVec n) :
    (x ++ y).toNat = x.toNat * 2 ^ n + y.toNat := by
  rw [BitVec.toNat_append, ← Nat.shiftLeft_add_eq_or_of_lt y.isLt, Nat.shiftLeft_eq]

/-- A channel operand in bit `k`, as a digit of the word's number (R80). -/
theorem chanOfBit_getLsbD_eq_iff {w : BitVec 32} {k : Nat} {x : Chan} :
    chanOfBit (w.getLsbD k) = x ↔ w.toNat / 2 ^ k % 2 = (bitOfChan x).toNat := by
  rw [BitVec.getLsbD, Nat.testBit_eq_decide_div_mod_eq]
  cases x <;> simp [chanOfBit, bitOfChan]

/-! ### The fields of an event word (R80)

For each form of operands: the fields that the decoder cuts out of a word are those of an encoding exactly if the
encoding's parts, put together, are the word. -/

/-- The code of an event word, `[31:28]`. -/
def eventCode (w : BitVec 32) : BitVec 4 := w.extractLsb' 28 4

section Fields

variable {w : BitVec 32}

theorem noOperand_fields : w.extractLsb' 0 28 = 0 ↔ eventCode w ++ (0 : BitVec 28) = w := by
  simp only [eventCode, ← BitVec.toNat_inj, toNat_append_eq_add, BitVec.extractLsb'_toNat, BitVec.ofNat_eq_ofNat,
    BitVec.toNat_ofNat]
  omega

theorem chanOperand_fields {x : Chan} :
    w.extractLsb' 1 27 = 0 ∧ chanOfBit (w.getLsbD 0) = x ↔
      eventCode w ++ (0 : BitVec 27) ++ BitVec.ofBool (bitOfChan x) = w := by
  simp only [eventCode, ← BitVec.toNat_inj, toNat_append_eq_add, BitVec.extractLsb'_toNat, BitVec.ofNat_eq_ofNat,
    BitVec.toNat_ofNat, chanOfBit_getLsbD_eq_iff, BitVec.toNat_ofBool]
  have := (bitOfChan x).toNat_lt
  omega

theorem fbWrite_fields {offset : BitVec 17} {byte : Byte} :
    w.extractLsb' 25 3 = 0 ∧ w.extractLsb' 8 17 = offset ∧ w.extractLsb' 0 8 = byte ↔
      eventCode w ++ (0 : BitVec 3) ++ offset ++ byte = w := by
  simp only [eventCode, ← BitVec.toNat_inj, toNat_append_eq_add, BitVec.extractLsb'_toNat, BitVec.ofNat_eq_ofNat,
    BitVec.toNat_ofNat]
  omega

theorem genTest_fields {x : Chan} {idx : LineIdx} :
    w.extractLsb' 10 18 = 0 ∧ chanOfBit (w.getLsbD 9) = x ∧ w.extractLsb' 0 9 = idx ↔
      eventCode w ++ (0 : BitVec 18) ++ BitVec.ofBool (bitOfChan x) ++ idx = w := by
  simp only [eventCode, ← BitVec.toNat_inj, toNat_append_eq_add, BitVec.extractLsb'_toNat, BitVec.ofNat_eq_ofNat,
    BitVec.toNat_ofNat, chanOfBit_getLsbD_eq_iff, BitVec.toNat_ofBool]
  have := (bitOfChan x).toNat_lt
  omega

/-! ### Each form of operands, decoded exactly from its encoding -/

/-- A check of the decoder lets a result through exactly if it holds (R83). -/
theorem decoderCheck_ok_iff {c : Prop} [Decidable c] {r : Except DecodeError Instr} {e : DecodeError} {i : Instr} :
    (if c then r else .error e) = .ok i ↔ c ∧ r = .ok i := by
  by_cases hc : c <;> simp [hc]

theorem decodeNoOperand_ok_iff {i j : Instr} :
    decodeNoOperand w j = .ok i ↔ j = i ∧ encodeNoOperand (eventCode w) = .event w := by
  rw [decodeNoOperand, decoderCheck_ok_iff, Except.ok.injEq, encodeNoOperand, Access.event.injEq, noOperand_fields,
    and_comm]

theorem decodeChanOperand_ok_iff {op : Chan → Instr} {i : Instr} :
    decodeChanOperand w op = .ok i ↔ ∃ x, op x = i ∧ encodeChanOperand (eventCode w) x = .event w := by
  simp only [decodeChanOperand, decoderCheck_ok_iff, Except.ok.injEq, encodeChanOperand, Access.event.injEq,
    ← chanOperand_fields]
  constructor
  · rintro ⟨hzero, hi⟩
    exact ⟨_, hi, hzero, rfl⟩
  · rintro ⟨x, hi, hzero, rfl⟩
    exact ⟨hzero, hi⟩

theorem decodeFbWrite_ok_iff {i : Instr} :
    decodeFbWrite w = .ok i ↔ ∃ offset byte, .fbWrite offset byte = i ∧ offset.toNat < fbBytes ∧
      eventCode w ++ (0 : BitVec 3) ++ offset ++ byte = w := by
  simp only [decodeFbWrite, decoderCheck_ok_iff, Except.ok.injEq, ← fbWrite_fields]
  constructor
  · rintro ⟨hzero, hfit, hi⟩
    exact ⟨_, _, hi, hfit, hzero, rfl, rfl⟩
  · rintro ⟨offset, byte, hi, hfit, hzero, rfl, rfl⟩
    exact ⟨hzero, hfit, hi⟩

theorem decodeGenTest_ok_iff {i : Instr} :
    decodeGenTest w = .ok i ↔ ∃ x idx, .genTest x idx = i ∧
      eventCode w ++ (0 : BitVec 18) ++ BitVec.ofBool (bitOfChan x) ++ idx = w := by
  simp only [decodeGenTest, decoderCheck_ok_iff, Except.ok.injEq, ← genTest_fields]
  constructor
  · rintro ⟨hzero, hi⟩
    exact ⟨_, _, hi, hzero, rfl, rfl⟩
  · rintro ⟨x, idx, hi, hzero, rfl, rfl⟩
    exact ⟨hzero, hi⟩

/-! ### The code of an event word (R80) -/

/-- The encoder puts R80's code into `[31:28]` of an event word. -/
theorem eventCode_of_encode {i : Instr} (h : encode i = .event w) : Laws.EventCode.code i = some (eventCode w) := by
  have hlaw : Laws.EventCode.Statement i := by
    cases i with
    | palWrite index blue red green => exact Laws.EventCode.palWrite index blue red green
    | start => exact Laws.EventCode.start
    | rdFrameCount => exact Laws.EventCode.rdFrameCount
    | rdRenderActive => exact Laws.EventCode.rdRenderActive
    | pwmWrap => exact Laws.EventCode.pwmWrap
    | dmaXfer x => exact Laws.EventCode.dmaXfer x
    | dmaComplete x => exact Laws.EventCode.dmaComplete x
    | irqEntry => exact Laws.EventCode.irqEntry
    | irqService => exact Laws.EventCode.irqService
    | irqReturn => exact Laws.EventCode.irqReturn
    | fbWrite offset byte => exact Laws.EventCode.fbWrite offset byte
    | genTest x idx => exact Laws.EventCode.genTest x idx
    | genPreeq x idx => exact Laws.EventCode.genPreeq x idx
    | genVsync x idx => exact Laws.EventCode.genVsync x idx
    | genActive x idx => exact Laws.EventCode.genActive x idx
    | genBottom x idx => exact Laws.EventCode.genBottom x idx
    | genNowrite x idx => exact Laws.EventCode.genNowrite x idx
  rw [Laws.EventCode.Statement, h] at hlaw
  exact hlaw

/-- What an event word decodes to is well formed and is encoded as that word (R80, R83). -/
theorem encode_of_decodeEvent {i : Instr} (h : decodeEvent w = .ok i) :
    i.wellFormed = true ∧ encode i = .event w := by
  have hcode {n : Nat} (hn : (w.extractLsb' 28 4).toNat = n) : eventCode w = BitVec.ofNat 4 n := by
    rw [← hn, BitVec.ofNat_toNat]
    rfl
  unfold decodeEvent at h
  split at h
  case h_1 hn | h_4 hn | h_5 hn | h_6 hn =>
    obtain ⟨rfl, hw⟩ := decodeNoOperand_ok_iff.mp h
    rw [hcode hn] at hw
    exact ⟨rfl, hw⟩
  case h_2 hn | h_3 hn =>
    obtain ⟨x, rfl, hw⟩ := decodeChanOperand_ok_iff.mp h
    rw [hcode hn] at hw
    exact ⟨rfl, hw⟩
  case h_7 hn =>
    obtain ⟨offset, byte, rfl, hfit, hw⟩ := decodeFbWrite_ok_iff.mp h
    rw [hcode hn] at hw
    exact ⟨decide_eq_true hfit, congrArg Access.event hw⟩
  case h_8 hn =>
    obtain ⟨x, idx, rfl, hw⟩ := decodeGenTest_ok_iff.mp h
    rw [hcode hn] at hw
    exact ⟨rfl, congrArg Access.event hw⟩
  case h_9 => cases h

/-- The event word of a well-formed operation decodes to it (R80). -/
theorem decodeEvent_of_encode {i : Instr} (hwf : i.wellFormed = true) (h : encode i = .event w) :
    decodeEvent w = .ok i := by
  have hcode := eventCode_of_encode h
  have hsel {c : BitVec 4} (hc : some c = some (eventCode w)) : (w.extractLsb' 28 4).toNat = c.toNat :=
    congrArg BitVec.toNat (Option.some.inj hc).symm
  cases i with
  | pwmWrap | irqEntry | irqService | irqReturn =>
    rw [decodeEvent, hsel hcode]
    exact decodeNoOperand_ok_iff.mpr ⟨rfl, Option.some.inj hcode ▸ h⟩
  | dmaXfer x | dmaComplete x =>
    rw [decodeEvent, hsel hcode]
    exact decodeChanOperand_ok_iff.mpr ⟨x, rfl, Option.some.inj hcode ▸ h⟩
  | fbWrite offset byte =>
    rw [decodeEvent, hsel hcode]
    exact decodeFbWrite_ok_iff.mpr
      ⟨offset, byte, rfl, of_decide_eq_true hwf, Option.some.inj hcode ▸ Access.event.inj h⟩
  | genTest x idx =>
    rw [decodeEvent, hsel hcode]
    exact decodeGenTest_ok_iff.mpr ⟨x, idx, rfl, Option.some.inj hcode ▸ Access.event.inj h⟩
  | palWrite | start | rdFrameCount | rdRenderActive | genPreeq | genVsync | genActive | genBottom | genNowrite =>
    cases h

end Fields

/-! ### Host accesses (R77 to R79) -/

theorem selector_toNat (write : Bool) (offset : BitVec 8) :
    (selector write offset).toNat = write.toNat * 2 ^ 8 + offset.toNat := by
  rw [selector, toNat_append_eq_add, BitVec.toNat_ofBool]

/-- A selector's number names one access direction and one offset (R77). -/
theorem selector_toNat_inj {write write' : Bool} {offset offset' : BitVec 8}
    (h : (selector write offset).toNat = (selector write' offset').toNat) : write = write' ∧ offset = offset' := by
  rw [selector_toNat, selector_toNat] at h
  have toNat_inj : ∀ a b : Bool, a.toNat = b.toNat → a = b := by decide
  exact ⟨toNat_inj _ _ (by omega), BitVec.eq_of_toNat_eq (by omega)⟩

/-- PAL_WRITE's data word is its four bytes put together (R79). -/
theorem encode_decodePalData (data : BitVec 32) : encode (decodePalData data) = .host true 0x00 data := by
  have hdata : data.extractLsb' 24 8 ++ data.extractLsb' 16 8 ++ data.extractLsb' 8 8 ++ data.extractLsb' 0 8
      = data := by
    simp only [← BitVec.toNat_inj, toNat_append_eq_add, BitVec.extractLsb'_toNat]
    omega
  rw [decodePalData, encode, hdata]

theorem decodePalData_append (index blue red green : BitVec 8) :
    decodePalData (index ++ blue ++ red ++ green) = .palWrite index blue red green := by
  simp only [decodePalData, Instr.palWrite.injEq, ← BitVec.toNat_inj, toNat_append_eq_add, BitVec.extractLsb'_toNat]
  omega

/-- The four selectors of R78 and what each decodes to. -/
theorem decodeHost_ok_iff {write : Bool} {offset : BitVec 8} {data : BitVec 32} {i : Instr} :
    decodeHost write offset data = .ok i ↔
      (write = true ∧ offset = 0x00#8 ∧ decodePalData data = i) ∨ (write = true ∧ offset = 0x04#8 ∧ .start = i) ∨
      (write = false ∧ offset = 0x08#8 ∧ .rdFrameCount = i) ∨
      (write = false ∧ offset = 0x0C#8 ∧ .rdRenderActive = i) := by
  constructor
  · intro h
    unfold decodeHost at h
    split at h
    case h_1 hn =>
      obtain ⟨rfl, rfl⟩ := selector_toNat_inj (write' := true) (offset' := 0x00#8) hn
      exact .inl ⟨rfl, rfl, Except.ok.inj h⟩
    case h_2 hn =>
      obtain ⟨rfl, rfl⟩ := selector_toNat_inj (write' := true) (offset' := 0x04#8) hn
      exact .inr (.inl ⟨rfl, rfl, Except.ok.inj h⟩)
    case h_3 hn =>
      obtain ⟨rfl, rfl⟩ := selector_toNat_inj (write' := false) (offset' := 0x08#8) hn
      exact .inr (.inr (.inl ⟨rfl, rfl, Except.ok.inj h⟩))
    case h_4 hn =>
      obtain ⟨rfl, rfl⟩ := selector_toNat_inj (write' := false) (offset' := 0x0C#8) hn
      exact .inr (.inr (.inr ⟨rfl, rfl, Except.ok.inj h⟩))
    case h_5 => cases h
  · rintro (⟨rfl, rfl, rfl⟩ | ⟨rfl, rfl, rfl⟩ | ⟨rfl, rfl, rfl⟩ | ⟨rfl, rfl, rfl⟩) <;> rfl

/-! ### Generator calls (R75, R76) -/

/-- The operation of a region (R75). -/
def regionOp (x : Chan) (idx : LineIdx) : Region → Instr
  | .preeq => .genPreeq x idx
  | .vsync => .genVsync x idx
  | .active => .genActive x idx
  | .bottom => .genBottom x idx
  | .nowrite => .genNowrite x idx

section Generator

variable {x : Chan} {idx : LineIdx} {region : Region}

theorem decodeGen_eq_regionOp (x : Chan) (idx : LineIdx) : decodeGen x idx = regionOp x idx (classify idx) := by
  unfold decodeGen
  cases classify idx <;> rfl

theorem encode_regionOp (x : Chan) (idx : LineIdx) (region : Region) :
    encode (regionOp x idx region) = .gen x idx := by
  cases region <;> rfl

/-- R76's cascade of comparisons selects by R75's ranges: an operation of a region is well formed for the indices that
the cascade gives that region. -/
theorem regionOp_wellFormed_iff : (regionOp x idx region).wellFormed = true ↔ classify idx = region := by
  simp only [classify]
  constructor
  · intro h
    cases region <;> simp only [regionOp, Instr.wellFormed, decide_eq_true_eq] at h
    case preeq => exact if_pos (by omega)
    case vsync => rw [if_neg (by omega), if_pos (by omega)]
    case active => rw [if_neg (by omega), if_neg (by omega), if_pos (by omega)]
    case bottom => rw [if_neg (by omega), if_neg (by omega), if_neg (by omega), if_pos (by omega)]
    case nowrite => rw [if_neg (by omega), if_neg (by omega), if_neg (by omega), if_neg (by omega)]
  · rintro rfl
    split_ifs <;> simp only [regionOp, Instr.wellFormed, decide_eq_true_eq] <;> omega

/-- A well-formed operation of a region is what its generator call decodes to. -/
theorem decodeGen_of_wellFormed (h : (regionOp x idx region).wellFormed = true) :
    decode (.gen x idx) = .ok (regionOp x idx region) := by
  rw [decode, decodeGen_eq_regionOp, regionOp_wellFormed_iff.mp h]

/-- R75's mask 0x1FE clears bit 0 of an index. -/
theorem toNat_and_mask (idx : LineIdx) : (idx &&& 0x1FE#9).toNat = 2 * (idx.toNat / 2) := by
  have hlow : (idx.toNat &&& 0x1FE) % 2 ^ 1 = idx.toNat % 2 ^ 1 &&& 0 := Nat.and_mod_two_pow
  have hhigh : (idx.toNat &&& 0x1FE) / 2 ^ 1 = idx.toNat / 2 ^ 1 &&& (2 ^ 8 - 1) := Nat.and_div_two_pow
  rw [Nat.and_zero] at hlow
  rw [Nat.and_two_pow_sub_one_eq_mod] at hhigh
  rw [BitVec.toNat_and, show (0x1FE#9).toNat = 0x1FE from rfl]
  omega

end Generator

end Sys2Proof

/-!
The encoding statements (R75 to R80, R83), how an access becomes a step (R84, R86), which accesses are refused (R83, R99,
R156), and when an operation is answered `notEnabled` (R84).
-/
namespace Sys2Proof.Machine

/-! ### Decoding and encoding -/

/-- Settles O11: a masked index is the even one of its pair, so that the tables' matches are ranges of two. -/
theorem classifierMatchesTable : Obligations.ClassifierMatchesTable := by
  unfold Obligations.ClassifierMatchesTable
  intro idx
  simp only [← regionOp_wellFormed_iff (x := .a), regionOp, Instr.wellFormed, decide_eq_true_eq, ← BitVec.toNat_inj,
    BitVec.ofNat_eq_ofNat, toNat_and_mask, BitVec.toNat_ofNat]
  refine ⟨?_, ?_, trivial, ?_, trivial⟩ <;> omega

/-- Settles O10: the ten words, each decoded. -/
theorem tableWordsDecode : Obligations.TableWordsDecode := by
  unfold Obligations.TableWordsDecode
  decide

/-- Settles O12: the host accesses by their selectors, the event words by their fields, the generator calls by their
regions. -/
theorem decodeEncodeRoundTrip : Obligations.DecodeEncodeRoundTrip := by
  unfold Obligations.DecodeEncodeRoundTrip
  intro i hwf
  cases i with
  | palWrite index blue red green =>
    exact decodeHost_ok_iff.mpr (.inl ⟨rfl, rfl, decodePalData_append index blue red green⟩)
  | start | rdFrameCount | rdRenderActive => rfl
  | pwmWrap | dmaXfer | dmaComplete | irqEntry | irqService | irqReturn | fbWrite | genTest =>
    exact decodeEvent_of_encode hwf rfl
  | genPreeq => exact decodeGen_of_wellFormed (region := .preeq) hwf
  | genVsync => exact decodeGen_of_wellFormed (region := .vsync) hwf
  | genActive => exact decodeGen_of_wellFormed (region := .active) hwf
  | genBottom => exact decodeGen_of_wellFormed (region := .bottom) hwf
  | genNowrite => exact decodeGen_of_wellFormed (region := .nowrite) hwf

/-- Settles O13: each form of access by its decoder's inversion. -/
theorem decodedAccessIsItsEncoding : Obligations.DecodedAccessIsItsEncoding := by
  unfold Obligations.DecodedAccessIsItsEncoding
  intro acc i h
  cases acc with
  | host write offset data =>
    obtain ⟨rfl, rfl, rfl⟩ | ⟨rfl, rfl, rfl⟩ | ⟨rfl, rfl, rfl⟩ | ⟨rfl, rfl, rfl⟩ := decodeHost_ok_iff.mp h
    · exact ⟨rfl, encode_decodePalData data⟩
    · exact ⟨rfl, rfl⟩
    · exact ⟨rfl, rfl⟩
    · exact ⟨rfl, rfl⟩
  | event w => exact encode_of_decodeEvent h
  | gen x idx =>
    obtain rfl : decodeGen x idx = i := Except.ok.inj h
    rw [decodeGen_eq_regionOp]
    exact ⟨regionOp_wellFormed_iff.mpr rfl, encode_regionOp x idx _⟩

/-! ### Presenting an access -/

@[simp] theorem schedulable_advance (i : Instr) (s : State) (rest : List Access) :
    schedulable i (s.advance rest) = schedulable i s := rfl

theorem present_of_schedulable {acc : Access} {i : Instr} {s : State} (hi : decode acc = .ok i)
    (hs : schedulable i s = true) : present acc s = exec i s := by
  simp only [present, hi, hs, if_true]

/-- An access is refused if whatever it decodes to may not stand as a step or is refused by its meaning (R83, R156). -/
theorem present_refused {acc : Access} {s : State}
    (h : ∀ i, decode acc = .ok i → schedulable i s = false ∨ exec i s = .next { s with refused := true }) :
    present acc s = .next { s with refused := true } := by
  unfold present
  cases hi : decode acc with
  | error e => rfl
  | ok i =>
    cases hs : schedulable i s with
    | false => simp [hs, refuse, State.markRefused]
    | true => simpa [hs] using h i hi

/-- Settles O4: the access taken from the schedule is presented. -/
theorem stepRunsDecodedAccess : Obligations.StepRunsDecodedAccess := by
  unfold Obligations.StepRunsDecodedAccess
  intro s acc rest i hfault hinbox hi hs
  rw [step_of_cons hfault hinbox]
  exact present_of_schedulable hi (by rw [schedulable_advance, hs])

/-! ### Refused accesses -/

/-- A bare generator call may stand as a step only before START (R99). -/
theorem schedulable_decodeGen (x : Chan) (idx : LineIdx) (s : State) :
    schedulable (decodeGen x idx) s = !s.started := by
  unfold decodeGen
  split <;> rfl

section Refused

variable {s : State} (hfault : s.fault = none)
include hfault

theorem exec_genTest_started (x : Chan) (idx : LineIdx) (hstarted : s.started = true) :
    exec (.genTest x idx) s = .next { s with refused := true } := by
  rw [exec, execGenTest, whenEnabled_run hfault rfl, if_pos hstarted]
  rfl

theorem exec_rdFrameCount_no_diag (hdiag : s.cfg.diag = false) :
    exec .rdFrameCount s = .next { s with refused := true } := by
  rw [exec, execRdFrameCount, whenEnabled_run hfault rfl, if_neg (by simp [hdiag])]
  rfl

theorem exec_rdRenderActive_no_diag (hdiag : s.cfg.diag = false) :
    exec .rdRenderActive s = .next { s with refused := true } := by
  rw [exec, execRdRenderActive, whenEnabled_run hfault rfl, if_neg (by simp [hdiag])]
  rfl

end Refused

/-- The number an event word of an operation has, by its code and its operands (R80); 0 for one that is no event. -/
def eventNumber : Instr → Nat
  | .pwmWrap => 0x1 * 2 ^ 28
  | .dmaXfer x => 0x2 * 2 ^ 28 + (bitOfChan x).toNat
  | .dmaComplete x => 0x3 * 2 ^ 28 + (bitOfChan x).toNat
  | .irqEntry => 0x4 * 2 ^ 28
  | .irqService => 0x5 * 2 ^ 28
  | .irqReturn => 0x6 * 2 ^ 28
  | .fbWrite offset byte => 0x7 * 2 ^ 28 + offset.toNat * 2 ^ 8 + byte.toNat
  | .genTest x idx => 0x8 * 2 ^ 28 + (bitOfChan x).toNat * 2 ^ 9 + idx.toNat
  | _ => 0

theorem eventNumber_of_encode {i : Instr} {w : BitVec 32} (h : encode i = .event w) : w.toNat = eventNumber i := by
  cases i <;> cases h
  all_goals
    simp only [toNat_append_eq_add, eventNumber, BitVec.toNat_ofBool, BitVec.ofNat_eq_ofNat, BitVec.toNat_ofNat]
    omega

/-- Settles O5: an access with such bits decodes to nothing, or to an operation that may not stand as a step or is refused
by its own meaning. -/
theorem refusedAccessesSetTheMark : Obligations.RefusedAccessesSetTheMark := by
  unfold Obligations.RefusedAccessesSetTheMark
  intro s acc rest hfault hinbox hbad
  rw [step_of_cons hfault hinbox]
  refine present_refused fun i hi => ?_
  cases acc with
  | host write offset data =>
    obtain ⟨rfl, rfl, rfl⟩ | ⟨rfl, rfl, rfl⟩ | ⟨rfl, rfl, rfl⟩ | ⟨rfl, rfl, rfl⟩ := decodeHost_ok_iff.mp hi
    · simp at hbad
    · simp at hbad
    · exact .inr (exec_rdFrameCount_no_diag hfault (by simpa using hbad))
    · exact .inr (exec_rdRenderActive_no_diag hfault (by simpa using hbad))
  | event w =>
    obtain ⟨hwf, hencode⟩ := encode_of_decodeEvent hi
    have hnumber := eventNumber_of_encode hencode
    simp only [hnumber] at hbad
    cases i with
    | pwmWrap | irqEntry | irqService | irqReturn => simp [eventNumber] at hbad
    | dmaXfer x => cases x <;> simp [eventNumber, bitOfChan] at hbad
    | dmaComplete x => exact .inl rfl
    | fbWrite offset byte =>
      have hfit : offset.toNat < 76800 := of_decide_eq_true hwf
      simp only [eventNumber] at hbad
      omega
    | genTest x idx =>
      have hstarted : s.started = true := by
        by_contra hnot
        have := idx.isLt
        have := (bitOfChan x).toNat_lt
        simp only [eventNumber, hnot, or_false] at hbad
        omega
      exact .inr (exec_genTest_started (s := s.advance rest) hfault x idx hstarted)
    | _ => cases hencode
  | gen x idx =>
    obtain rfl : decodeGen x idx = i := Except.ok.inj hi
    exact .inl (by simpa [schedulable_decodeGen] using hbad)

/-! ### Enabled steps -/

@[simp] theorem finish_ne_refused {r : Except Fault State} {e : Refusal} : finish r ≠ .refused e := by
  cases r <;> simp [finish]

/-- `refuse` is a next state (R156). -/
@[simp] theorem refuse_ne_refused {reason : RefuseReason} {s : State} {e : Refusal} :
    refuse reason s ≠ .refused e := by
  simp [refuse]

/-- Without a fault a step is answered `notEnabled` exactly if it is not enabled, provided that its body never is. -/
theorem whenEnabled_notEnabled_iff {en : Bool} {s : State} {k : Result} (hfault : s.fault = none)
    (hk : en = true → k ≠ .refused .notEnabled) : whenEnabled en s k = .refused .notEnabled ↔ ¬en = true := by
  cases en with
  | false => simp [whenEnabled, hfault]
  | true => simpa [whenEnabled_run hfault] using hk rfl

/-- Without a fault an operation is answered `notEnabled` exactly if no agent has it as a step (R84). -/
theorem exec_notEnabled_iff {i : Instr} {s : State} (hfault : s.fault = none) :
    exec i s = .refused .notEnabled ↔ ¬enabled i s = true := by
  cases i with
  | palWrite | rdFrameCount | rdRenderActive | start | fbWrite | genTest =>
    exact whenEnabled_notEnabled_iff hfault fun _ => by split_ifs <;> simp
  | pwmWrap | irqEntry | irqReturn | genPreeq | genVsync | genBottom | genNowrite =>
    exact whenEnabled_notEnabled_iff hfault fun _ => by simp
  | dmaXfer | dmaComplete | genActive =>
    exact whenEnabled_notEnabled_iff hfault fun _ => finish_ne_refused
  | irqService =>
    refine whenEnabled_notEnabled_iff hfault fun hen => ?_
    cases htodo : s.handler.todo with
    | nil => simp [irqServiceEnabled, htodo] at hen
    | cons x rest => exact finish_ne_refused

theorem dmaXferEnabled_iff {x : Chan} {s : State} :
    dmaXferEnabled x s = true ↔
      s.started = true ∧ (s.dma.get x).busy = true ∧ (s.dma.get x).count ≠ 0 ∧ 0 < s.dreq := by
  have hcount : 0 < (s.dma.get x).count.toNat ↔ (s.dma.get x).count ≠ 0 := by bv_omega
  simp [dmaXferEnabled, hcount, and_assoc]

theorem irqEntryEnabled_iff {s : State} :
    irqEntryEnabled s = true ↔ s.started = true ∧ s.handler.active = false ∧
      ((s.intr.a = true ∧ s.inte.a = true) ∨ (s.intr.b = true ∧ s.inte.b = true)) := by
  simp only [irqEntryEnabled, State.irqLine, State.ints, Pair.get, Bool.and_eq_true, Bool.or_eq_true,
    Bool.not_eq_true', and_assoc]
  exact and_congr_right fun _ => and_comm

/-- Settles O8: `notEnabled` is the answer exactly where the enabling condition of the event's rule fails. -/
theorem eventsRunExactlyWhenEnabled : Obligations.EventsRunExactlyWhenEnabled := by
  unfold Obligations.EventsRunExactlyWhenEnabled
  intro s hfault
  simp only [exec_notEnabled_iff hfault, enabled, dmaXferEnabled_iff, irqEntryEnabled_iff]
  simp [pwmWrapEnabled, irqServiceEnabled, irqReturnEnabled]

end Sys2Proof.Machine

/-!
The engine's invariant (R96, R97, R118, R122, R134): every step of every agent leaves the block before START or running.
-/
namespace Sys2Proof.Machine

/-! ### Operations that leave the engine's own elements alone -/

/-- The elements of the two agents and the handler are the same in both states: only the data, the cursor, the
diagnostics, the mark, the words returned to the host and the schedule may differ. -/
structure SameEngine (s t : State) : Prop where
  rest : t = { s with
    mem := t.mem, cursor := t.cursor, frameCount := t.frameCount, renderActive := t.renderActive,
    refused := t.refused, hostReads := t.hostReads, inbox := t.inbox, tick := t.tick }

theorem OnlyGenerated.sameEngine {s t : State} (h : OnlyGenerated s t) : SameEngine s t := by
  rw [h.rest]
  exact ⟨rfl⟩

/-- The block before START stays so while the engine's own elements stay (R169, R171). -/
theorem BeforeStart.of_sameEngine {s t : State} (hs : BeforeStart s) (h : SameEngine s t) : BeforeStart t := by
  rw [h.rest]
  exact ⟨hs.placed, hs.notStarted, hs.noFault, hs.pwmOff, hs.notBusy, hs.noIntr, hs.masked, hs.noPend, hs.noRequest,
    hs.handlerIdle, hs.noDmaHist, hs.noOutHist⟩

/-- The running engine goes on with its run while its own elements, its buffers and the cursor stay. -/
theorem Running.of_sameEngine {s t : State} {m : Nat} {x : Chan} (hs : Running s m x) (h : SameEngine s t)
    (hcursor : t.cursor = s.cursor) (hbuf : ∀ y, ∀ n < 908, t.buf y n = s.buf y n) : Running t m x := by
  have hr := h.rest
  refine running_congr hs hbuf ?_ ?_ ?_ ?_ ?_ ?_ ?_ ?_ ?_ ?_ ?_ hcursor <;> rw [hr]

theorem EngineInv.of_sameEngine {s t : State} (hs : EngineInv s) (h : SameEngine s t) (hcursor : t.cursor = s.cursor)
    (hmem : t.mem = s.mem) : EngineInv t := by
  have hcfg : t.cfg = s.cfg := by rw [h.rest]
  obtain hbefore | ⟨m, x, hrun⟩ := hs
  · exact .inl (hbefore.of_sameEngine h)
  · exact .inr ⟨m, x, hrun.of_sameEngine h hcursor fun y n _ =>
      buf_congr hcfg (byteAt_congr hmem hcfg _) (byteAt_congr hmem hcfg _)⟩

/-! ### Every operation -/

/-- Before START no internal agent has a step: an operation that completes is START or leaves the engine's own elements
alone (R144, R171). -/
theorem beforeStart_exec {i : Instr} {s t : State} (hs : BeforeStart s) (hi : schedulable i s = true)
    (h : exec i s = .next t) : i = .start ∨ SameEngine s t := by
  have he := (exec_effect h).2
  have hactive : s.handler.active = false := by rw [hs.handlerIdle]
  cases i with
  | start => exact .inl rfl
  | palWrite index blue red green => obtain ⟨-, rfl⟩ := he; exact .inr ⟨rfl⟩
  | rdFrameCount => obtain rfl | rfl := he <;> exact .inr ⟨rfl⟩
  | rdRenderActive => obtain rfl | rfl := he <;> exact .inr ⟨rfl⟩
  | fbWrite offset byte => obtain ⟨-, rfl⟩ | rfl := he <;> exact .inr ⟨rfl⟩
  | genTest x idx =>
    obtain ⟨-, rfl⟩ | ⟨-, hgen⟩ := he
    · exact .inr ⟨rfl⟩
    · exact .inr (generate_onlyGenerated hgen).sameEngine
  | genPreeq x idx => obtain rfl := he; exact .inr (onlyGenerated_linePreeq x s).sameEngine
  | genVsync x idx => obtain rfl := he; exact .inr (onlyGenerated_lineVsync x s).sameEngine
  | genActive x idx => exact .inr (onlyGenerated_lineActive he).sameEngine
  | genBottom x idx => obtain rfl := he; exact .inr (onlyGenerated_lineBottom x idx s).sameEngine
  | genNowrite x idx => obtain rfl := he; exact .inr (onlyGenerated_lineNowrite s).sameEngine
  | dmaComplete x => simp [schedulable] at hi
  | pwmWrap => simp [Effect, pwmWrapEnabled, hs.notStarted] at he
  | dmaXfer x => simp [Effect, dmaXferEnabled, hs.notStarted] at he
  | irqEntry => simp [Effect, irqEntryEnabled, hs.notStarted] at he
  | irqService => simp [Effect, hactive] at he
  | irqReturn => simp [Effect, hactive] at he

/-- Only the busy channel of the running engine transfers (R114, R118). -/
theorem running_xfer_chan {s : State} {m : Nat} {x y : Chan} (hs : Running s m x) (h : dmaXferEnabled y s = true) :
    y = x := by
  obtain ⟨-, hbusy, -⟩ := dmaXferEnabled_iff.mp h
  obtain rfl | rfl := Chan.eq_or_peer x y
  · rfl
  · simp [hs.peerIdle] at hbusy

/-- The line that the engine makes next: run `m` sends line `m`, and line `m + 1` is made once the peer's buffer has been
handed back (R131, R134). -/
def lineNext (s : State) (m : Nat) (x : Chan) : Nat := if s.pend.get x.peer = true then m + 1 else m + 2

theorem lineNext_of_pend {s : State} {m : Nat} {x : Chan} (h : s.pend.get x.peer = true) : lineNext s m x = m + 1 :=
  if_pos h

theorem lineNext_of_not_pend {s : State} {m : Nat} {x : Chan} (h : s.pend.get x.peer = false) :
    lineNext s m x = m + 2 :=
  if_neg (by simp [h])

/-- A step of the running engine that makes `made` lines (R118, R122, R131): the run that goes on or its peer's that
follows, the sample sent if one is, and the buffers kept, the peer's only while it holds the next line. -/
structure EngineStep (made : Nat) (s : State) (m : Nat) (x : Chan) (t : State) (m' : Nat) (x' : Chan) : Prop where
  running : Running t m' x'
  turn : (m' = m ∧ x' = x) ∨ (m' = m + 1 ∧ x' = x.peer)
  lines : lineNext t m' x' = lineNext s m x + made
  sent : t.dmaHist = s.dmaHist ∨
    ∃ v, s.buf x (s.dmaHist.length % 908) = some v ∧ t.dmaHist = s.dmaHist ++ [v]
  ownBuf : ∀ n < 908, t.buf x n = s.buf x n
  peerBuf : m + 1 < lineNext s m x → ∀ n < 908, t.buf x.peer n = s.buf x.peer n

/-- In the middle of run `m` all of lines 0 to `m - 1` and the first samples of line `m` have been sent. -/
theorem Running.sentCount {s : State} {m : Nat} {x : Chan} (hs : Running s m x) :
    s.dmaHist.length / 908 = m ∧ s.dmaHist.length % 908 = 908 - (s.dma.get x).count.toNat := by
  have hlen := hs.histLength
  have hpos := hs.countPos
  simp only [samplesPerLine] at hlen
  omega

/-- A transfer of the running engine sends the next sample of the busy channel's buffer (R116, R120). -/
theorem running_xfer_sent {s t : State} {m : Nat} {x : Chan} (hs : Running s m x) (h : transfer x s = .ok t) :
    ∃ v, s.buf x (s.dmaHist.length % 908) = some v ∧ t.dmaHist = s.dmaHist ++ [v] := by
  obtain ⟨addr, v, haddr, -, hv, hend⟩ := transfer_ok h
  have hnext : addr.toNat = (s.cfg.bufBase x).toNat + 2 * (s.dmaHist.length % 908) := by
    have hfit := placementOk_fits hs.placed x
    have hpos := hs.countPos
    obtain rfl := Option.some.inj (hs.reading.symm.trans haddr)
    rw [hs.sentCount.2, BitVec.toNat_add, BitVec.toNat_ofNat, samplesPerLine]
    omega
  refine ⟨v, by rw [← hv, hnext]; rfl, ?_⟩
  obtain ⟨-, rfl⟩ | ⟨-, hcomplete⟩ := hend
  · rfl
  · rw [completeRun_eq] at hcomplete
    obtain ⟨-, -, rfl⟩ := trigger_ok.mp hcomplete
    rfl

/-- The running engine fills no buffer but the peer's, and that one only while it awaits its service (R63, R134). -/
theorem running_filledBufs {i : Instr} {s : State} {m : Nat} {x y : Chan} (hs : Running s m x)
    (hi : schedulable i s = true) (hy : y ∈ filledBufs s i) : y = x.peer ∧ s.pend.get x.peer = true := by
  have hstarted := hs.isStarted
  obtain ⟨-, hnot⟩ | ⟨-, hhead⟩ | ⟨idx, -, hnot⟩ | ⟨idx, hgen⟩ := mem_filledBufs hy
  · simp [hstarted] at hnot
  · obtain ⟨rest, htodo⟩ := List.head?_eq_some_iff.mp hhead
    obtain ⟨hpeer, -, hpend, -⟩ := service_ctx hs htodo
    exact ⟨hpeer, hpend⟩
  · simp [hstarted] at hnot
  · simp only [List.mem_cons, List.not_mem_nil, or_false] at hgen
    obtain rfl | rfl | rfl | rfl := hgen <;> simp [schedulable, hstarted] at hi

/-- The running engine after an operation that completes. -/
theorem running_exec {i : Instr} {s t : State} {m : Nat} {x : Chan} (hs : Running s m x) (hi : schedulable i s = true)
    (h : exec i s = .next t) : ∃ m' x', EngineStep (if i = .irqService then 1 else 0) s m x t m' x' := by
  have hstarted := hs.isStarted
  have he := (exec_effect h).2
  have hbuf (y : Chan) (hy : y ∉ filledBufs s i) : ∀ n < 908, t.buf y n = s.buf y n := fun n hn =>
    (exec_dataStep_filled h).buf_eq (fun _ hr => filledRegions_apart_buf hs.placed hy hr) hn
  have hown : ∀ n < 908, t.buf x n = s.buf x n :=
    hbuf x fun hx => Chan.ne_peer x (running_filledBufs hs hi hx).1
  have hpeer (hnext : m + 1 < lineNext s m x) : ∀ n < 908, t.buf x.peer n = s.buf x.peer n :=
    hbuf x.peer fun hx => by
      rw [lineNext_of_pend (running_filledBufs hs hi hx).2] at hnext
      omega
  have keep (hrun : Running t m x) (hne : i ≠ .irqService) (hpend : t.pend = s.pend) (hhist : t.dmaHist = s.dmaHist) :
      ∃ m' x', EngineStep (if i = .irqService then 1 else 0) s m x t m' x' :=
    ⟨m, x, hrun, .inl ⟨rfl, rfl⟩, by rw [if_neg hne, lineNext, hpend]; rfl, .inl hhist, hown, hpeer⟩
  cases i with
  | pwmWrap =>
    have hrun := running_wrap hs he
    obtain ⟨-, rfl⟩ := he
    exact keep hrun (by simp) rfl rfl
  | dmaXfer y =>
    obtain ⟨hen, hx⟩ := he
    obtain rfl := running_xfer_chan hs hen
    obtain ⟨-, hpend, hrun⟩ | ⟨-, hfree, hpend, hrun⟩ := running_xfer hs hx
    · exact ⟨m, y, hrun, .inl ⟨rfl, rfl⟩, by rw [lineNext, hpend]; rfl, .inr (running_xfer_sent hs hx), hown, hpeer⟩
    · have hpend' : t.pend.get y.peer.peer = true := by rw [hpend, Chan.peer_peer, Pair.get_set]
      exact ⟨m + 1, y.peer, hrun, .inr ⟨rfl, rfl⟩, by rw [lineNext_of_pend hpend', lineNext_of_not_pend hfree]; rfl,
        .inr (running_xfer_sent hs hx), hown, hpeer⟩
  | irqEntry =>
    have hrun := running_entry hs he
    obtain ⟨-, rfl⟩ := he
    exact keep hrun (by simp) rfl rfl
  | irqReturn =>
    have hrun := running_return hs he
    obtain ⟨-, -, rfl⟩ := he
    exact keep hrun (by simp) rfl rfl
  | irqService =>
    have hrun := running_service hs he
    obtain ⟨-, y, rest, htodo, hservice⟩ := he
    obtain ⟨rfl, -, hpend, -⟩ := service_ctx hs htodo
    obtain ⟨-, -, -, -, hhist, hback, -, -⟩ := service_frame hs.placed hservice
    have hpend' : t.pend.get x.peer = false := by rw [hback, Pair.get_set]
    exact ⟨m, x, hrun, .inl ⟨rfl, rfl⟩, by rw [lineNext_of_pend hpend, lineNext_of_not_pend hpend']; rfl, .inl hhist,
      hown, hpeer⟩
  | rdFrameCount =>
    obtain rfl | rfl := he <;> exact keep (hs.of_sameEngine ⟨rfl⟩ rfl fun _ _ _ => rfl) (by simp) rfl rfl
  | rdRenderActive =>
    obtain rfl | rfl := he <;> exact keep (hs.of_sameEngine ⟨rfl⟩ rfl fun _ _ _ => rfl) (by simp) rfl rfl
  | fbWrite offset byte =>
    have hall (y : Chan) : ∀ n < 908, t.buf y n = s.buf y n := hbuf y (by simp [filledBufs])
    obtain ⟨-, rfl⟩ | rfl := he <;> exact keep (hs.of_sameEngine ⟨rfl⟩ rfl hall) (by simp) rfl rfl
  | genTest y idx =>
    obtain ⟨-, rfl⟩ | ⟨hnot, -⟩ := he
    · exact keep (hs.of_sameEngine ⟨rfl⟩ rfl fun _ _ _ => rfl) (by simp) rfl rfl
    · simp [hstarted] at hnot
  | palWrite index blue red green => simp [Effect, hstarted] at he
  | start => simp [Effect, hstarted] at he
  | dmaComplete y => simp [schedulable] at hi
  | genPreeq | genVsync | genActive | genBottom | genNowrite => simp [schedulable, hstarted] at hi

/-- Settles O50: the invariant does not speak of the schedule and the mark, an operation before START is START itself or
keeps the engine off, and a running engine goes on with its run or its peer's. -/
theorem stepKeepsEngineInv : Obligations.StepKeepsEngineInv := by
  unfold Obligations.StepKeepsEngineInv
  intro s t hs h
  obtain ⟨-, box, rfl | rfl | ⟨i, hi, hx⟩⟩ := step_next h
  · exact hs.of_sameEngine ⟨rfl⟩ rfl rfl
  · exact hs.of_sameEngine ⟨rfl⟩ rfl rfl
  · have hadvance : EngineInv (s.advance box) := hs.of_sameEngine ⟨rfl⟩ rfl rfl
    obtain hbefore | ⟨m, x, hrun⟩ := hadvance
    · obtain rfl | hsame := beforeStart_exec hbefore hi hx
      · exact .inr ⟨0, .a, start_running hbefore hx⟩
      · exact .inl (hbefore.of_sameEngine hsame)
    · obtain ⟨m', x', hstep⟩ := running_exec hrun hi hx
      exact .inr ⟨m', x', hstep.running⟩

end Sys2Proof.Machine

/-!
The scanline generator (R87 to R95, R99): which indices select each region operation, what each makes of its buffer, what
it leaves alone, and when an active line can be made.
-/
namespace Sys2Proof.Machine

/-! ### Selecting an operation (R75, R87) -/

theorem regionOp_inj {x : Chan} {idx : LineIdx} {region region' : Region} :
    regionOp x idx region = regionOp x idx region' ↔ region = region' := by
  cases region <;> cases region' <;> simp [regionOp]

/-- An index selects the operation of a region exactly if it lies in the region's range. -/
theorem decodeGen_eq_regionOp_iff {x : Chan} {idx : LineIdx} {region : Region} :
    decodeGen x idx = regionOp x idx region ↔ (regionOp x idx region).wellFormed = true := by
  rw [decodeGen_eq_regionOp, regionOp_inj, regionOp_wellFormed_iff]

/-- The two indices of a two-line region. -/
theorem lineIdx_pair_iff {idx : LineIdx} {n : Nat} (hn : n + 1 < 512) :
    n ≤ idx.toNat ∧ idx.toNat ≤ n + 1 ↔ idx = BitVec.ofNat 9 n ∨ idx = BitVec.ofNat 9 (n + 1) := by
  simp only [← BitVec.toNat_inj, BitVec.toNat_ofNat]
  omega

section NoFault

variable {s : State} (hfault : s.fault = none)
include hfault

/-- The operation that an index selects is the generator on that index. -/
theorem exec_decodeGen (x : Chan) (idx : LineIdx) : exec (decodeGen x idx) s = finish (generate x idx s) := by
  unfold decodeGen generate
  cases classify idx <;> exact whenEnabled_run hfault rfl

theorem exec_genTest_not_started (x : Chan) (idx : LineIdx) (hnot : s.started = false) :
    exec (.genTest x idx) s = finish (generate x idx s) := by
  rw [exec, execGenTest, whenEnabled_run hfault rfl, if_neg (by simp [hnot])]

theorem exec_genPreeq (x : Chan) (idx : LineIdx) : exec (.genPreeq x idx) s = .next (linePreeq x s) :=
  whenEnabled_run hfault rfl

theorem exec_genVsync (x : Chan) (idx : LineIdx) : exec (.genVsync x idx) s = .next (lineVsync x s) :=
  whenEnabled_run hfault rfl

theorem exec_genActive (x : Chan) (idx : LineIdx) : exec (.genActive x idx) s = finish (lineActive x idx s) :=
  whenEnabled_run hfault rfl

theorem exec_genBottom (x : Chan) (idx : LineIdx) : exec (.genBottom x idx) s = .next (lineBottom x idx s) :=
  whenEnabled_run hfault rfl

theorem exec_genNowrite (x : Chan) (idx : LineIdx) : exec (.genNowrite x idx) s = .next (lineNowrite s) :=
  whenEnabled_run hfault rfl

end NoFault

/-! ### The two diagnostics (R87, R91) -/

theorem renderAfter_active (cfg : Config) (old : Bool) :
    renderAfter cfg true old = if cfg.diag = true then true else old := by
  simp [renderAfter]

theorem renderAfter_nonactive (cfg : Config) (old : Bool) :
    renderAfter cfg false old = if cfg.diag = true ∧ cfg.renderFlagClear = .clearOnNonactive then false else old := by
  cases hd : cfg.diag <;> cases hr : cfg.renderFlagClear <;> simp [renderAfter, hd, hr]

theorem frameAfter_eq (cfg : Config) (idx : LineIdx) (old : BitVec 32) :
    frameAfter cfg idx old =
      if idx = 276 ∧ cfg.diag = true then BitVec.ofNat 32 ((old.toNat + 1) % 2 ^ 32) else old := by
  have hinc : old + 1 = BitVec.ofNat 32 ((old.toNat + 1) % 2 ^ 32) := by
    apply BitVec.eq_of_toNat_eq
    simp
  rw [frameAfter, hinc]

/-! ### When an active line can be made (R90) -/

section Active

variable {x : Chan} {idx : LineIdx} {s : State}

/-- The two palette samples that pixel `k` of the row at framebuffer offset `cur` names have been written. -/
def PixelWritten (s : State) (cur k : Nat) : Prop :=
  ∀ p, s.fb (cur + k) = some p →
    s.pal (4 * p.toNat + 2 * (k % 2)) ≠ none ∧ s.pal (4 * p.toNat + 2 * (k % 2) + 1) ≠ none

theorem exists_fb {o : Nat} (h : o < 76800) : ∃ p, s.fb o = some p :=
  Option.isSome_iff_exists.mp (read1_framebuffer ⟨by omega, by simp only [fbBytes]; omega⟩)

theorem pixelWord_ne_none_iff {cur k : Nat} (h : cur + k < 76800) :
    pixelWord s.cfg s.mem cur k ≠ none ↔ PixelWritten s cur k := by
  obtain ⟨p, hp⟩ := exists_fb (s := s) h
  simp only [Option.ne_none_iff_exists', pixelWord_eq_some, PixelWritten, hp, Option.some.injEq, exists_eq_left',
    forall_eq']
  constructor
  · rintro ⟨w, hlo, hhi⟩
    exact ⟨⟨_, hlo⟩, ⟨_, hhi⟩⟩
  · rintro ⟨⟨lo, hlo⟩, ⟨hi, hhi⟩⟩
    exact ⟨hi ++ lo, by rw [hlo, BitVec.extractLsb'_append_eq_right], by rw [hhi, BitVec.extractLsb'_append_eq_left]⟩

theorem pixelWords_ne_none_iff {cur : Nat} (h : cur + 320 ≤ 76800) :
    pixelWords s.cfg s.mem cur 0 320 ≠ none ↔ ∀ k < 320, PixelWritten s cur k := by
  rw [Ne, pixelWords_eq_none]
  push Not
  exact forall₂_congr fun k hk => by rw [Nat.zero_add, pixelWord_ne_none_iff (by omega)]

/-- An active line completes exactly if its cursor has a value, its row lies in the framebuffer, and every pixel of the
row names written samples. -/
theorem lineActive_completes_iff :
    (∃ t, lineActive x idx s = .ok t) ↔
      ∃ cur, lineCursor idx s = some cur ∧ cur.toNat + 320 ≤ 76800 ∧ ∀ k < 320, PixelWritten s cur.toNat k := by
  constructor
  · rintro ⟨t, h⟩
    obtain ⟨cur, ws, hcur, hrow, hpixels, -⟩ := lineActive_ok.mp h
    exact ⟨cur, hcur, hrow, (pixelWords_ne_none_iff hrow).mp (by simp [hpixels])⟩
  · rintro ⟨cur, hcur, hrow, hwritten⟩
    obtain ⟨ws, hpixels⟩ := Option.ne_none_iff_exists'.mp ((pixelWords_ne_none_iff hrow).mpr hwritten)
    exact ⟨_, lineActive_ok.mpr ⟨cur, ws, hcur, hrow, hpixels, rfl⟩⟩

theorem lineReady_iff :
    lineReady s idx ↔ (classify idx = .active → ∃ cur, lineCursor idx s = some cur ∧ cur.toNat + 320 ≤ 76800 ∧
      ∀ k < 320, PixelWritten s cur.toNat k) := by
  simp only [lineReady, PixelWritten, Option.isSome_iff_ne_none]

/-- The generator completes exactly on the lines that can be made (R87, R90). -/
theorem generate_completes_iff : (∃ t, generate x idx s = .ok t) ↔ lineReady s idx := by
  rw [lineReady_iff, ← lineActive_completes_iff (x := x)]
  unfold generate
  cases classify idx <;> simp

end Active

/-! ### The samples and the frame of each line (R88 to R92) -/

section Lines

variable (x : Chan) (idx : LineIdx) (s : State)

theorem linePreeq_byteAt {a : Nat} (ha : a < (s.cfg.bufBase x).toNat ∨ (s.cfg.bufBase x).toNat + 1816 ≤ a) :
    (linePreeq x s).byteAt a = s.byteAt a :=
  read1_writeBytes_outside (by rw [flatMap_sampleBytes_length, preeqSamples_length]; omega)

theorem lineVsync_byteAt {a : Nat} (ha : a < (s.cfg.bufBase x).toNat ∨ (s.cfg.bufBase x).toNat + 1816 ≤ a) :
    (lineVsync x s).byteAt a = s.byteAt a :=
  read1_writeBytes_outside (by rw [flatMap_sampleBytes_length, vsyncSamples_length]; omega)

/-- Sample `r` of burst `j` of a vertical-sync line (R70, R89). -/
theorem lineVsync_burst {j r : Nat} (hj : j < 9) (hr : r < 4) :
    (lineVsync x s).buf x (76 + 4 * j + r) = ([2, 1, 2, 3] : List Sample)[r]? := by
  have hphase : (76 + 4 * j + r - 76) % 4 = r := by omega
  rw [lineVsync_buf x s (by omega), if_neg (by omega), if_neg (by omega), if_pos (by omega), ← List.getElem?_eq_getElem,
    hphase]

theorem lineBottom_byteAt {a : Nat}
    (ha : a < (s.cfg.bufBase x).toNat + 344 ∨ (s.cfg.bufBase x).toNat + 1624 ≤ a) :
    (lineBottom x idx s).byteAt a = s.byteAt a :=
  read1_writeBytes_outside (by rw [flatMap_sampleBytes_length, bottomSamples_length]; simp only [activeStart]; omega)

theorem lineBottom_buf_outside {n : Nat} (hn : n < 172 ∨ 812 ≤ n) : (lineBottom x idx s).buf x n = s.buf x n :=
  buf_congr rfl (lineBottom_byteAt x idx s (by omega)) (lineBottom_byteAt x idx s (by omega))

variable {x idx s}

theorem lineActive_byteAt {t : State} (h : lineActive x idx s = .ok t) {a : Nat}
    (ha : a < (s.cfg.bufBase x).toNat + 344 ∨ (s.cfg.bufBase x).toNat + 1624 ≤ a) : t.byteAt a = s.byteAt a := by
  obtain ⟨cur, ws, -, -, hpixels, rfl⟩ := lineActive_ok.mp h
  obtain ⟨hlen, -⟩ := pixelWords_eq_some.mp hpixels
  exact read1_writeBytes_outside (by rw [flatMap_wordBytes_length, hlen]; simp only [activeStart]; omega)

/-- An active line writes each of its 640 samples: sample `n` belongs to pixel `(n - 172) / 2`. -/
theorem lineActive_written {t : State} (h : lineActive x idx s = .ok t) {n : Nat} (hlo : 172 ≤ n) (hhi : n < 812) :
    t.buf x n ≠ none := by
  obtain ⟨cur, p, -, -, -, -, heven, hodd⟩ := lineActive_buf h (k := (n - 172) / 2) (by omega)
  rw [Option.isSome_iff_ne_none] at heven hodd
  obtain hn | hn : n = 172 + 2 * ((n - 172) / 2) ∨ n = 173 + 2 * ((n - 172) / 2) := by omega
  · rwa [hn]
  · rwa [hn]

/-- The frame counter after a generator operation: line 276, a bottom line, is the only one to count (R91). -/
theorem generate_frameCount {t : State} (h : generate x idx s = .ok t) :
    t.frameCount = frameAfter s.cfg idx s.frameCount := by
  have hcount (hregion : classify idx ≠ .bottom) : frameAfter s.cfg idx s.frameCount = s.frameCount :=
    if_neg fun hb => hregion (by rw [hb.1]; rfl)
  obtain ⟨hc, rfl⟩ | ⟨hc, rfl⟩ | ⟨hc, hactive⟩ | ⟨-, rfl⟩ | ⟨hc, rfl⟩ := generate_cases h
  · exact (hcount (by simp [hc])).symm
  · exact (hcount (by simp [hc])).symm
  · obtain ⟨cur, ws, -, -, -, rfl⟩ := lineActive_ok.mp hactive
    exact (hcount (by simp [hc])).symm
  · rfl
  · exact (hcount (by simp [hc])).symm

/-- The flag after a generator operation off the active lines (R87). -/
theorem generate_renderActive {t : State} (h : generate x idx s = .ok t) (hoff : classify idx ≠ .active) :
    t.renderActive = renderAfter s.cfg false s.renderActive := by
  obtain ⟨-, rfl⟩ | ⟨-, rfl⟩ | ⟨hc, -⟩ | ⟨-, rfl⟩ | ⟨-, rfl⟩ := generate_cases h
  · rfl
  · rfl
  · exact absurd hc hoff
  · rfl
  · rfl

end Lines

/-! ### The statements -/

/-- Settles O31: before START a test call is `finish` of the generator's answer. -/
theorem genTestCallsGenerator : Obligations.GenTestCallsGenerator := by
  unfold Obligations.GenTestCallsGenerator
  intro x idx s hfault
  refine ⟨exec_genTest_started hfault x idx, fun hnot hready => ?_, fun hnot f hf => ?_⟩
  · obtain ⟨t, ht⟩ := generate_completes_iff.mpr hready
    exact ⟨t, ht, by rw [exec_genTest_not_started hfault x idx hnot, finish_next, ht]⟩
  · rw [exec_genTest_not_started hfault x idx hnot, finish_fault, hf]

/-- Settles O32: the operation selected is `finish` of the generator's answer. -/
theorem generatorDispatchesByRegion : Obligations.GeneratorDispatchesByRegion := by
  unfold Obligations.GeneratorDispatchesByRegion
  intro x idx s hfault
  refine ⟨?_, generate_completes_iff⟩
  rw [exec_decodeGen hfault]
  cases generate x idx s <;> rfl

/-- Settles O33: the range of the region, and the whole buffer filled. -/
theorem genPreeqWritesLine : Obligations.GenPreeqWritesLine := by
  unfold Obligations.GenPreeqWritesLine
  refine ⟨fun x idx => ?_, fun x idx s hfault => ⟨linePreeq x s, exec_genPreeq hfault x idx, ?_, ?_, ?_⟩⟩
  · have hpair : idx.toNat ≤ 1 ↔ idx = 0 ∨ idx = 1 := by simpa using lineIdx_pair_iff (idx := idx) (n := 0) (by decide)
    exact (decodeGen_eq_regionOp_iff (region := .preeq)).trans (decide_eq_true_iff.trans hpair)
  · exact fun n hn => linePreeq_buf x s hn
  · exact fun a ha => linePreeq_byteAt x s ha
  · rw [← renderAfter_nonactive]
    rfl

/-- Settles O34: the range of the region, and the whole buffer filled. -/
theorem genVsyncWritesLine : Obligations.GenVsyncWritesLine := by
  unfold Obligations.GenVsyncWritesLine
  refine ⟨fun x idx => ?_, fun x idx s hfault =>
    ⟨lineVsync x s, exec_genVsync hfault x idx, fun n hn => ?_, fun n hlo hhi => ?_, fun j hj => ?_, fun n hlo hhi => ?_,
      fun a ha => lineVsync_byteAt x s ha, ?_⟩⟩
  · exact (decodeGen_eq_regionOp_iff (region := .vsync)).trans
      (decide_eq_true_iff.trans (lineIdx_pair_iff (n := 10) (by decide)))
  · rw [lineVsync_buf x s (by omega), if_pos hn]
  · rw [lineVsync_buf x s (by omega), if_neg (by omega), if_pos hhi]
  · exact ⟨lineVsync_burst x s hj (r := 0) (by decide), lineVsync_burst x s hj (r := 1) (by decide),
      lineVsync_burst x s hj (r := 2) (by decide), lineVsync_burst x s hj (r := 3) (by decide)⟩
  · rw [lineVsync_buf x s hhi, if_neg (by omega), if_neg (by omega), if_neg (by omega)]
  · rw [← renderAfter_nonactive]
    rfl

/-- Settles O35: such a line can be made, and what is made is its pixels' pairs. -/
theorem genActiveWritesPixels : Obligations.GenActiveWritesPixels := by
  unfold Obligations.GenActiveWritesPixels
  intro x idx s cur hfault hcur hrow hwritten
  obtain ⟨t, ht⟩ := lineActive_completes_iff (x := x).mpr ⟨cur, hcur, hrow, hwritten⟩
  refine ⟨t, by rw [exec_genActive hfault, finish_next, ht], fun k hk => ?_, fun a ha => lineActive_byteAt ht ha, ?_⟩
  · obtain ⟨cur', p, hcur', hp, heven, hodd, -⟩ := lineActive_buf ht hk
    obtain rfl : cur = cur' := Option.some.inj (hcur.symm.trans hcur')
    exact ⟨p, hp, heven, hodd⟩
  · obtain ⟨cur', ws, hcur', -, -, rfl⟩ := lineActive_ok.mp ht
    obtain rfl : cur = cur' := Option.some.inj (hcur.symm.trans hcur')
    rw [← renderAfter_active]
    rfl

/-- Settles O36: each check of an active line, the earlier ones passed. -/
theorem genActiveFaultsInOrder : Obligations.GenActiveFaultsInOrder := by
  unfold Obligations.GenActiveFaultsInOrder
  intro x idx s hfault
  simp only [exec_genActive hfault, finish_fault, lineActive]
  refine ⟨fun hidx hcursor => ?_, fun cur hcur => ?_⟩
  · have hnone : lineCursor idx s = none := (if_neg hidx).trans hcursor
    rw [hnone]
  · have hsome : lineCursor idx s = some cur := hcur
    rw [hsome]
    refine ⟨fun hpast => if_pos hpast, fun hrow k hk p hp hunwritten => ?_⟩
    have hpixels : pixelWords s.cfg s.mem cur.toNat 0 320 = none := by
      by_contra hsome
      obtain ⟨heven, hodd⟩ := (pixelWords_ne_none_iff hrow).mp hsome k hk p hp
      exact hunwritten.elim heven hodd
    simp only [fbBytes, fbWidth, hpixels]
    exact if_neg (by omega)

/-- Settles O37: the range of the region, and 640 samples filled. -/
theorem genBottomWritesBlank : Obligations.GenBottomWritesBlank := by
  unfold Obligations.GenBottomWritesBlank
  refine ⟨fun x idx => ?_, fun x idx s hfault => ⟨lineBottom x idx s, exec_genBottom hfault x idx, ?_, ?_, ?_⟩⟩
  · exact (decodeGen_eq_regionOp_iff (region := .bottom)).trans
      (decide_eq_true_iff.trans (lineIdx_pair_iff (n := 276) (by decide)))
  · exact fun n hlo hhi => lineBottom_buf_inside x idx s hlo hhi
  · exact fun a ha => lineBottom_byteAt x idx s ha
  · rw [← renderAfter_nonactive, ← frameAfter_eq]
    rfl

/-- Settles O38: the range of the region, and the flag update alone. -/
theorem genNowriteKeepsBuffer : Obligations.GenNowriteKeepsBuffer := by
  unfold Obligations.GenNowriteKeepsBuffer
  refine ⟨fun x idx => ?_, fun x idx s hfault => ?_⟩
  · exact (decodeGen_eq_regionOp_iff (region := .nowrite)).trans decide_eq_true_iff
  · rw [exec_genNowrite hfault, ← renderAfter_nonactive]
    rfl

/-- Settles O39: the frame of every line, then the samples of each region's. -/
theorem generatorStaysInBuffer : Obligations.GeneratorStaysInBuffer := by
  unfold Obligations.GeneratorStaysInBuffer
  intro x idx s t h
  refine ⟨(generate_onlyGenerated h).rest, fun a ha => generate_byteAt h ha, ?_⟩
  obtain ⟨hc, rfl⟩ | ⟨hc, rfl⟩ | ⟨hc, hactive⟩ | ⟨hc, rfl⟩ | ⟨hc, rfl⟩ := generate_cases h <;>
    simp only [hc, reduceCtorEq, or_false, or_true, false_implies, true_implies, and_true, true_and]
  · exact fun n hn => by simp [linePreeq_buf x s hn]
  · exact fun n hn => by simp [lineVsync_buf x s hn]
  · exact ⟨fun n hlo hhi => lineActive_written hactive hlo hhi, fun a ha => lineActive_byteAt hactive ha⟩
  · exact ⟨fun n hlo hhi => by simp [lineBottom_buf_inside x idx s hlo hhi], fun a ha => lineBottom_byteAt x idx s ha⟩
  · rfl

/-- Settles O40: off the active lines each sample made is a constant of the line or the one the buffer held. -/
theorem generatorIgnoresPictureOffActive : Obligations.GeneratorIgnoresPictureOffActive := by
  unfold Obligations.GeneratorIgnoresPictureOffActive
  intro x idx s₁ s₂ t₁ t₂ hoff hcfg hframe hrender hbuf h₁ h₂
  refine ⟨?_, ?_, ?_, generate_cursor h₁ hoff, generate_cursor h₂ hoff⟩
  · intro n hn
    cases hc : classify idx with
    | active => exact absurd hc hoff
    | preeq =>
      simp only [generate, hc, Except.ok.injEq] at h₁ h₂
      rw [← h₁, ← h₂, linePreeq_buf x s₁ hn, linePreeq_buf x s₂ hn]
    | vsync =>
      simp only [generate, hc, Except.ok.injEq] at h₁ h₂
      rw [← h₁, ← h₂, lineVsync_buf x s₁ hn, lineVsync_buf x s₂ hn]
    | bottom =>
      simp only [generate, hc, Except.ok.injEq] at h₁ h₂
      rw [← h₁, ← h₂]
      by_cases hin : 172 ≤ n ∧ n < 812
      · rw [lineBottom_buf_inside x idx s₁ hin.1 hin.2, lineBottom_buf_inside x idx s₂ hin.1 hin.2]
      · rw [lineBottom_buf_outside x idx s₁ (by omega), lineBottom_buf_outside x idx s₂ (by omega), hbuf n hn]
    | nowrite =>
      simp only [generate, hc, Except.ok.injEq] at h₁ h₂
      rw [← h₁, ← h₂]
      exact hbuf n hn
  · rw [generate_frameCount h₁, generate_frameCount h₂, hcfg, hframe]
  · rw [generate_renderActive h₁ hoff, generate_renderActive h₂ hoff, hcfg, hrender]

/-! ### The frame counter of the running engine (R95) -/

theorem trigger_frameCount {y : Chan} {s t : State} (h : trigger y s = .ok t) : t.frameCount = s.frameCount := by
  obtain ⟨-, -, rfl⟩ := trigger_ok.mp h
  rfl

theorem transfer_frameCount {x : Chan} {s t : State} (h : transfer x s = .ok t) : t.frameCount = s.frameCount := by
  obtain ⟨addr, v, -, -, -, ⟨-, rfl⟩ | ⟨-, hcomplete⟩⟩ := transfer_ok h
  · rfl
  · rw [completeRun_eq] at hcomplete
    exact (trigger_frameCount hcomplete).trans rfl

/-- A service counts no frame: the line it makes is below 262 (R95, R127). -/
theorem service_frameCount {x : Chan} {rest : List Chan} {s t : State} {idx : LineIdx} (hidx : s.scanIdx = some idx)
    (hlt : idx.toNat < 262) (h : service x rest s = .ok t) : t.frameCount = s.frameCount := by
  obtain ⟨made, hgen, hback⟩ := bind_ok.mp h
  cases hback
  have hline : s.lineToMake = idx := by rw [State.lineToMake, hidx]
  rw [handBack_frameCount, generate_frameCount hgen, hline]
  exact if_neg fun hb => by simp [hb.1] at hlt

/-- Settles O44: the running engine makes no line 276, and no other operation of it counts. -/
theorem frameCountFixedInEngine : Obligations.FrameCountFixedInEngine := by
  unfold Obligations.FrameCountFixedInEngine
  intro s t idx hstarted hidx hlt h
  obtain ⟨-, box, rfl | rfl | ⟨i, hi, hx⟩⟩ := step_next h
  · rfl
  · rfl
  · have he := (exec_effect hx).2
    cases i with
    | dmaXfer x => exact (transfer_frameCount he.2).trans (advance_frameCount s box)
    | irqService =>
      obtain ⟨-, x, rest, -, hservice⟩ := he
      exact service_frameCount (s := s.advance box) hidx hlt hservice
    | rdFrameCount => obtain rfl | rfl := he <;> rfl
    | rdRenderActive => obtain rfl | rfl := he <;> rfl
    | pwmWrap => obtain ⟨-, rfl⟩ := he; rfl
    | irqEntry => obtain ⟨-, rfl⟩ := he; rfl
    | irqReturn => obtain ⟨-, -, rfl⟩ := he; rfl
    | fbWrite offset byte => obtain ⟨-, rfl⟩ | rfl := he <;> rfl
    | genTest x idx =>
      obtain ⟨-, rfl⟩ | ⟨hnot, -⟩ := he
      · rfl
      · simp [hstarted] at hnot
    | palWrite index blue red green => simp [Effect, hstarted] at he
    | start => simp [Effect, hstarted] at he
    | dmaComplete x => simp [schedulable] at hi
    | genPreeq | genVsync | genActive | genBottom | genNowrite => simp [schedulable, hstarted] at hi

end Sys2Proof.Machine

/-!
The pixels that the engine emits (R90, R97, R122, R178): the line that a service makes keeps its samples until they are
sent, and the framebuffer row that it shows keeps its bytes while it is being made.
-/
namespace Sys2Proof.Machine

/-! ### Runs in two parts -/

/-- A run goes on from the state that its first part leads to. -/
theorem Run.rest {s t u : State} {a b : List Access} (h : Run s (a ++ b) u) (ha : Run s a t) : Run t b u := by
  induction ha with
  | done s => exact h
  | more hstep _ ih =>
    cases h with
    | more hstep' hrest =>
      rw [hstep] at hstep'
      cases hstep'
      exact ih hrest

theorem fbQuiet.rest {row : Nat} {s t : State} {a b : List Access} (h : fbQuiet row s (a ++ b)) (ha : Run s a t) :
    fbQuiet row t b := by
  induction ha with
  | done s => exact h
  | more hstep _ ih => exact ih (h.2 _ hstep)

/-- How many lines an access makes: one if it is a service. -/
def linesOf (acc : Access) : Nat := if decode acc = .ok .irqService then 1 else 0

/-- How many lines the services of the run that makes `accs` have made. -/
def linesMade (s : State) (accs : List Access) : Nat := (services (marks s accs)).length

/-- A step of an access that completes leaves a service's mark exactly if it makes a line. -/
theorem services_markOf {s t : State} {acc : Access} (h : step (s.withAccess acc) = .next t) :
    (services (markOf acc s).toList).length = linesOf acc := by
  have hfault : s.fault = none := (step_next h).1
  rw [step_withAccess hfault] at h
  unfold markOf linesOf
  by_cases hd : decode acc = .ok .irqService
  · rw [present_of_schedulable hd rfl] at h
    obtain ⟨-, -, x, rest, htodo, -⟩ := exec_effect h
    have hhead : s.handler.todo.head? = some x := by rw [show s.handler.todo = x :: rest from htodo]; rfl
    simp [hd, hhead, services]
  · rw [if_neg hd]
    split
    · split <;> rfl
    · next hservice => exact absurd hservice hd
    · rfl

theorem services_append (a b : List Mark) : services (a ++ b) = services a ++ services b := by
  induction a with
  | nil => rfl
  | cons mk a ih => cases mk <;> simp [services, ih]

theorem linesMade_cons {s t : State} {acc : Access} (h : step (s.withAccess acc) = .next t) (accs : List Access) :
    linesMade s (acc :: accs) = linesOf acc + linesMade t accs := by
  rw [linesMade, marks, h, services_append, List.length_append, services_markOf h]
  rfl

theorem linesMade_append {s t : State} {a : List Access} (h : Run s a t) (b : List Access) :
    linesMade s (a ++ b) = linesMade s a + linesMade t b := by
  induction h with
  | done s => simp [linesMade, marks, services]
  | more hstep _ ih => rw [List.cons_append, linesMade_cons hstep, linesMade_cons hstep, ih, Nat.add_assoc]

/-- The service that makes the `j`-th line of a run. -/
theorem exists_service {s u : State} {accs : List Access} (h : Run s accs u) {j : Nat} (hj : j < linesMade s accs) :
    ∃ before acc after v, accs = before ++ acc :: after ∧ decode acc = .ok .irqService ∧ Run s before v ∧
      linesMade s before = j := by
  induction h generalizing j with
  | done s => simp [linesMade, marks, services] at hj
  | @more s s' t acc rest hstep hrest ih =>
    rw [linesMade_cons hstep] at hj
    by_cases hfirst : decode acc = .ok .irqService ∧ j = 0
    · exact ⟨[], acc, rest, s, rfl, hfirst.1, .done s, hfirst.2.symm⟩
    · have hle : linesOf acc ≤ j := by
        unfold linesOf
        split_ifs with hd
        · exact Nat.pos_of_ne_zero fun h0 => hfirst ⟨hd, h0⟩
        · exact Nat.zero_le j
      obtain ⟨before, acc', after, v, rfl, hd, hv, hcount⟩ := ih (j := j - linesOf acc) (by omega)
      exact ⟨acc :: before, acc', after, v, rfl, hd, .more hstep hv, by rw [linesMade_cons hstep, hcount]; omega⟩

/-! ### One access of a run -/

section Access

variable {s t : State} {m : Nat} {x : Chan} {acc : Access}

/-- One access of a run after START: the mark is set and nothing else happens, or the operation it decodes to is run. -/
theorem step_withAccess_next (hs : Running s m x) (h : step (s.withAccess acc) = .next t) :
    (decode acc ≠ .ok .irqService ∧ t = { s.advance s.inbox with refused := true }) ∨
      ∃ i, decode acc = .ok i ∧ schedulable i (s.advance s.inbox) = true ∧ exec i (s.advance s.inbox) = .next t := by
  rw [step_withAccess hs.noFault] at h
  by_cases hd : decode acc = .ok .irqService
  · rw [present_of_schedulable hd rfl] at h
    exact .inr ⟨_, hd, rfl, h⟩
  · obtain hmark | hrun := present_next h
    · exact .inl ⟨hd, hmark⟩
    · exact .inr hrun

theorem running_step (hs : Running s m x) (h : step (s.withAccess acc) = .next t) :
    ∃ m' x', EngineStep (linesOf acc) s m x t m' x' := by
  have ha : Running (s.advance s.inbox) m x := running_advance s.inbox hs
  obtain ⟨hd, rfl⟩ | ⟨i, hd, hi, hx⟩ := step_withAccess_next hs h
  · have hrun : Running { s.advance s.inbox with refused := true } m x :=
      hs.of_sameEngine ⟨rfl⟩ rfl fun _ _ _ => rfl
    exact ⟨m, x, hrun, .inl ⟨rfl, rfl⟩, by rw [linesOf, if_neg hd]; rfl, .inl rfl, fun _ _ => rfl, fun _ _ _ => rfl⟩
  · obtain ⟨m', x', hstep⟩ := running_exec ha hi hx
    have hlines : linesOf acc = if i = .irqService then 1 else 0 := by simp [linesOf, hd]
    rw [hlines]
    exact ⟨m', x', hstep.running, hstep.turn, hstep.lines, hstep.sent, hstep.ownBuf, hstep.peerBuf⟩

/-- An access that writes no byte of a framebuffer row leaves the row alone (R26). -/
theorem step_fb_row (hs : Running s m x) (h : step (s.withAccess acc) = .next t) {row : Nat} (hrow : row < 226)
    (hquiet : ¬writesRow row acc) {k : Nat} (hk : k < 320) : t.fb (320 * row + k) = s.fb (320 * row + k) := by
  obtain ⟨-, rfl⟩ | ⟨i, hd, -, hx⟩ := step_withAccess_next hs h
  · rfl
  · by_cases hi : ∃ offset byte, i = .fbWrite offset byte
    · obtain ⟨offset, byte, rfl⟩ := hi
      have hne : 320 * row + k ≠ offset.toNat := fun heq =>
        hquiet ⟨offset, byte, hd, by simp only [fbWidth]; omega, by simp only [fbWidth]; omega⟩
      obtain ⟨-, ⟨-, rfl⟩ | rfl⟩ := exec_effect hx
      · exact fbWrite_byteAt (s := s.advance s.inbox) (by simp only [advance_cfg]; omega)
      · rfl
    · exact onlyProducerWritesFramebuffer i (s.advance s.inbox) t hs.placed hx
        (fun offset byte he => hi ⟨offset, byte, he⟩) _ (by omega)

/-- From `s` to `t` the handler is in one activation: it has a service to make in `s`, or has made one in `t`. -/
def OneActivation (s t : State) : Prop :=
  (s.handler.active = true ∧ s.handler.todo ≠ []) ∨ (t.handler.active = true ∧ t.handler.todo = [])

theorem serviceList_eq_nil_iff {policy : BothBitsPolicy} {sA sB : Bool} :
    serviceList policy sA sB = [] ↔ sA = false ∧ sB = false := by
  cases sA <;> cases sB <;> cases policy <;> simp [serviceList]

/-- The handler changes by its entry, a service or its return: without a service, in one activation it stays as it is
(R125, R127, R128). -/
theorem exec_handler {i : Instr} (h : exec i s = .next t) (hi : i ≠ .irqService) (hact : OneActivation s t) :
    t.handler = s.handler := by
  have he := (exec_effect h).2
  cases i with
  | irqService => exact absurd rfl hi
  | irqEntry =>
    obtain ⟨hen, rfl⟩ := he
    simp only [irqEntryEnabled, State.irqLine, Bool.and_eq_true, Bool.or_eq_true, Bool.not_eq_true'] at hen
    obtain ⟨⟨-, hline⟩, hidle⟩ := hen
    obtain ⟨hactive, -⟩ | ⟨-, hempty⟩ := hact
    · simp [hidle] at hactive
    · obtain ⟨ha, hb⟩ := serviceList_eq_nil_iff.mp hempty
      simp [ha, hb] at hline
  | irqReturn =>
    obtain ⟨-, htodo, rfl⟩ := he
    obtain ⟨-, hne⟩ | ⟨hactive, -⟩ := hact
    · exact absurd htodo hne
    · simp at hactive
  | start =>
    obtain ⟨-, -, -, htrigger⟩ := he
    obtain ⟨-, -, rfl⟩ := trigger_ok.mp htrigger
    exact startBuilt_handler s
  | dmaXfer y =>
    obtain ⟨-, -, hhandler, -⟩ := transfer_frame he.2
    exact hhandler
  | dmaComplete y =>
    obtain ⟨-, -, rfl⟩ := trigger_ok.mp he
    rfl
  | palWrite index blue red green => obtain ⟨-, rfl⟩ := he; rfl
  | rdFrameCount => obtain rfl | rfl := he <;> rfl
  | rdRenderActive => obtain rfl | rfl := he <;> rfl
  | pwmWrap => obtain ⟨-, rfl⟩ := he; rfl
  | fbWrite offset byte => obtain ⟨-, rfl⟩ | rfl := he <;> rfl
  | genTest y idx =>
    obtain ⟨-, rfl⟩ | ⟨-, hgen⟩ := he
    · rfl
    · rw [(generate_onlyGenerated hgen).rest]
  | genPreeq y idx => obtain rfl := he; rfl
  | genVsync y idx => obtain rfl := he; rfl
  | genActive y idx => rw [(onlyGenerated_lineActive he).rest]
  | genBottom y idx => obtain rfl := he; rfl
  | genNowrite y idx => obtain rfl := he; rfl

theorem step_handler (hs : Running s m x) (h : step (s.withAccess acc) = .next t) (hnone : linesOf acc = 0)
    (hact : OneActivation s t) : t.handler = s.handler := by
  obtain ⟨-, rfl⟩ | ⟨i, hd, -, hx⟩ := step_withAccess_next hs h
  · rfl
  · have hi : i ≠ .irqService := by
      rintro rfl
      simp [linesOf, hd] at hnone
    exact exec_handler (s := s.advance s.inbox) hx hi hact

/-- A service of the running engine makes the next line in the peer's buffer (R126, R127, R131). -/
theorem service_step (hs : Running s m x) (hd : decode acc = .ok .irqService)
    (h : step (s.withAccess acc) = .next t) :
    Running t m x ∧ s.handler.active = true ∧ s.handler.todo = [x.peer] ∧ s.pend.get x.peer = true ∧
      service x.peer [] (s.advance s.inbox) = .ok t := by
  obtain ⟨hne, -⟩ | ⟨i, hd', -, hx⟩ := step_withAccess_next hs h
  · exact absurd hd hne
  · obtain rfl : Instr.irqService = i := Except.ok.inj (hd.symm.trans hd')
    obtain ⟨-, he⟩ := exec_effect hx
    have hrun := running_service (running_advance s.inbox hs) he
    obtain ⟨hactive, y, rest, htodo, hservice⟩ := he
    obtain ⟨rfl, rfl, hpend, -⟩ := service_ctx (running_advance s.inbox hs) htodo
    exact ⟨hrun, hactive, htodo, hpend, hservice⟩

end Access

/-! ### Runs of the engine -/

/-- The scanline index of the running engine is that of the line it makes next (R131). -/
theorem Running.scanIdx_eq {s : State} {m : Nat} {x : Chan} (hs : Running s m x) :
    s.scanIdx = some (BitVec.ofNat 9 (lineNext s m x % 262)) := by
  obtain ⟨hfree, -, -, -, hscan, -⟩ | ⟨-, hpend, -, hscan, -⟩ := hs.peer
  · rw [hscan, lineNext_of_not_pend hfree]
  · rw [hscan, lineNext_of_pend hpend]

theorem running_run {s u : State} {m : Nat} {x : Chan} {accs : List Access} (hs : Running s m x)
    (h : Run s accs u) :
    ∃ m' x', Running u m' x' ∧ lineNext u m' x' = lineNext s m x + linesMade s accs := by
  induction h generalizing m x with
  | done s => exact ⟨m, x, hs, rfl⟩
  | more hstep _ ih =>
    obtain ⟨m₁, x₁, h₁⟩ := running_step hs hstep
    obtain ⟨m', x', hrun, hlines⟩ := ih h₁.running
    exact ⟨m', x', hrun, by rw [hlines, h₁.lines, linesMade_cons hstep, Nat.add_assoc]⟩

/-- The palette stays for the whole of a run after START (R24). -/
theorem running_run_pal {s u : State} {m : Nat} {x : Chan} {accs : List Access} (hs : Running s m x)
    (h : Run s accs u) {j : Nat} (hj : j < 1024) : u.pal j = s.pal j := by
  induction h generalizing m x with
  | done s => rfl
  | @more s s' u acc rest hstep hrest ih =>
    obtain ⟨m₁, x₁, h₁⟩ := running_step hs hstep
    exact (ih h₁.running).trans (paletteFixedAfterStart (s.withAccess acc) s' hs.placed hs.isStarted hstep j hj)

/-! ### A line from its making to its sending -/

/-- Line `line` of a run has been made, with the samples `made`: its buffer holds them until they are sent, and the
history as far as they have been. -/
structure CarriesLine (line : Nat) (made : Nat → Option Sample) (s : State) (m : Nat) (x : Chan) : Prop where
  old : line < lineNext s m x
  inPeer : line = m + 1 → ∀ n < 908, s.buf x.peer n = made n
  inOwn : line = m → ∀ n < 908, s.buf x n = made n
  inHist : ∀ i < s.dmaHist.length, i / 908 = line → s.dmaHist[i]? = made (i % 908)

theorem CarriesLine.step {line made m m' : Nat} {samples : Nat → Option Sample} {s t : State} {x x' : Chan}
    (hc : CarriesLine line samples s m x) (hs : Running s m x) (h : EngineStep made s m x t m' x') :
    CarriesLine line samples t m' x' := by
  have hold := hc.old
  have hlines := h.lines
  have hbound : lineNext s m x ≤ m + 2 := by
    unfold lineNext
    split <;> omega
  have hhist : ∀ i < t.dmaHist.length, i / 908 = line → t.dmaHist[i]? = samples (i % 908) := by
    obtain hkeep | ⟨v, hv, hsent⟩ := h.sent
    · rw [hkeep]
      exact hc.inHist
    · rw [hsent]
      intro i hi hline
      by_cases hlt : i < s.dmaHist.length
      · rw [List.getElem?_append_left hlt, hc.inHist i hlt hline]
      · obtain rfl : i = s.dmaHist.length := by
          rw [List.length_append, List.length_singleton] at hi
          omega
        rw [List.getElem?_concat_length, ← hv]
        exact hc.inOwn (hline.symm.trans hs.sentCount.1) _ (Nat.mod_lt _ (by decide))
  obtain ⟨rfl, rfl⟩ | ⟨rfl, rfl⟩ := h.turn
  · exact ⟨by omega, fun hl n hn => (h.peerBuf (by omega) n hn).trans (hc.inPeer hl n hn),
      fun hl n hn => (h.ownBuf n hn).trans (hc.inOwn hl n hn), hhist⟩
  · exact ⟨by omega, fun hl => by omega, fun hl n hn => (h.peerBuf (by omega) n hn).trans (hc.inPeer hl n hn), hhist⟩

theorem CarriesLine.run {line m : Nat} {samples : Nat → Option Sample} {s u : State} {x : Chan} {accs : List Access}
    (hc : CarriesLine line samples s m x) (hs : Running s m x) (h : Run s accs u) :
    ∃ m' x', CarriesLine line samples u m' x' := by
  induction h generalizing m x with
  | done s => exact ⟨m, x, hc⟩
  | more hstep _ ih =>
    obtain ⟨m₁, x₁, h₁⟩ := running_step hs hstep
    exact ih (hc.step hs h₁) h₁.running

/-- What a service of the running engine makes is carried from then on: the line is `m + 1`, of which nothing has been
sent. -/
theorem service_carries {s t : State} {m : Nat} {x : Chan} {acc : Access} (hs : Running s m x)
    (hd : decode acc = .ok .irqService) (h : step (s.withAccess acc) = .next t) :
    CarriesLine (m + 1) (t.buf x.peer) t m x := by
  obtain ⟨hrun, -, -, -, hservice⟩ := service_step hs hd h
  obtain ⟨-, -, -, -, -, hback, -, -⟩ := service_frame (s := s.advance s.inbox) hs.placed hservice
  have hfree : t.pend.get x.peer = false := by rw [hback, Pair.get_set]
  have hsent := hrun.sentCount.1
  refine ⟨by rw [lineNext_of_not_pend hfree]; omega, fun _ _ _ => rfl, fun hl => by omega, fun i hi hl => ?_⟩
  omega

/-! ### The row that a line shows -/

section Row

variable {row m : Nat} {x : Chan} {s t u : State} {acc : Access} {accs after : List Access}

theorem makingLine_congr {l : Nat} (hhandler : t.handler = s.handler) (hscan : t.scanIdx = s.scanIdx)
    (h : makingLine t l) : makingLine s l := by
  unfold makingLine at h ⊢
  rwa [hhandler, hscan] at h

/-- One activation of the handler goes on after an access that is no service. -/
theorem OneActivation.next (hact : OneActivation s u) (hkeep : OneActivation s t → t.handler = s.handler) :
    OneActivation t u := by
  obtain hbegun | hended := hact
  · rw [OneActivation, hkeep (.inl hbegun)]
    exact .inl hbegun
  · exact .inr hended

/-- Without a service, in one activation, the handler stays as it is. -/
theorem run_handler (hs : Running s m x) (h : Run s accs u) (hnone : linesMade s accs = 0)
    (hact : OneActivation s u) : u.handler = s.handler := by
  induction h generalizing m x with
  | done s => rfl
  | more hstep _ ih =>
    rw [linesMade_cons hstep] at hnone
    obtain ⟨m₁, x₁, h₁⟩ := running_step hs hstep
    have hkeep := step_handler hs hstep (by omega)
    have hrest := ih h₁.running (by omega) (hact.next hkeep)
    refine hrest.trans (hkeep (hact.imp id fun hended => ?_))
    rwa [hrest] at hended

/-- While its line is being made a row that FB_QUIET protects keeps its bytes (R178). -/
theorem run_fb_row (hs : Running s m x) (h : Run s accs u) (hnone : linesMade s accs = 0) (hact : OneActivation s u)
    (hrow : row < 226) (hquiet : fbQuiet row s (accs ++ after)) (hmaking : makingLine u (row + 36)) {k : Nat}
    (hk : k < 320) : u.fb (320 * row + k) = s.fb (320 * row + k) := by
  induction h generalizing m x with
  | done s => rfl
  | @more s s' u acc rest hstep hrest ih =>
    have hsame : makingLine s (row + 36) := by
      refine makingLine_congr (run_handler hs (.more hstep hrest) hnone hact) ?_ hmaking
      obtain ⟨m', x', hu, hlines⟩ := running_run hs (.more hstep hrest)
      rw [hu.scanIdx_eq, hs.scanIdx_eq, hlines, hnone, Nat.add_zero]
    rw [linesMade_cons hstep] at hnone
    obtain ⟨m₁, x₁, h₁⟩ := running_step hs hstep
    have hstay := step_fb_row hs hstep hrow (hquiet.1 hsame) hk
    exact (ih h₁.running (by omega) (hact.next (step_handler hs hstep (by omega))) (hquiet.2 s' hstep) hmaking).trans
      hstay

/-- The service that makes the line of row `row` finds the line being made (R127). -/
theorem service_making (hs : Running s m x) (hd : decode acc = .ok .irqService)
    (h : step (s.withAccess acc) = .next t) (hline : (m + 1) % 262 = row + 36) : makingLine s (row + 36) := by
  obtain ⟨-, hactive, htodo, hpend, -⟩ := service_step hs hd h
  refine ⟨hactive, ?_⟩
  rw [hs.scanIdx_eq, lineNext_of_pend hpend, htodo, if_neg (by simp), ← hline]
  simp only [linesPerFrame, Nat.mod_mod]

/-- The cursor of the line of row `row` is the row's offset (R74, R90). -/
theorem Running.cursor_row (hs : Running s m x) (hrow : row < 226)
    (hscan : s.scanIdx = some (BitVec.ofNat 9 (row + 36))) {cur : BitVec 17}
    (hcur : lineCursor (BitVec.ofNat 9 (row + 36)) s = some cur) : cur.toNat = 320 * row := by
  have hnum : (BitVec.ofNat 9 (row + 36)).toNat = row + 36 := by
    rw [BitVec.toNat_ofNat]
    omega
  unfold lineCursor at hcur
  split_ifs at hcur with hfirst
  · have hzero : row + 36 = 36 := by rw [← hnum, hfirst]; rfl
    obtain rfl := Option.some.inj hcur
    simp only [BitVec.ofNat_eq_ofNat, BitVec.toNat_ofNat]
    omega
  · have hpos : row + 36 ≠ 36 := fun h => hfirst (by rw [h]; rfl)
    have hat := hs.cursorAt _ hscan (by omega)
    rw [hnum, hcur] at hat
    obtain rfl := Option.some.inj hat
    rw [BitVec.toNat_ofNat, fbWidth]
    omega

/-- The service that makes the line of row `row` leaves the framebuffer alone and stores the palette samples of the
row's pixels (R90, R127). -/
theorem service_pixels (hs : Running s m x) (hd : decode acc = .ok .irqService)
    (h : step (s.withAccess acc) = .next t) (hrow : row < 226) (hline : (m + 1) % 262 = row + 36) :
    (∀ o < 76800, t.fb o = s.fb o) ∧ ∀ k < 320, ∃ p, s.fb (320 * row + k) = some p ∧
      t.buf x.peer (172 + 2 * k) = s.pal (4 * p.toNat + 2 * (k % 2)) ∧
      t.buf x.peer (173 + 2 * k) = s.pal (4 * p.toNat + 2 * (k % 2) + 1) := by
  obtain ⟨-, -, -, hpend, hservice⟩ := service_step hs hd h
  obtain ⟨-, -, -, -, -, -, -, hfb⟩ := service_frame (s := s.advance s.inbox) hs.placed hservice
  refine ⟨hfb, fun k hk => ?_⟩
  have hscan : s.scanIdx = some (BitVec.ofNat 9 (row + 36)) := by
    rw [hs.scanIdx_eq, lineNext_of_pend hpend, hline]
  have hmake : (s.advance s.inbox).lineToMake = BitVec.ofNat 9 (row + 36) := by
    rw [State.lineToMake, advance_scanIdx, hscan]
  have hnum : (BitVec.ofNat 9 (row + 36)).toNat = row + 36 := by
    rw [BitVec.toNat_ofNat]
    omega
  have hregion : classify (BitVec.ofNat 9 (row + 36)) = .active :=
    (regionOp_wellFormed_iff (x := x)).mp (decide_eq_true (by rw [hnum]; omega))
  obtain ⟨made, hgen, hback⟩ := bind_ok.mp hservice
  cases hback
  rw [hmake, generate, hregion] at hgen
  obtain ⟨cur, p, hcur, hp, heven, hodd, -⟩ := lineActive_buf hgen hk
  rw [hs.cursor_row hrow hscan hcur] at hp
  exact ⟨p, hp, heven, hodd⟩

/-- Every state `w` of a run in which the line that a service made in `v` is being made, before the service or after it,
has the row as the service read it. -/
theorem making_fb_row {before before' after' : List Access} {v v' w : State} (ht : Running t m x)
    (hv : Run t before v) (hd : decode acc = .ok .irqService) (hstep : step (v.withAccess acc) = .next v')
    (hfb : ∀ o < 76800, v'.fb o = v.fb o) (hmaking : makingLine v (row + 36)) (hrow : row < 226)
    (hquiet : fbQuiet row t (before ++ acc :: after)) (hsplit : before ++ acc :: after = before' ++ after')
    (hw : Run t before' w) (hmaking' : makingLine w (row + 36))
    (hnumber : linesMade t before' + (if w.handler.todo = [] then 1 else 2) = linesMade t before + 2) {k : Nat}
    (hk : k < 320) : w.fb (320 * row + k) = v.fb (320 * row + k) := by
  obtain ⟨mv, xv, hrunv, -⟩ := running_run ht hv
  obtain ⟨mw, xw, hrunw, -⟩ := running_run ht hw
  obtain ⟨mid, rfl, hmid⟩ | ⟨mid, rfl, -⟩ := List.append_eq_append_iff.mp hsplit
  · have hvw := hw.rest hv
    rw [linesMade_append hv] at hnumber
    cases hvw with
    | done => rfl
    | @more _ v₁ _ acc₁ rest hstep₁ hrest =>
      obtain ⟨rfl, rfl⟩ : acc = acc₁ ∧ after = rest ++ after' := by simpa using hmid
      obtain rfl : v' = v₁ := by
        rw [hstep] at hstep₁
        cases hstep₁
        rfl
      rw [linesMade_cons hstep, linesOf, if_pos hd] at hnumber
      have hdone : w.handler.todo = [] := by
        by_contra hne
        rw [if_neg hne] at hnumber
        omega
      rw [if_pos hdone] at hnumber
      exact (run_fb_row (service_step hrunv hd hstep).1 hrest (by omega) (.inr ⟨hmaking'.1, hdone⟩) hrow
        ((hquiet.rest hv).2 v' hstep) hmaking' hk).trans (hfb _ (by omega))
  · rw [linesMade_append hw] at hnumber
    have hdue : w.handler.todo ≠ [] := by
      intro hempty
      rw [if_pos hempty] at hnumber
      omega
    rw [if_neg hdue] at hnumber
    rw [List.append_assoc] at hquiet
    exact (run_fb_row hrunw (hv.rest hw) (by omega) (.inl ⟨hmaking'.1, hdue⟩) hrow (hquiet.rest hw) hmaking hk).symm

end Row

/-- Settles O54: the service that makes the line is found in the run by its number; its pixels are carried to the
history, and the row it read is the one of every state in which the line is being made, before it or after it. -/
theorem emittedPixelsAreTheRow : Obligations.EmittedPixelsAreTheRow := by
  unfold Obligations.EmittedPixelsAreTheRow
  intro s t u accs row hs hstart hrun hrow hquiet i hi hline
  have ht : Running t 0 .a := start_running hs hstart
  obtain ⟨mu, xu, hu, hnextu⟩ := running_run ht hrun
  have hsent : i / 908 < lineNext u mu xu := by
    have hsentCount := hu.sentCount.1
    unfold lineNext
    split <;> omega
  have hfirst : lineNext t 0 .a = 2 := by
    obtain ⟨hfree, -⟩ | ⟨hpos, -⟩ := ht.peer
    · exact lineNext_of_not_pend hfree
    · exact absurd hpos (Nat.lt_irrefl 0)
  obtain ⟨before, acc, after, v, rfl, hd, hv, hcount⟩ := exists_service hrun (j := i / 908 - 2) (by omega)
  obtain ⟨m, x, hm, hnext⟩ := running_run ht hv
  cases hrun.rest hv with
  | @more _ v' _ _ _ hstep hrest =>
    obtain ⟨hm', -, -, hpend, -⟩ := service_step hm hd hstep
    rw [lineNext_of_pend hpend] at hnext
    have hnumber : m + 1 = i / 908 := by omega
    have hmaking := service_making hm hd hstep (row := row) (by rw [hnumber, hline])
    obtain ⟨hfb, hpixels⟩ := service_pixels hm hd hstep hrow (by rw [hnumber, hline])
    have hservices : linesMade t before + 2 = i / 908 := by omega
    refine ⟨⟨before, acc, after, v, rfl, hd, hv, hmaking, hservices⟩, ?_⟩
    intro before' after' w hsplit hw hmaking' hnumber' k hk
    obtain ⟨p, hp, heven, hodd⟩ := hpixels k hk
    have hp' := making_fb_row ht hv hd hstep hfb hmaking hrow hquiet hsplit hw hmaking'
      (hnumber'.trans hservices.symm) hk
    have hpal {j : Nat} (hj : j < 1024) : w.pal j = v.pal j :=
      (running_run_pal ht hw hj).trans (running_run_pal ht hv hj).symm
    obtain ⟨_, _, hcarried⟩ := (service_carries hm hd hstep).run hm' hrest
    have hbyte := p.isLt
    refine ⟨p, by rw [hp', hp], fun hn => ?_, fun hn => ?_⟩
    · rw [hcarried.inHist i hi hnumber.symm, hn, heven, hpal (by omega)]
    · rw [hcarried.inHist i hi hnumber.symm, hn, hodd, hpal (by omega)]

end Sys2Proof.Machine

/-!
The palette colour encoder (R101 to R110): the collapsed numerators and the ranges that follow from them, and the four
samples that PAL_WRITE stores.
-/
namespace Sys2Proof.Machine

/-! ### The collapsed numerators and their sums (R104, R109) -/

theorem numerator_zero (y : Nat) (b r : Int) :
    numerator 0 y (b - y) (r - y) = -10 * y + 441 * b + 1361 * r + 163840 := by
  simp only [numerator]
  ring

theorem numerator_one (y : Nat) (b r : Int) :
    numerator 1 y (b - y) (r - y) = 1814 * y + 764 * b - 786 * r + 163840 := by
  simp only [numerator]
  ring

theorem numerator_two (y : Nat) (b r : Int) :
    numerator 2 y (b - y) (r - y) = 3594 * y - 441 * b - 1361 * r + 163840 := by
  simp only [numerator]
  ring

theorem numerator_three (y : Nat) (b r : Int) :
    numerator 3 y (b - y) (r - y) = 1770 * y - 764 * b + 786 * r + 163840 := by
  simp only [numerator]
  ring

theorem numerator_zero_add_two (y : Nat) (db dr : Int) :
    numerator 0 y db dr + numerator 2 y db dr = 2 * (1792 * y + 163840) := by
  simp only [numerator]
  ring

theorem numerator_one_add_three (y : Nat) (db dr : Int) :
    numerator 1 y db dr + numerator 3 y db dr = 2 * (1792 * y + 163840) := by
  simp only [numerator]
  ring

/-- Without colour differences only the luma term and the bias are left, at every phase (R110). -/
theorem numerator_grey (q : Fin 4) (y : Nat) : numerator q y 0 0 = 1792 * y + 163840 := by
  match q with
  | 0 | 1 | 2 | 3 => simp only [numerator]; ring

/-! ### Luma (R102) -/

theorem luma_cast (red green blue : Byte) :
    (luma red green blue : Int) = (77 * (red.toNat : Int) + 150 * green.toNat + 29 * blue.toNat + 128) / 256 := by
  simp [luma]

/-- A grey is its own luma (R110). -/
theorem luma_grey (v : Byte) : luma v v v = v.toNat := by
  rw [luma]
  omega

/-! ### The samples (R105, R107) -/

theorem phaseSample_cast (q : Fin 4) (y : Nat) (db dr : Int) :
    (phaseSample q y db dr : Int) = if numerator q y db dr < 0 then 0 else numerator q y db dr / 65536 := by
  unfold phaseSample
  split <;> omega

/-- The numerator of a colour at its luma and colour differences (R102 to R104). -/
abbrev colourNumerator (q : Fin 4) (red green blue : Byte) : Int :=
  numerator q (luma red green blue) ((blue.toNat : Int) - luma red green blue) ((red.toNat : Int) - luma red green blue)

theorem encodePhase_cast (q : Fin 4) (red green blue : Byte) :
    (encodePhase q red green blue : Int) =
      if colourNumerator q red green blue < 0 then 0 else colourNumerator q red green blue / 65536 :=
  phaseSample_cast ..

/-- A sample is at most 11, so storing it in 16 bits loses nothing (R107). -/
theorem toNat_ofNat_encodePhase (q : Fin 4) (red green blue : Byte) :
    (BitVec.ofNat 16 (encodePhase q red green blue)).toNat = encodePhase q red green blue := by
  have := encodePhase_le q red green blue
  rw [BitVec.toNat_ofNat]
  omega

/-- A numerator that stays inside the interval of the samples `lo` to `hi` gives one of them. -/
theorem encodePhase_mem {q : Fin 4} {red green blue : Byte} {lo hi : Nat}
    (hlo : 65536 * (lo : Int) ≤ colourNumerator q red green blue)
    (hhi : colourNumerator q red green blue < 65536 * (hi + 1 : Int)) :
    lo ≤ encodePhase q red green blue ∧ encodePhase q red green blue ≤ hi := by
  have hcast := encodePhase_cast q red green blue
  rw [if_neg (by omega)] at hcast
  omega

/-- The table of R107. At its extreme colours the rounding of luma counts: a bound holds for the integer luma and not
for the weighted mean that it rounds. `lia` searches the integers, where `omega` would stop; the least value of phase 1, at
luma 76 of the colour (254, 0, 0), is where two integer bounds of luma by red meet. -/
theorem colourNumerator_range (red green blue : Byte) :
    (162350 ≤ colourNumerator 0 red green blue ∧ colourNumerator 0 red green blue ≤ 622290) ∧
    (102060 ≤ colourNumerator 1 red green blue ∧ colourNumerator 1 red green blue ≤ 682580) ∧
    (82141 ≤ colourNumerator 2 red green blue ∧ colourNumerator 2 red green blue ≤ 702499) ∧
    (20350 ≤ colourNumerator 3 red green blue ∧ colourNumerator 3 red green blue ≤ 764290) := by
  have hred := red.isLt
  have hgreen := green.isLt
  have hblue := blue.isLt
  have hluma := luma_cast red green blue
  simp only [colourNumerator, numerator_zero, numerator_one, numerator_two, numerator_three]
  refine ⟨⟨?_, ?_⟩, ⟨?_, ?_⟩, ⟨?_, ?_⟩, ?_, ?_⟩
  case refine_3 =>
    have hsteep : red.toNat ≤ luma red green blue + 178 := by omega
    have hflat : red.toNat ≤ 3 * luma red green blue + 26 := by omega
    omega
  all_goals lia

/-- Settles O15: the range of each numerator lies inside the interval of its samples; an out-of-range sample is no cause
of a fault. -/
theorem encoderStaysInRange : Obligations.EncoderStaysInRange := by
  unfold Obligations.EncoderStaysInRange
  refine ⟨fun red green blue => ?_, fun index blue red green s hfault h => ?_⟩
  · obtain ⟨⟨hlo0, hhi0⟩, ⟨hlo1, hhi1⟩, ⟨hlo2, hhi2⟩, hlo3, hhi3⟩ := colourNumerator_range red green blue
    exact ⟨⟨hlo0, hhi0, encodePhase_mem (by omega) (by omega)⟩, ⟨hlo1, hhi1, encodePhase_mem (by omega) (by omega)⟩,
      ⟨hlo2, hhi2, encodePhase_mem (by omega) (by omega)⟩, hlo3, hhi3, encodePhase_le 3 red green blue⟩
  · obtain ⟨-, hcause⟩ := exec_fault hfault h
    cases hcause

/-- Settles O16: the collapsed forms and their sums; a grey is its own luma and has no colour differences. -/
theorem encoderIsSymmetric : Obligations.EncoderIsSymmetric := by
  unfold Obligations.EncoderIsSymmetric
  refine fun red green blue => ⟨?_, ?_⟩
  · exact ⟨numerator_zero .., numerator_one .., numerator_two .., numerator_three ..,
      numerator_zero_add_two .., numerator_one_add_three ..⟩
  · rintro rfl rfl q
    have hcast := encodePhase_cast q red red red
    rw [colourNumerator, luma_grey, sub_self, numerator_grey] at hcast
    split at hcast <;> omega

/-! ### PAL_WRITE (R101, R106) -/

section PalWrite

variable (index blue red green : BitVec 8) (s : State)

/-- The state after a PAL_WRITE that completes. -/
def State.palStored : State :=
  { s with
    mem := Memory.writeSamples s.cfg s.mem s.cfg.palBase (4 * index.toNat)
      ((encodeColour red green blue).map (BitVec.ofNat 16)) }

theorem palStored_byteAt {a : Nat} (ha : a < s.cfg.palBase.toNat + 8 * index.toNat ∨
    s.cfg.palBase.toNat + 8 * index.toNat + 8 ≤ a) : (s.palStored index blue red green).byteAt a = s.byteAt a :=
  read1_writeBytes_outside (by
    rw [flatMap_sampleBytes_length, List.length_map, show (encodeColour red green blue).length = 4 from rfl]
    omega)

theorem palStored_pal (q : Fin 4) :
    (s.palStored index blue red green).pal (4 * index.toNat + q) =
      some (BitVec.ofNat 16 (encodePhase q red green blue)) := by
  have hlen : ((encodeColour red green blue).map (BitVec.ofNat 16)).length = 4 := rfl
  refine (sample_writeSamples_inside (Nat.le_add_right ..) (by omega)).trans ?_
  match q with
  | 0 | 1 | 2 | 3 => simp [encodeColour]

variable {s} (hfault : s.fault = none)
include hfault

theorem exec_palWrite_started (hstarted : s.started = true) :
    exec (.palWrite index blue red green) s = .fault .palAfterStart :=
  (whenEnabled_run hfault rfl).trans (if_pos hstarted)

theorem exec_palWrite_not_started (hnot : s.started = false) :
    exec (.palWrite index blue red green) s = .next (s.palStored index blue red green) := by
  refine (whenEnabled_run hfault rfl).trans ?_
  rw [if_neg (by simp [hnot]), if_neg (by simp [encodeColour_in_range])]
  rfl

end PalWrite

/-- Settles O14: before START the next state is `palStored`; each phase's sample is its numerator's. -/
theorem palWriteStoresEncodedColour : Obligations.PalWriteStoresEncodedColour := by
  unfold Obligations.PalWriteStoresEncodedColour
  intro index blue red green s hfault
  refine ⟨exec_palWrite_started index blue red green hfault, fun hnot =>
    ⟨s.palStored index blue red green, exec_palWrite_not_started index blue red green hfault hnot, rfl,
      fun a ha => palStored_byteAt index blue red green s ha, ?_⟩⟩
  intro y db dr hy hdb hdr q n hmem
  rw [← luma_cast] at hy
  subst hy hdb hdr
  obtain ⟨p, rfl, rfl⟩ : ∃ p : Fin 4, q = p ∧ n = colourNumerator p red green blue := by
    simp only [List.mem_cons, Prod.mk.injEq, List.not_mem_nil, or_false] at hmem
    obtain ⟨rfl, rfl⟩ | ⟨rfl, rfl⟩ | ⟨rfl, rfl⟩ | ⟨rfl, rfl⟩ := hmem
    · exact ⟨0, rfl, rfl⟩
    · exact ⟨1, rfl, rfl⟩
    · exact ⟨2, rfl, rfl⟩
    · exact ⟨3, rfl, rfl⟩
  refine ⟨_, palStored_pal index blue red green s p, ?_, ?_⟩
  · rw [toNat_ofNat_encodePhase]
    exact encodePhase_le p red green blue
  · rw [toNat_ofNat_encodePhase, encodePhase_cast]

end Sys2Proof.Machine

/-!
The ping-pong transport (R115 to R117, R120): one transfer of a channel, the completion that ends a run, and their faults
in the order of the checks.
-/
namespace Sys2Proof

@[simp] theorem Pair.set_set {α : Type} (p : Pair α) (x : Chan) (v w : α) :
    (p.set x v).set x w = p.set x w := by
  cases x <;> rfl

end Sys2Proof

namespace Sys2Proof.Machine

/-! ### The completion of a run (R117, R115) -/

/-- `s` after channel `x`'s run has been completed and its peer started with `r` transfers to go (R117, R115). -/
def State.handedOver (s : State) (x : Chan) (r : BitVec 32) : State :=
  { s with
    intr := s.intr.set x true
    pend := s.pend.set x true
    dma := (s.dma.set x { s.dma.get x with busy := false }).set x.peer
      { s.dma.get x.peer with busy := true, count := r } }

theorem completeRun_handedOver {x : Chan} {s : State} {r : BitVec 32} (hidle : (s.dma.get x.peer).busy = false)
    (hfree : s.pend.get x.peer = false) (hreload : (s.dma.get x.peer).countReload = some r) :
    completeRun x s = .ok (s.handedOver x r) := by
  have hvalue : (runOver x s).reloadValue x.peer = r := by simp [State.reloadValue, runOver, hreload]
  rw [completeRun_eq]
  refine trigger_ok.mpr ⟨by simpa [runOver] using hidle, by simpa [runOver] using hfree, ?_⟩
  rw [hvalue]
  simp only [State.handedOver, runOver, Pair.get_set_peer]

/-- The faults of a completion are those of its trigger of the peer (R115). -/
theorem completeRun_error {x : Chan} {s : State} {f : Fault} :
    completeRun x s = .error f ↔
      (f = .internal ∧ (s.dma.get x.peer).busy = true) ∨
      (f = .deadline ∧ (s.dma.get x.peer).busy = false ∧ s.pend.get x.peer = true) := by
  rw [completeRun_eq, trigger_error]
  simp [runOver]

theorem exec_dmaComplete {x : Chan} {s : State} (hfault : s.fault = none) :
    exec (.dmaComplete x) s = finish (completeRun x s) :=
  whenEnabled_run hfault rfl

/-- Settles O25: the completion is its trigger's answer, with the two faults of a trigger. -/
theorem dmaCompleteHandsOver : Obligations.DmaCompleteHandsOver := by
  unfold Obligations.DmaCompleteHandsOver
  intro x s hfault
  rw [exec_dmaComplete hfault]
  refine ⟨fun hbusy => finish_fault.mpr (completeRun_error.mpr (.inl ⟨rfl, hbusy⟩)),
    fun hidle howned => finish_fault.mpr (completeRun_error.mpr (.inr ⟨rfl, hidle, howned⟩)), ?_⟩
  intro r hidle hfree hreload
  exact finish_next.mpr (completeRun_handedOver hidle hfree hreload)

/-! ### A transfer (R114, R116, R120) -/

section Transfer

variable {x : Chan} {s : State} {addr : Addr} {v : Sample}

theorem exec_dmaXfer (hfault : s.fault = none) (hen : dmaXferEnabled x s = true) :
    exec (.dmaXfer x) s = finish (transfer x s) :=
  whenEnabled_run hfault hen

theorem inOwnBuf_iff {cfg : Config} :
    inOwnBuf cfg x addr = true ↔
      (cfg.bufBase x).toNat ≤ addr.toNat ∧ addr.toNat < (cfg.bufBase x).toNat + 1816 :=
  decide_eq_true_iff

/-- The first check of a transfer: its read address lies in the channel's own buffer (R116; log entry 3). -/
theorem transfer_outside
    (h : (s.dma.get x).readAddr = none ∨
      ∃ addr, (s.dma.get x).readAddr = some addr ∧ inOwnBuf s.cfg x addr = false) :
    transfer x s = .error .staleRead := by
  obtain hnone | ⟨addr, haddr, hout⟩ := h
  · simp only [transfer, hnone]
  · simp only [transfer, haddr, hout, if_true]

/-- The second check of a transfer: the sample read has been written (R116). -/
theorem transfer_unwritten (haddr : (s.dma.get x).readAddr = some addr) (hin : inOwnBuf s.cfg x addr = true)
    (hv : Memory.read2 s.cfg s.mem addr.toNat = none) : transfer x s = .error .bufUnwritten := by
  simp [transfer, haddr, hin, hv]

/-- Past its own checks a transfer moves the sample, and its completion follows if the count comes to 0 (R116). -/
theorem transfer_written (haddr : (s.dma.get x).readAddr = some addr) (hin : inOwnBuf s.cfg x addr = true)
    (hv : Memory.read2 s.cfg s.mem addr.toNat = some v) :
    transfer x s =
      if (s.dma.get x).count = 1 then completeRun x (s.moveSample x addr v) else .ok (s.moveSample x addr v) := by
  simp only [transfer, haddr, hin, hv, moveSample_dma, sub_eq_zero, Bool.true_eq_false, if_false]

/-- The last transfer of a run faults as its completion does (R116, R155). -/
theorem transfer_last_error {f : Fault} (haddr : (s.dma.get x).readAddr = some addr)
    (hin : inOwnBuf s.cfg x addr = true) (hv : Memory.read2 s.cfg s.mem addr.toNat ≠ none)
    (hlast : (s.dma.get x).count = 1)
    (hf : (f = .internal ∧ (s.dma.get x.peer).busy = true) ∨
      (f = .deadline ∧ (s.dma.get x.peer).busy = false ∧ s.pend.get x.peer = true)) :
    transfer x s = .error f := by
  obtain ⟨v, hv⟩ := Option.ne_none_iff_exists'.mp hv
  rw [transfer_written haddr hin hv, if_pos hlast]
  exact completeRun_error.mpr (by simpa using hf)

end Transfer

/-- Settles O22: the transfer passes both checks and its count stays above 0. -/
theorem dmaXferMovesOneSample : Obligations.DmaXferMovesOneSample := by
  unfold Obligations.DmaXferMovesOneSample
  intro x s addr v hfault hstarted hbusy hcount hdreq haddr hlo hhi hv
  have hnotLast : (s.dma.get x).count ≠ 1 := fun h => by simp [h] at hcount
  have hnotZero : (s.dma.get x).count ≠ 0 := fun h => by simp [h] at hcount
  rw [exec_dmaXfer hfault (dmaXferEnabled_iff.mpr ⟨hstarted, hbusy, hnotZero, hdreq⟩),
    transfer_written haddr (inOwnBuf_iff.mpr ⟨hlo, hhi⟩) hv, if_neg hnotLast]
  rfl

/-- Settles O23: the transfer passes both checks, and its completion hands over to the peer. -/
theorem lastTransferChainsPeer : Obligations.LastTransferChainsPeer := by
  unfold Obligations.LastTransferChainsPeer
  intro x s addr v r hfault hstarted hbusy hlast hdreq haddr hlo hhi hv hidle hfree hreload
  have hdone : completeRun x (s.moveSample x addr v) = .ok ((s.moveSample x addr v).handedOver x r) :=
    completeRun_handedOver (by simpa using hidle) hfree (by simpa using hreload)
  rw [exec_dmaXfer hfault (dmaXferEnabled_iff.mpr ⟨hstarted, hbusy, by simp [hlast], hdreq⟩),
    transfer_written haddr (inOwnBuf_iff.mpr ⟨hlo, hhi⟩) hv, if_pos hlast, hdone]
  simp only [finish, State.handedOver, State.moveSample, Pair.set_set, Pair.get_set, Pair.get_set_peer, hlast,
    sub_self]

/-- Settles O24: each check of a transfer, the earlier ones passed. -/
theorem dmaXferFaultsInOrder : Obligations.DmaXferFaultsInOrder := by
  unfold Obligations.DmaXferFaultsInOrder
  intro x s hfault hstarted hbusy hcount hdreq
  rw [exec_dmaXfer hfault (dmaXferEnabled_iff.mpr ⟨hstarted, hbusy, hcount, hdreq⟩)]
  simp only [finish_fault]
  constructor
  · rintro (hnone | ⟨addr, haddr, hout⟩)
    · exact transfer_outside (.inl hnone)
    · refine transfer_outside (.inr ⟨addr, haddr, ?_⟩)
      rw [Bool.eq_false_iff, ne_eq, inOwnBuf_iff]
      omega
  · intro addr haddr hlo hhi
    have hin : inOwnBuf s.cfg x addr = true := inOwnBuf_iff.mpr ⟨hlo, hhi⟩
    exact ⟨fun hv => transfer_unwritten haddr hin hv,
      fun hv hlast hpeer => transfer_last_error haddr hin hv hlast (.inl ⟨rfl, hpeer⟩),
      fun hv hlast hidle howned => transfer_last_error haddr hin hv hlast (.inr ⟨rfl, hidle, howned⟩)⟩

end Sys2Proof.Machine

/-!
The faults that the spec calls unreachable (R107, R116, R118, R153): which faults an operation can raise before START and
in the running engine.
-/
namespace Sys2Proof.Machine

/-- The faults of the block before START: START's own checks and those of a line called for from outside (R153, R155). -/
def beforeStartFaults : List Fault := [.clock, .dmaAlloc, .palUnwritten, .cursor, .fbRange]

/-- The faults of the running engine: a host operation that START has closed, a missed deadline, and a pixel that names
an unwritten palette sample (R153). -/
def runningFaults : List Fault := [.palAfterStart, .startTwice, .deadline, .palUnwritten]

theorem lineActive_error_mem {x : Chan} {idx : LineIdx} {s : State} {f : Fault} (h : lineActive x idx s = .error f) :
    f ∈ beforeStartFaults := by
  obtain ⟨rfl, -⟩ | ⟨_, -, ⟨rfl, -⟩ | ⟨rfl, -⟩⟩ := lineActive_error h <;> decide

/-- Before START no internal agent has a step, and no buffer awaits a service: what can fault is START and a line
(R153, R171). -/
theorem beforeStart_fault {i : Instr} {s : State} {f : Fault} (hs : BeforeStart s) (hi : schedulable i s = true)
    (h : exec i s = .fault f) : f ∈ beforeStartFaults := by
  have hnot := hs.notStarted
  have hcause := exec_fault hs.noFault h
  cases i with
  | start =>
    obtain ⟨hstarted, -⟩ | ⟨-, rfl | rfl | ⟨-, hpend⟩⟩ := hcause
    · simp [hnot] at hstarted
    · decide
    · decide
    · simp [hs.noPend] at hpend
  | genTest x idx => exact lineActive_error_mem hcause.2
  | genActive x idx => exact lineActive_error_mem hcause
  | palWrite index blue red green => simp [FaultCause, hnot] at hcause
  | dmaXfer x => simp [FaultCause, dmaXferEnabled, hnot] at hcause
  | dmaComplete x => simp [schedulable] at hi
  | irqService => simp [FaultCause, hs.handlerIdle] at hcause
  | rdFrameCount | rdRenderActive | pwmWrap | irqEntry | irqReturn | fbWrite | genPreeq | genVsync | genBottom
  | genNowrite => exact hcause.elim

theorem running_fault_mem {i : Instr} {s : State} {m : Nat} {x : Chan} {f : Fault} (hs : Running s m x)
    (hi : schedulable i s = true) (h : exec i s = .fault f) : f ∈ runningFaults := by
  obtain ⟨-, -, -, -, -, rfl⟩ | ⟨-, rfl⟩ | ⟨-, -, -, rfl⟩ | ⟨-, rfl, -⟩ := running_fault hs hi h <;> decide

theorem EngineInv.noFault {s : State} (hs : EngineInv s) : s.fault = none := by
  obtain hbefore | ⟨m, x, hrun⟩ := hs
  · exact hbefore.noFault
  · exact hrun.noFault

/-- Every fault of a step under the invariant is the block's before START, or the running engine's after it. -/
theorem engineInv_step_fault {s : State} {f : Fault} (hs : EngineInv s) (h : step s = .fault f) :
    (s.started = false ∧ f ∈ beforeStartFaults) ∨ f ∈ runningFaults := by
  obtain hheld | ⟨-, box, i, hi, hx⟩ := step_fault h
  · simp [hs.noFault] at hheld
  · obtain hbefore | ⟨m, x, hrun⟩ := hs
    · exact .inl ⟨hbefore.notStarted, beforeStart_fault (s := s.advance box) (hbefore.of_sameEngine ⟨rfl⟩) hi hx⟩
    · exact .inr (running_fault_mem (running_advance box hrun) hi hx)

/-- At most one channel is busy (R118). -/
theorem EngineInv.not_both_busy {s : State} (hs : EngineInv s) : ¬(s.dma.a.busy = true ∧ s.dma.b.busy = true) := by
  rintro ⟨ha, hb⟩
  obtain hbefore | ⟨m, x, hrun⟩ := hs
  · simp [hbefore.notBusy.1] at ha
  · have hidle := hrun.peerIdle
    cases x with
    | a => exact absurd hb (by simpa [Pair.get] using hidle)
    | b => exact absurd ha (by simpa [Pair.get] using hidle)

/-- Settles O51: the faults that can be raised before START and after it are listed, and these are not among them. -/
theorem unreachableFaults : Obligations.UnreachableFaults := by
  unfold Obligations.UnreachableFaults
  intro s hs
  have hnever {f : Fault} (hbefore : f ∉ beforeStartFaults) (hrunning : f ∉ runningFaults) : step s ≠ .fault f :=
    fun h => (engineInv_step_fault hs h).elim (fun hb => hbefore hb.2) hrunning
  have hnotRunning {f : Fault} (hstarted : s.started = true) (hrunning : f ∉ runningFaults) : step s ≠ .fault f :=
    fun h => (engineInv_step_fault hs h).elim (fun hb => by simp [hstarted] at hb) hrunning
  exact ⟨hs.not_both_busy, hnever (by decide) (by decide), hnever (by decide) (by decide),
    hnever (by decide) (by decide), hnever (by decide) (by decide),
    fun hstarted => ⟨hnotRunning hstarted (by decide), hnotRunning hstarted (by decide)⟩⟩

end Sys2Proof.Machine

/-!
Runs of the engine (R97, R118, R119, R122, R131): the samples sent, the requests counted, and the turns that the channels
take.
-/
namespace Sys2Proof.Machine

/-! ### The samples sent (R97, R100) -/

/-- From sample 76 to 111 of a line that is not a pre-equalizing one: the burst (R70, R89). -/
theorem vsyncSample_burst {n : Nat} (hlo : 76 ≤ n) (hhi : n < 112) :
    ([2, 1, 2, 3] : List Sample)[(n - 76) % 4]? = some (vsyncSample n) := by
  rw [vsyncSample, if_neg (by omega), if_neg (by omega), if_pos hhi]
  have hphase : (n - 76) % 4 < 4 := Nat.mod_lt _ (by decide)
  interval_cases (n - 76) % 4 <;> rfl

/-- Outside the pixel samples of the active lines the table of R97 gives line `l`, from line 10 on, the samples of a
vertical-sync line. -/
theorem lineSample_of_le {l n : Nat} (hl : 10 ≤ l) (hn : l < 36 ∨ n < 172 ∨ 812 ≤ n) :
    lineSample l n = some (vsyncSample n) := by
  rw [lineSample, if_neg (by omega)]
  split_ifs with htop hpixel
  · rfl
  · simp only [activeStart, activeSamples] at hpixel
    omega
  · rfl

/-- Settles O53: the running engine's invariant holds the history to the table, whose samples are read off line by
line. -/
theorem emittedStreamFollowsTable : Obligations.EmittedStreamFollowsTable := by
  unfold Obligations.EmittedStreamFollowsTable
  rintro s t u accs hs hstart hrun i hi l n rfl rfl
  obtain ⟨m, x, hu, -⟩ := running_run (start_running hs hstart) hrun
  have hpreeq (hl : i / 908 % 262 < 10) : u.dmaHist[i]? = some (preeqSample (i % 908)) :=
    hu.emitted i hi _ (by rw [lineSample, if_pos hl])
  have hvsync (hl : 10 ≤ i / 908 % 262) (hn : i / 908 % 262 < 36 ∨ i % 908 < 172 ∨ 812 ≤ i % 908) :
      u.dmaHist[i]? = some (vsyncSample (i % 908)) :=
    hu.emitted i hi _ (lineSample_of_le hl hn)
  refine ⟨hpreeq, fun hl hn => ?_, fun hl hn => ?_, fun hl hlo hhi => ?_, fun hl htop hlo hhi => ?_⟩
  · rw [hvsync hl (by omega), vsyncSample, if_pos hn]
  · rw [hvsync hl (by omega), vsyncSample, if_neg (by omega)]
    by_cases hporch : i % 908 < 76
    · rw [if_pos hporch]
    · rw [if_neg hporch, if_neg (by omega)]
  · rw [hvsync hl (by omega), vsyncSample_burst hlo hhi]
  · rw [hvsync hl (.inl htop), vsyncSample, if_neg (by omega), if_neg (by omega), if_neg (by omega)]

/-! ### The requests (R119, R142) -/

/-- The samples sent, the periods put out and the requests outstanding are the same in both states. -/
structure SameStreams (s t : State) : Prop where
  dmaHist : t.dmaHist = s.dmaHist
  outHist : t.outHist = s.outHist
  dreq : t.dreq = s.dreq

theorem SameEngine.sameStreams {s t : State} (h : SameEngine s t) : SameStreams s t := by
  rw [h.rest]
  exact ⟨rfl, rfl, rfl⟩

theorem completeRun_sameStreams {x : Chan} {s t : State} (h : completeRun x s = .ok t) : SameStreams s t := by
  rw [completeRun_eq] at h
  obtain ⟨-, -, rfl⟩ := trigger_ok.mp h
  exact ⟨rfl, rfl, rfl⟩

theorem service_sameStreams {x : Chan} {rest : List Chan} {s t : State} (h : service x rest s = .ok t) :
    SameStreams s t := by
  obtain ⟨made, hgen, hback⟩ := bind_ok.mp h
  cases hback
  obtain ⟨hhist, hout, hdreq⟩ := (generate_onlyGenerated hgen).sameEngine.sameStreams
  exact ⟨hhist, hout, hdreq⟩

/-- What an operation other than START does to the streams (R47, R116, R136): a wrap puts out a period and counts a
request, a transfer sends a sample and answers one, and any other operation leaves them alone. -/
theorem exec_streams {i : Instr} {s t : State} (h : exec i s = .next t) (hi : i ≠ .start) :
    SameStreams s t ∨
      (i = .pwmWrap ∧ t.dmaHist = s.dmaHist ∧ t.outHist.length = s.outHist.length + 1 ∧ t.dreq = s.dreq + 1) ∨
      ∃ x, i = .dmaXfer x ∧ t.dmaHist.length = s.dmaHist.length + 1 ∧ t.outHist = s.outHist ∧ s.dreq = t.dreq + 1 := by
  have he := (exec_effect h).2
  cases i with
  | start => exact absurd rfl hi
  | pwmWrap =>
    obtain ⟨-, rfl⟩ := he
    exact .inr (.inl ⟨rfl, rfl, by simp, rfl⟩)
  | dmaXfer x =>
    obtain ⟨hen, hx⟩ := he
    obtain ⟨-, -, -, hrequest⟩ := dmaXferEnabled_iff.mp hen
    obtain ⟨-, -, -, hdreq, hout, hhist⟩ := transfer_frame hx
    exact .inr (.inr ⟨x, rfl, hhist, hout, by omega⟩)
  | dmaComplete x => exact .inl (completeRun_sameStreams he)
  | irqEntry => obtain ⟨-, rfl⟩ := he; exact .inl ⟨rfl, rfl, rfl⟩
  | irqService => obtain ⟨-, x, rest, -, hservice⟩ := he; exact .inl (service_sameStreams hservice)
  | irqReturn => obtain ⟨-, -, rfl⟩ := he; exact .inl ⟨rfl, rfl, rfl⟩
  | palWrite index blue red green => obtain ⟨-, rfl⟩ := he; exact .inl ⟨rfl, rfl, rfl⟩
  | rdFrameCount => obtain rfl | rfl := he <;> exact .inl ⟨rfl, rfl, rfl⟩
  | rdRenderActive => obtain rfl | rfl := he <;> exact .inl ⟨rfl, rfl, rfl⟩
  | fbWrite offset byte => obtain ⟨-, rfl⟩ | rfl := he <;> exact .inl ⟨rfl, rfl, rfl⟩
  | genTest x idx =>
    obtain ⟨-, rfl⟩ | ⟨-, hgen⟩ := he
    · exact .inl ⟨rfl, rfl, rfl⟩
    · exact .inl (generate_onlyGenerated hgen).sameEngine.sameStreams
  | genPreeq x idx => obtain rfl := he; exact .inl (onlyGenerated_linePreeq x s).sameEngine.sameStreams
  | genVsync x idx => obtain rfl := he; exact .inl (onlyGenerated_lineVsync x s).sameEngine.sameStreams
  | genActive x idx => exact .inl (onlyGenerated_lineActive he).sameEngine.sameStreams
  | genBottom x idx => obtain rfl := he; exact .inl (onlyGenerated_lineBottom x idx s).sameEngine.sameStreams
  | genNowrite x idx => obtain rfl := he; exact .inl (onlyGenerated_lineNowrite s).sameEngine.sameStreams

section Access

variable {s t : State} {m m' : Nat} {x x' y : Chan} {acc : Access}

/-- What an access of a run after START does to the streams (R47, R116, R136). -/
theorem step_streams (hs : Running s m x) (h : step (s.withAccess acc) = .next t) :
    SameStreams s t ∨
      (decode acc = .ok .pwmWrap ∧ t.dmaHist = s.dmaHist ∧ t.outHist.length = s.outHist.length + 1 ∧
        t.dreq = s.dreq + 1) ∨
      ∃ y, decode acc = .ok (.dmaXfer y) ∧ t.dmaHist.length = s.dmaHist.length + 1 ∧ t.outHist = s.outHist ∧
        s.dreq = t.dreq + 1 := by
  obtain ⟨-, rfl⟩ | ⟨i, hd, -, hx⟩ := step_withAccess_next hs h
  · exact .inl ⟨rfl, rfl, rfl⟩
  · have hi : i ≠ .start := by
      rintro rfl
      exact absurd (execStart_cfg_started hx).1 (by simp [hs.isStarted])
    obtain ⟨hhist, hout, hdreq⟩ | ⟨rfl, hwrap⟩ | ⟨y, rfl, hsend⟩ := exec_streams hx hi
    · exact .inl ⟨hhist, hout, hdreq⟩
    · exact .inr (.inl ⟨hd, hwrap⟩)
    · exact .inr (.inr ⟨y, hd, hsend⟩)

/-- The periods put out are the transfers made and the requests outstanding (R119). -/
def RequestsCounted (s : State) : Prop := s.outHist.length = s.dmaHist.length + s.dreq

theorem step_requestsCounted (hs : Running s m x) (h : step (s.withAccess acc) = .next t) (hc : RequestsCounted s) :
    RequestsCounted t := by
  unfold RequestsCounted at hc ⊢
  obtain ⟨hhist, hout, hdreq⟩ | ⟨-, hhist, hout, hdreq⟩ | ⟨y, -, hhist, hout, hdreq⟩ := step_streams hs h
  · rw [hhist, hout, hdreq, hc]
  · rw [hhist]
    omega
  · rw [hout]
    omega

end Access

theorem run_requestsCounted {s u : State} {m : Nat} {x : Chan} {accs : List Access} (hs : Running s m x)
    (h : Run s accs u) (hc : RequestsCounted s) : RequestsCounted u := by
  induction h generalizing m x with
  | done s => exact hc
  | more hstep _ ih =>
    obtain ⟨m₁, x₁, h₁⟩ := running_step hs hstep
    exact ih h₁.running (step_requestsCounted hs hstep hc)

/-- START leaves both histories empty and no request (R144, R169). -/
theorem start_requestsCounted {s t : State} (hs : BeforeStart s) (h : exec .start s = .next t) : RequestsCounted t := by
  obtain ⟨-, -, -, -, htrigger⟩ := exec_effect h
  obtain ⟨-, -, rfl⟩ := trigger_ok.mp htrigger
  simp [RequestsCounted, hs.noDmaHist, hs.noOutHist]

/-- Settles O56: START leaves the count at 0, and each wrap and each transfer keeps it. -/
theorem requestsAreCounted : Obligations.RequestsAreCounted := by
  unfold Obligations.RequestsAreCounted
  intro s t u accs hs hstart hrun
  exact run_requestsCounted (start_running hs hstart) hrun (start_requestsCounted hs hstart)

/-! ### The turns of the channels (R118, R122, R131) -/

theorem chanOf_succ (n : Nat) : chanOf (n + 1) = (chanOf n).peer := by
  unfold chanOf
  obtain heven | hodd := Nat.mod_two_eq_zero_or_one n
  · rw [if_pos heven, if_neg (by omega), Chan.peer_a]
  · rw [if_pos (by omega), if_neg (by omega), Chan.peer_b]

/-- The channels of a list take turns, starting with that of run `n` (R122). -/
def TakeTurns (n : Nat) (xs : List Chan) : Prop := ∀ k y, xs[k]? = some y → y = chanOf (n + k)

theorem takeTurns_nil (n : Nat) : TakeTurns n [] := by simp [TakeTurns]

theorem takeTurns_singleton (n : Nat) : TakeTurns n [chanOf n] := by
  intro k y hy
  obtain ⟨rfl, rfl⟩ : k = 0 ∧ chanOf n = y := by simpa [List.getElem?_singleton] using hy
  rfl

theorem TakeTurns.append {n : Nat} {xs ys : List Chan} (hx : TakeTurns n xs) (hy : TakeTurns (n + xs.length) ys) :
    TakeTurns n (xs ++ ys) := by
  intro k y h
  by_cases hk : k < xs.length
  · rw [List.getElem?_append_left hk] at h
    exact hx k y h
  · rw [List.getElem?_append_right (by omega)] at h
    rw [hy _ y h]
    congr 1
    omega

theorem completions_append (a b : List Mark) : completions (a ++ b) = completions a ++ completions b := by
  induction a with
  | nil => rfl
  | cons mk a ih => cases mk <;> simp [completions, ih]

theorem Running.run_unique {s : State} {m m' : Nat} {x x' : Chan} (h : Running s m x) (h' : Running s m' x') :
    m' = m :=
  h'.sentCount.1.symm.trans h.sentCount.1

/-- Before the first run is over no line but the first two has been made (R170). -/
theorem Running.lineNext_first {s : State} {x : Chan} (h : Running s 0 x) : lineNext s 0 x = 2 := by
  obtain ⟨hfree, -⟩ | ⟨hpos, -⟩ := h.peer
  · exact lineNext_of_not_pend hfree
  · exact absurd hpos (Nat.lt_irrefl 0)

section Marks

variable {s t : State} {m m' : Nat} {x x' y : Chan} {acc : Access}

theorem completions_markOf_xfer (hd : decode acc = .ok (.dmaXfer y)) :
    completions (markOf acc s).toList = if (s.dma.get y).count = 1 then [y] else [] := by
  simp only [markOf, hd]
  split_ifs <;> rfl

theorem completions_markOf_of_not_xfer (hd : ∀ y, decode acc ≠ .ok (.dmaXfer y)) :
    completions (markOf acc s).toList = [] := by
  unfold markOf
  split
  · next y hy => exact absurd hy (hd y)
  · cases s.handler.todo <;> rfl
  · rfl

/-- A transfer of the running engine is the busy channel's, and the last one of a run is followed by the next run
(R116, R118). -/
theorem xfer_step (hs : Running s m x) (hd : decode acc = .ok (.dmaXfer y))
    (h : step (s.withAccess acc) = .next t) :
    y = x ∧ (((s.dma.get x).count ≠ 1 ∧ Running t m x) ∨ ((s.dma.get x).count = 1 ∧ Running t (m + 1) x.peer)) := by
  rw [step_withAccess hs.noFault, present_of_schedulable hd rfl] at h
  have ha : Running (s.advance s.inbox) m x := running_advance s.inbox hs
  obtain ⟨-, hen, hx⟩ := exec_effect h
  obtain rfl := running_xfer_chan ha hen
  refine ⟨rfl, ?_⟩
  obtain ⟨hcount, -, hrun⟩ | ⟨hcount, -, -, hrun⟩ := running_xfer ha hx
  · exact .inl ⟨hcount, hrun⟩
  · exact .inr ⟨hcount, hrun⟩

/-- An access completes the busy channel's run exactly if the next run follows (R117, R122). -/
theorem step_completions (hs : Running s m x) (h : step (s.withAccess acc) = .next t) (ht : Running t m' x') :
    (m' = m ∧ completions (markOf acc s).toList = []) ∨ (m' = m + 1 ∧ completions (markOf acc s).toList = [x]) := by
  by_cases hd : ∃ y, decode acc = .ok (.dmaXfer y)
  · obtain ⟨y, hd⟩ := hd
    rw [completions_markOf_xfer hd]
    obtain ⟨rfl, ⟨hcount, hrun⟩ | ⟨hcount, hrun⟩⟩ := xfer_step hs hd h
    · exact .inl ⟨hrun.run_unique ht, if_neg hcount⟩
    · exact .inr ⟨hrun.run_unique ht, if_pos hcount⟩
  · rw [not_exists] at hd
    have hhist : t.dmaHist = s.dmaHist := by
      obtain ⟨hhist, -, -⟩ | ⟨-, hhist, -⟩ | ⟨y, hy, -⟩ := step_streams hs h
      · exact hhist
      · exact hhist
      · exact absurd hy (hd y)
    refine .inl ⟨?_, completions_markOf_of_not_xfer hd⟩
    rw [← ht.sentCount.1, hhist, hs.sentCount.1]

theorem step_completions_turns (hs : Running s m x) (h : step (s.withAccess acc) = .next t) (ht : Running t m' x') :
    m' = m + (completions (markOf acc s).toList).length ∧ TakeTurns m (completions (markOf acc s).toList) := by
  obtain ⟨rfl, hnone⟩ | ⟨rfl, hone⟩ := step_completions hs h ht
  · rw [hnone]
    exact ⟨rfl, takeTurns_nil _⟩
  · rw [hone, hs.turn]
    exact ⟨rfl, takeTurns_singleton m⟩

/-- A service is of the channel that sends the line it makes (R122, R131). -/
theorem step_services_turns (hs : Running s m x) (h : step (s.withAccess acc) = .next t) :
    TakeTurns (lineNext s m x) (services (markOf acc s).toList) := by
  by_cases hd : decode acc = .ok .irqService
  · obtain ⟨-, -, htodo, hpend, -⟩ := service_step hs hd h
    have hmark : services (markOf acc s).toList = [x.peer] := by simp [markOf, hd, htodo, services]
    rw [hmark, lineNext_of_pend hpend, hs.turn, ← chanOf_succ]
    exact takeTurns_singleton (m + 1)
  · have hnone : services (markOf acc s).toList = [] :=
      List.length_eq_zero_iff.mp ((services_markOf h).trans (if_neg hd))
    rw [hnone]
    exact takeTurns_nil _

end Marks

/-- In a run of the engine the completed runs are those from run `m` on, and the services those from the next line on,
each by its channel in turn (R118, R122, R131). -/
theorem running_run_turns {s u : State} {m : Nat} {x : Chan} {accs : List Access} (hs : Running s m x)
    (h : Run s accs u) :
    ∃ m' x', Running u m' x' ∧ m' = m + (completions (marks s accs)).length ∧
      TakeTurns m (completions (marks s accs)) ∧ TakeTurns (lineNext s m x) (services (marks s accs)) := by
  induction h generalizing m x with
  | done s => exact ⟨m, x, hs, rfl, takeTurns_nil m, takeTurns_nil _⟩
  | @more s s' u acc rest hstep hrest ih =>
    obtain ⟨m₁, x₁, h₁⟩ := running_step hs hstep
    obtain ⟨m', x', hrun, hcount, hcompleted, hserved⟩ := ih h₁.running
    obtain ⟨hfirst, hturn⟩ := step_completions_turns hs hstep h₁.running
    have hmarks : marks s (acc :: rest) = (markOf acc s).toList ++ marks s' rest := by rw [marks, hstep]
    rw [hmarks, completions_append, services_append]
    refine ⟨m', x', hrun, ?_, hturn.append ?_, (step_services_turns hs hstep).append ?_⟩
    · rw [List.length_append, hcount, hfirst, Nat.add_assoc]
    · rw [← hfirst]
      exact hcompleted
    · rw [services_markOf hstep, ← h₁.lines]
      exact hserved

/-- Settles O55: the runs from run 0 on and the lines from line 2 on take turns; the number of the run under way is that
of the runs completed. -/
theorem runsAndServicesAlternate : Obligations.RunsAndServicesAlternate := by
  unfold Obligations.RunsAndServicesAlternate
  intro s t u accs hs hstart hrun
  have ht : Running t 0 .a := start_running hs hstart
  obtain ⟨m, x, hu, hcount, hcompleted, hserved⟩ := running_run_turns ht hrun
  obtain ⟨m', x', hu', hnext⟩ := running_run ht hrun
  rw [ht.lineNext_first] at hserved hnext
  refine ⟨fun k y hy => ?_, fun k y hy => ?_, ?_, ?_⟩
  · rw [hcompleted k y hy, Nat.zero_add]
    rfl
  · rw [hserved k y hy, chanOf, Nat.add_mod_left]
  · rw [hu.sentCount.1, hcount, Nat.zero_add]
  · rw [hu'.scanIdx_eq, hnext, Nat.add_comm]
    rfl

end Sys2Proof.Machine

/-!
The interrupt handler (R125 to R132): its entry, its service and its return as equations, a completion during it, and
who writes the scanline index and the cursor.
-/
namespace Sys2Proof.Machine

/-! ### The entry and the return (R125, R128) -/

theorem exec_irqEntry_next_iff {s t : State} :
    exec .irqEntry s = .next t ↔ s.fault = none ∧ irqEntryEnabled s = true ∧ t = enterHandler s := by
  rw [exec, execIrqEntry, whenEnabled_next, Host.Outcome.next.injEq, eq_comm (a := enterHandler s)]

theorem exec_irqReturn_next_iff {s t : State} :
    exec .irqReturn s = .next t ↔
      s.fault = none ∧ s.handler.active = true ∧ s.handler.todo = [] ∧ t = leaveHandler s := by
  rw [exec, execIrqReturn, whenEnabled_next, Host.Outcome.next.injEq, eq_comm (a := leaveHandler s)]
  simp [irqReturnEnabled, and_assoc]

/-- Clearing a bit that was read as 1 through its enable, and leaving it alone otherwise (R125). -/
theorem and_not_and_eq_ite (bit enable : Bool) :
    (bit && !(bit && enable)) = if (bit && enable) = true then false else bit := by
  cases bit <;> cases enable <;> rfl

/-- SERVICE_LIST of a status with a bit up (R126). -/
theorem serviceList_eq {policy : BothBitsPolicy} {sA sB : Bool} (h : (sA || sB) = true) :
    serviceList policy sA sB =
      if sA = true ∧ sB = true then serviceList policy true true else if sA = true then [.a] else [.b] := by
  cases sA <;> cases sB
  · cases h
  all_goals rfl

/-- Settles O26: an enabled entry answers `enterHandler`, whose two new fields are these. -/
theorem irqEntryReadsAndClears : Obligations.IrqEntryReadsAndClears := by
  unfold Obligations.IrqEntryReadsAndClears
  refine ⟨by decide, fun s => ?_, ?_⟩
  · simp only [exec_irqEntry_next_iff, exists_and_left, exists_eq, and_true, irqEntryEnabled, Bool.and_eq_true,
      Bool.not_eq_true', and_assoc]
    exact and_left_comm
  · rintro s hfault hstarted hidle sA sB rfl rfl hline
    have hup : s.irqLine = true := hline
    have hen : irqEntryEnabled s = true := by simp [irqEntryEnabled, hstarted, hidle, hup]
    rw [exec_irqEntry_next_iff.mpr ⟨hfault, hen, rfl⟩, enterHandler]
    simp only [State.ints, Pair.get, and_not_and_eq_ite, serviceList_eq hline]
    rfl

/-- Settles O28: the return's answer is `leaveHandler`, and the service list is empty already. -/
theorem irqReturnEndsHandler : Obligations.IrqReturnEndsHandler := by
  unfold Obligations.IrqReturnEndsHandler
  refine ⟨by decide, fun s => ⟨?_, fun t h => ?_⟩⟩
  · simp only [exec_irqReturn_next_iff, exists_and_left, exists_eq, and_true]
  · obtain ⟨-, -, htodo, rfl⟩ := exec_irqReturn_next_iff.mp h
    simp only [leaveHandler, htodo]

/-! ### The service (R127) -/

section Service

variable {s : State} {x : Chan} {rest : List Chan} {idx : LineIdx}

/-- An active line does not read or write the handler's state (R90, R93). -/
theorem lineActive_handler (handler : Handler) :
    lineActive x idx { s with handler := handler } =
      (lineActive x idx s).map fun t => { t with handler := handler } := by
  have hcursor : lineCursor idx { s with handler := handler } = lineCursor idx s := rfl
  unfold lineActive
  rw [hcursor]
  cases lineCursor idx s with
  | none => rfl
  | some cur =>
    by_cases hrow : fbBytes < cur.toNat + fbWidth
    · simp only [hrow, if_true]
      rfl
    · simp only [hrow, if_false]
      cases pixelWords s.cfg s.mem cur.toNat 0 fbWidth <;> rfl

/-- The generator does not read or write the handler's state (R87, R93). -/
theorem generate_handler (handler : Handler) :
    generate x idx { s with handler := handler } = (generate x idx s).map fun t => { t with handler := handler } := by
  unfold generate
  cases classify idx with
  | active => exact lineActive_handler handler
  | preeq | vsync | bottom | nowrite => rfl

/-- Where the generator does not complete, it answers a fault of an active line (R153). -/
theorem exists_generate_error (h : ¬lineReady s idx) :
    ∃ f ∈ [Fault.palUnwritten, .cursor, .fbRange], generate x idx s = .error f := by
  cases hgen : generate x idx s with
  | ok t => exact absurd (generate_completes_iff.mp ⟨t, hgen⟩) h
  | error f =>
    obtain ⟨rfl, -⟩ | ⟨_, -, ⟨rfl, -⟩ | ⟨rfl, -⟩⟩ := lineActive_error (generate_error hgen).1 <;>
      exact ⟨_, by decide, rfl⟩

/-- The service of channel `x` is the generation of the current line and the hand-back of the buffer (R127). -/
theorem exec_irqService (hfault : s.fault = none) (hactive : s.handler.active = true)
    (htodo : s.handler.todo = x :: rest) (hidx : s.scanIdx = some idx) :
    exec .irqService s =
      finish ((generate x idx { s with handler := ⟨true, rest⟩ }).map (handBack x idx)) := by
  have hline : s.lineToMake = idx := by rw [State.lineToMake, hidx]
  rw [exec, execIrqService, whenEnabled_run hfault (by simp [irqServiceEnabled, hactive, htodo]), htodo]
  simp only [service, hline, hactive]
  rfl

/-- The hand-back after a generation, which changes neither the channels nor the ownership marks (R127). -/
theorem handBack_generate {g : State} (h : generate x idx s = .ok g) :
    handBack x idx g = { g with
      dma := s.dma.set x { s.dma.get x with readAddr := some (s.cfg.bufBase x) }
      scanIdx := some (BitVec.ofNat 9 ((idx.toNat + 1) % 262))
      pend := s.pend.set x false } := by
  rw [(generate_onlyGenerated h).rest]
  rfl

end Service

/-- Settles O27: the service is the generation and the hand-back, and faults where the generation does. -/
theorem irqServiceRefillsChannel : Obligations.IrqServiceRefillsChannel := by
  unfold Obligations.IrqServiceRefillsChannel
  intro s x rest idx hfault hactive htodo hidx
  rw [exec_irqService hfault hactive htodo hidx]
  constructor
  · intro hready
    obtain ⟨g, hgen⟩ := (generate_completes_iff (x := x) (s := { s with handler := ⟨true, rest⟩ })).mpr hready
    refine ⟨g, hgen, ?_⟩
    rw [hgen, Except.map, handBack_generate hgen, finish]
  · intro hnot
    obtain ⟨f, hmem, hgen⟩ := exists_generate_error (x := x) hnot
    refine ⟨f, hmem, hgen, ?_⟩
    rw [generate_handler, hgen]
    rfl

/-! ### A completion during the handler (R129) -/

theorem completeRun_ok {x : Chan} {s t : State} (h : completeRun x s = .ok t) : ∃ r, t = s.handedOver x r := by
  rw [completeRun_eq] at h
  obtain ⟨-, -, rfl⟩ := trigger_ok.mp h
  exact ⟨_, by simp only [State.handedOver, runOver, Pair.get_set_peer]; rfl⟩

/-- The transfer that ends a run moves its sample and hands over to the peer (R116, R117). -/
theorem transfer_last_ok {x : Chan} {s t : State} (hlast : (s.dma.get x).count = 1) (h : transfer x s = .ok t) :
    ∃ addr v r, t = (s.moveSample x addr v).handedOver x r := by
  obtain ⟨addr, v, haddr, hin, hv, -⟩ := transfer_ok h
  rw [transfer_written haddr hin hv, if_pos hlast] at h
  obtain ⟨r, rfl⟩ := completeRun_ok h
  exact ⟨addr, v, r, rfl⟩

/-- The transfer that ends a run sets its channel's completion bit and leaves the handler and its conditions alone
(R116, R117). -/
theorem transfer_last_frame {x : Chan} {s t : State} (hlast : (s.dma.get x).count = 1) (h : transfer x s = .ok t) :
    t.intr.get x = true ∧ t.inte = s.inte ∧ t.handler = s.handler ∧ t.started = s.started ∧ t.fault = s.fault := by
  obtain ⟨addr, v, r, rfl⟩ := transfer_last_ok hlast h
  exact ⟨Pair.get_set _ _ _, rfl, rfl, rfl, rfl⟩

/-- A completion bit that is up and enabled raises the line (R34). -/
theorem irqLine_of_intr {s : State} {x : Chan} (hbit : s.intr.get x = true) (henabled : s.inte = ⟨true, true⟩) :
    s.irqLine = true := by
  have hints : s.ints x = true := by
    rw [State.ints, hbit, henabled]
    cases x <;> rfl
  cases x <;> simp [State.irqLine, hints]

/-- Settles O29: the completion raises the line under the active handler, and the return changes only `active`. -/
theorem completionDuringHandlerIsKept : Obligations.CompletionDuringHandlerIsKept := by
  unfold Obligations.CompletionDuringHandlerIsKept
  intro x s t hactive henables hlast h
  obtain ⟨hfault, hen, htransfer⟩ := exec_effect h
  obtain ⟨hstarted, -⟩ := dmaXferEnabled_iff.mp hen
  obtain ⟨hbit, hinte, hhandler, hstarted', hfault'⟩ := transfer_last_frame hlast htransfer
  rw [hstarted] at hstarted'
  rw [hfault] at hfault'
  rw [henables] at hinte
  have hline : t.irqLine = true := irqLine_of_intr hbit hinte
  refine ⟨hbit, hline, ?_, fun u hreturn => ?_⟩
  · rw [exec_notEnabled_iff hfault']
    simp [enabled, irqEntryEnabled, hhandler, hactive]
  · obtain ⟨-, -, -, rfl⟩ := exec_irqReturn_next_iff.mp hreturn
    have hkept : (leaveHandler t).irqLine = true := hline
    exact ⟨hbit, _, exec_irqEntry_next_iff.mpr ⟨hfault', by simp [irqEntryEnabled, hstarted', hkept], rfl⟩⟩

/-! ### The writers of the scanline index and the cursor (R18, R19, R132) -/

/-- The scanline index (R18) and the cursor (R19) are the same in both states. -/
structure KeepsPosition (s t : State) : Prop where
  scanIdx : t.scanIdx = s.scanIdx
  cursor : t.cursor = s.cursor

theorem KeepsPosition.trans {s t u : State} (h : KeepsPosition s t) (k : KeepsPosition t u) : KeepsPosition s u :=
  ⟨k.scanIdx.trans h.scanIdx, k.cursor.trans h.cursor⟩

theorem OnlyGenerated.scanIdx_eq {s t : State} (h : OnlyGenerated s t) : t.scanIdx = s.scanIdx := by
  rw [h.rest]

theorem trigger_keepsPosition {y : Chan} {s t : State} (h : trigger y s = .ok t) : KeepsPosition s t := by
  obtain ⟨-, -, rfl⟩ := trigger_ok.mp h
  exact ⟨rfl, rfl⟩

theorem completeRun_keepsPosition {x : Chan} {s t : State} (h : completeRun x s = .ok t) : KeepsPosition s t := by
  obtain ⟨r, rfl⟩ := completeRun_ok h
  exact ⟨rfl, rfl⟩

theorem transfer_keepsPosition {x : Chan} {s t : State} (h : transfer x s = .ok t) : KeepsPosition s t := by
  obtain ⟨addr, v, -, -, -, hend⟩ := transfer_ok h
  have hmove : KeepsPosition s (s.moveSample x addr v) := ⟨rfl, rfl⟩
  obtain ⟨-, rfl⟩ | ⟨-, hcomplete⟩ := hend
  · exact hmove
  · exact hmove.trans (completeRun_keepsPosition hcomplete)

/-- What an operation does to the position: START sets the index, a service may set both, a test call and an active line
the cursor, and any other operation sets neither (R90, R127, R144). -/
theorem exec_position {i : Instr} {s t : State} (h : exec i s = .next t) :
    KeepsPosition s t ∨ i = .irqService ∨ (i = .start ∧ t.cursor = s.cursor) ∨
      (((∃ x idx, i = .genTest x idx) ∨ ∃ x idx, i = .genActive x idx) ∧ t.scanIdx = s.scanIdx) := by
  have he := (exec_effect h).2
  cases i with
  | irqService => exact .inr (.inl rfl)
  | start =>
    obtain ⟨-, -, -, htrigger⟩ := he
    exact .inr (.inr (.inl ⟨rfl, (trigger_keepsPosition htrigger).cursor.trans (startBuilt_cursor s)⟩))
  | genTest x idx =>
    obtain ⟨-, rfl⟩ | ⟨-, hgen⟩ := he
    · exact .inl ⟨rfl, rfl⟩
    · exact .inr (.inr (.inr ⟨.inl ⟨x, idx, rfl⟩, (generate_onlyGenerated hgen).scanIdx_eq⟩))
  | genActive x idx => exact .inr (.inr (.inr ⟨.inr ⟨x, idx, rfl⟩, (onlyGenerated_lineActive he).scanIdx_eq⟩))
  | dmaXfer x => exact .inl (transfer_keepsPosition he.2)
  | dmaComplete x => exact .inl (completeRun_keepsPosition he)
  | palWrite index blue red green => obtain ⟨-, rfl⟩ := he; exact .inl ⟨rfl, rfl⟩
  | rdFrameCount => obtain rfl | rfl := he <;> exact .inl ⟨rfl, rfl⟩
  | rdRenderActive => obtain rfl | rfl := he <;> exact .inl ⟨rfl, rfl⟩
  | pwmWrap => obtain ⟨-, rfl⟩ := he; exact .inl ⟨rfl, rfl⟩
  | irqEntry => obtain ⟨-, rfl⟩ := he; exact .inl ⟨rfl, rfl⟩
  | irqReturn => obtain ⟨-, -, rfl⟩ := he; exact .inl ⟨rfl, rfl⟩
  | fbWrite offset byte => obtain ⟨-, rfl⟩ | rfl := he <;> exact .inl ⟨rfl, rfl⟩
  | genPreeq | genVsync | genBottom | genNowrite => obtain rfl := he; exact .inl ⟨rfl, rfl⟩

/-- Settles O47: the four things an operation can do to the position. -/
theorem scanIndexAndCursorAreHandlerPrivate : Obligations.ScanIndexAndCursorAreHandlerPrivate := by
  unfold Obligations.ScanIndexAndCursorAreHandlerPrivate
  intro i s t h
  obtain ⟨hscan, hcursor⟩ | rfl | ⟨rfl, hcursor⟩ | ⟨hline, hscan⟩ := exec_position h
  · exact ⟨fun hne => absurd hscan hne, fun hne => absurd hcursor hne⟩
  · exact ⟨fun _ => .inr rfl, fun _ => .inl rfl⟩
  · exact ⟨fun _ => .inl rfl, fun hne => absurd hcursor hne⟩
  · exact ⟨fun hne => absurd hscan hne, fun _ => .inr hline⟩

end Sys2Proof.Machine

/-!
The PWM sample clock (R136, R141): a wrap as an equation, who writes the slice after START, and the lag of the output
under DMA_PACE.
-/
namespace Sys2Proof.Machine

/-! ### A wrap (R136) -/

/-- `s` after a wrap: the compare value last written is latched for the new period and put out, and one more request is
counted (R136). -/
def State.wrapped (s : State) : State :=
  { s with
    pwm := { s.pwm with cmpB := s.pwm.ccB }
    outHist := s.outHist ++ [s.pwm.ccB]
    dreq := s.dreq + 1 }

theorem exec_pwmWrap_next_iff {s t : State} :
    exec .pwmWrap s = .next t ↔ s.fault = none ∧ s.started = true ∧ s.pwm.en = true ∧ t = s.wrapped := by
  rw [exec, execPwmWrap, whenEnabled_next, Host.Outcome.next.injEq, eq_comm (b := t), pwmWrapEnabled, Bool.and_eq_true,
    and_assoc]
  rfl

/-- Settles O21: the answer of an enabled wrap is `wrapped`. -/
theorem pwmWrapLatchesCompare : Obligations.PwmWrapLatchesCompare := by
  unfold Obligations.PwmWrapLatchesCompare
  refine ⟨by decide, fun s => ⟨?_, fun t h => ?_⟩⟩
  · simp only [exec_pwmWrap_next_iff, exists_and_left, exists_eq, and_true]
  · obtain ⟨-, -, -, rfl⟩ := exec_pwmWrap_next_iff.mp h
    rfl

/-! ### Who writes the slice after START (R120, R136) -/

theorem SameEngine.pwm_eq {s t : State} (h : SameEngine s t) : t.pwm = s.pwm := by rw [h.rest]

theorem completeRun_pwm {x : Chan} {s t : State} (h : completeRun x s = .ok t) : t.pwm = s.pwm := by
  rw [completeRun_eq] at h
  obtain ⟨-, -, rfl⟩ := trigger_ok.mp h
  rfl

theorem service_pwm {x : Chan} {rest : List Chan} {s t : State} (h : service x rest s = .ok t) : t.pwm = s.pwm := by
  obtain ⟨made, hgen, hback⟩ := bind_ok.mp h
  cases hback
  exact (generate_onlyGenerated hgen).sameEngine.pwm_eq

/-- The sample that a transfer appends to the record is the one it leaves in the compare register (R116, R120). -/
theorem transfer_sample {x : Chan} {s t : State} (h : transfer x s = .ok t) :
    t.dmaHist = s.dmaHist ++ [t.pwm.ccB] := by
  obtain ⟨addr, v, -, -, -, ⟨-, rfl⟩ | ⟨-, hcomplete⟩⟩ := transfer_ok h
  · rfl
  · rw [(completeRun_sameStreams hcomplete).dmaHist, completeRun_pwm hcomplete, moveSample_dmaHist, moveSample_pwm]

/-- No operation but START, a wrap and a transfer writes the slice (R39, R120, R136). -/
theorem exec_pwm {i : Instr} {s t : State} (h : exec i s = .next t) (hstart : i ≠ .start) (hwrap : i ≠ .pwmWrap)
    (hxfer : ∀ x, i ≠ .dmaXfer x) : t.pwm = s.pwm := by
  have he := (exec_effect h).2
  cases i with
  | start => exact absurd rfl hstart
  | pwmWrap => exact absurd rfl hwrap
  | dmaXfer x => exact absurd rfl (hxfer x)
  | dmaComplete x => exact completeRun_pwm he
  | irqEntry => obtain ⟨-, rfl⟩ := he; rfl
  | irqService => obtain ⟨-, x, rest, -, hservice⟩ := he; exact service_pwm hservice
  | irqReturn => obtain ⟨-, -, rfl⟩ := he; rfl
  | palWrite index blue red green => obtain ⟨-, rfl⟩ := he; rfl
  | rdFrameCount | rdRenderActive => obtain rfl | rfl := he <;> rfl
  | fbWrite offset byte => obtain ⟨-, rfl⟩ | rfl := he <;> rfl
  | genTest x idx =>
    obtain ⟨-, rfl⟩ | ⟨-, hgen⟩ := he
    · rfl
    · exact (generate_onlyGenerated hgen).sameEngine.pwm_eq
  | genActive x idx => exact (onlyGenerated_lineActive he).sameEngine.pwm_eq
  | genPreeq | genVsync | genBottom | genNowrite => obtain rfl := he; rfl

/-! ### The lag of the output under DMA_PACE (R141, R177) -/

/-- The output is 0 and then the DMA's record. While a request is outstanding all of it has been put out; otherwise its
last value is still in the compare register, for the next wrap to latch (R137, R141). -/
def OutputLags (s : State) : Prop :=
  (s.dreq = 0 ∧ 0 :: s.dmaHist = s.outHist ++ [s.pwm.ccB]) ∨ (s.dreq = 1 ∧ 0 :: s.dmaHist = s.outHist)

theorem OutputLags.outHist_eq {s : State} (h : OutputLags s) (hpos : 0 < s.outHist.length) :
    s.outHist = 0 :: s.dmaHist.take (s.outHist.length - 1) := by
  have hprefix : s.outHist <+: 0 :: s.dmaHist := by
    obtain ⟨-, hlast⟩ | ⟨-, hall⟩ := h
    · exact ⟨_, hlast.symm⟩
    · rw [hall]
  calc s.outHist = (0 :: s.dmaHist).take s.outHist.length := List.prefix_iff_eq_take.mp hprefix
    _ = 0 :: s.dmaHist.take (s.outHist.length - 1) := List.take_cons hpos

/-- A paced wrap puts out the value that waits in the compare register (R136, R177). -/
theorem OutputLags.after_wrap {s : State} (h : OutputLags s) (hpace : s.dreq = 0) : OutputLags s.wrapped := by
  obtain ⟨-, hlast⟩ | ⟨hone, -⟩ := h
  · exact .inr ⟨congrArg (· + 1) hpace, hlast⟩
  · omega

/-- A transfer answers the one request outstanding, and its sample waits in the compare register (R116, R120). -/
theorem OutputLags.after_transfer {x : Chan} {s t : State} (h : OutputLags s) (hreq : 0 < s.dreq)
    (hx : transfer x s = .ok t) : OutputLags t := by
  obtain ⟨hnone, -⟩ | ⟨hone, hall⟩ := h
  · omega
  · obtain ⟨-, -, -, hdreq, hout, -⟩ := transfer_frame hx
    exact .inl ⟨by omega, by rw [transfer_sample hx, hout, ← hall, List.cons_append]⟩

theorem exec_outputLags {i : Instr} {s t : State} (h : exec i s = .next t) (hstart : i ≠ .start)
    (hpace : i = .pwmWrap → s.dreq = 0) (hs : OutputLags s) : OutputLags t := by
  by_cases hwrap : i = .pwmWrap
  · subst hwrap
    obtain ⟨-, -, -, rfl⟩ := exec_pwmWrap_next_iff.mp h
    exact hs.after_wrap (hpace rfl)
  by_cases hxfer : ∃ x, i = .dmaXfer x
  · obtain ⟨x, rfl⟩ := hxfer
    obtain ⟨-, hen, hx⟩ := exec_effect h
    obtain ⟨-, -, -, hreq⟩ := dmaXferEnabled_iff.mp hen
    exact hs.after_transfer hreq hx
  · rw [not_exists] at hxfer
    obtain ⟨hhist, hout, hdreq⟩ | ⟨hi, -⟩ | ⟨x, hi, -⟩ := exec_streams h hstart
    · unfold OutputLags
      rwa [hhist, hout, hdreq, exec_pwm h hstart hwrap hxfer]
    · exact absurd hi hwrap
    · exact absurd hi (hxfer x)

theorem step_outputLags {s t : State} {m : Nat} {x : Chan} {acc : Access} (hs : Running s m x)
    (h : step (s.withAccess acc) = .next t) (hpace : decode acc = .ok .pwmWrap → s.dreq = 0) (hl : OutputLags s) :
    OutputLags t := by
  obtain ⟨-, rfl⟩ | ⟨i, hd, -, hx⟩ := step_withAccess_next hs h
  · exact hl
  · have hstart : i ≠ .start := by
      rintro rfl
      exact absurd (execStart_cfg_started hx).1 (by simp [hs.isStarted])
    exact exec_outputLags hx hstart (fun hi => hpace (hi ▸ hd)) hl

theorem run_outputLags {s u : State} {m : Nat} {x : Chan} {accs : List Access} (hs : Running s m x)
    (h : Run s accs u) (hpace : dmaPace s accs) (hl : OutputLags s) : OutputLags u := by
  induction h generalizing m x with
  | done s => exact hl
  | more hstep _ ih =>
    obtain ⟨hfirst, hrest⟩ := hpace
    obtain ⟨m₁, x₁, h₁⟩ := running_step hs hstep
    exact ih h₁.running (hrest _ hstep) (step_outputLags hs hstep hfirst hl)

/-- START leaves both histories empty, no request and 0 in the compare register (R144, R169). -/
theorem start_outputLags {s t : State} (hs : BeforeStart s) (h : exec .start s = .next t) : OutputLags t := by
  obtain ⟨-, -, -, -, htrigger⟩ := exec_effect h
  obtain ⟨-, -, rfl⟩ := trigger_ok.mp htrigger
  exact .inl ⟨startBuilt_dreq s, by simp [hs.noDmaHist, hs.noOutHist]⟩

/-- Settles O59: START leaves the 0 in the compare register, each paced wrap puts out the value that waits there, and
each transfer puts the next one there. -/
theorem outputLagsByOnePeriod : Obligations.OutputLagsByOnePeriod := by
  unfold Obligations.OutputLagsByOnePeriod
  intro s t u accs hs hstart hrun hpace hpos
  exact (run_outputLags (start_running hs hstart) hrun hpace (start_outputLags hs hstart)).outHist_eq hpos

end Sys2Proof.Machine

/-!
The host's operations and the producer's (R144 to R149, R151, R155): the two diagnostic reads, START's faults and the
engine it leaves, what a host access can do after START, and one framebuffer write.
-/
namespace Sys2Proof.Machine

/-! ### The diagnostic reads (R145, R146) -/

/-- A flag read as a word (R146). -/
theorem setWidth_ofBool (flag : Bool) : (BitVec.ofBool flag).setWidth 32 = if flag = true then 1 else 0 := by
  cases flag <;> rfl

section Reads

variable {s : State} (hfault : s.fault = none)
include hfault

theorem exec_rdFrameCount_diag (hdiag : s.cfg.diag = true) :
    exec .rdFrameCount s = .next { s with hostReads := s.hostReads ++ [s.frameCount] } :=
  (whenEnabled_run hfault rfl).trans (if_pos hdiag)

theorem exec_rdRenderActive_diag (hdiag : s.cfg.diag = true) :
    exec .rdRenderActive s =
      .next { s with hostReads := s.hostReads ++ [if s.renderActive = true then 1 else 0] } := by
  rw [← setWidth_ofBool]
  exact (whenEnabled_run hfault rfl).trans (if_pos hdiag)

end Reads

/-- Settles O18: with the diagnostics the counter is returned, without them the read is refused. -/
theorem rdFrameCountReturnsCounter : Obligations.RdFrameCountReturnsCounter := by
  unfold Obligations.RdFrameCountReturnsCounter
  intro s hfault
  split
  case isTrue hdiag => exact exec_rdFrameCount_diag hfault hdiag
  case isFalse hnone => exact exec_rdFrameCount_no_diag hfault (by simpa using hnone)

/-- Settles O19: with the diagnostics the flag is returned, without them the read is refused. -/
theorem rdRenderActiveReturnsFlag : Obligations.RdRenderActiveReturnsFlag := by
  unfold Obligations.RdRenderActiveReturnsFlag
  intro s hfault
  split
  case isTrue hdiag => exact exec_rdRenderActive_diag hfault hdiag
  case isFalse hnone => exact exec_rdRenderActive_no_diag hfault (by simpa using hnone)

/-! ### START (R144, R155, R170) -/

section Start

variable {s : State}

/-- Both lines that START generates are pre-equalizing lines, so the flag is updated twice as once (R87, R144). -/
@[simp] theorem startBuilt_renderActive : (startBuilt s).renderActive = renderAfter s.cfg false s.renderActive := by
  have hidem : renderAfter s.cfg false (renderAfter s.cfg false s.renderActive) =
      renderAfter s.cfg false s.renderActive := by
    simp only [renderAfter_nonactive]
    split <;> rfl
  simp only [startBuilt, startEnabled_renderActive, linePreeq_renderActive, linePreeq_cfg]
  exact hidem

/-- START stores in the two buffers only (R94, R144). -/
theorem startBuilt_byteAt {a : Nat}
    (ha : ∀ x, a < (s.cfg.bufBase x).toNat ∨ (s.cfg.bufBase x).toNat + 1816 ≤ a) :
    (startBuilt s).byteAt a = s.byteAt a :=
  calc (startBuilt s).byteAt a
    _ = (linePreeq .a (startConfigured s)).byteAt a := linePreeq_byteAt .b _ (ha .b)
    _ = s.byteAt a := linePreeq_byteAt .a _ (ha .a)

/-- `s` after a START that completes: channel A is busy with its 908 transfers (R144, R115). -/
def State.engineStarted (s : State) : State :=
  { startBuilt s with
    dma := (startBuilt s).dma.set .a { (startBuilt s).dma.get .a with busy := true, count := 908 } }

theorem trigger_startBuilt (hfree : s.pend.a = false) : trigger .a (startBuilt s) = .ok s.engineStarted := by
  have hreload : (startBuilt s).reloadValue .a = 908 := by simp only [State.reloadValue, startBuilt_dma]
  refine trigger_ok.mpr ⟨by rw [startBuilt_dma], by rw [startBuilt_pend]; exact hfree, ?_⟩
  rw [hreload]
  rfl

/-- The elements that START sets to fixed values, and those that it keeps (R144, R170). -/
theorem engineStarted_eq :
    s.engineStarted = { s with
      scanIdx := some 2, renderActive := s.engineStarted.renderActive, started := true, mem := s.engineStarted.mem,
      dma := s.engineStarted.dma, intr := ⟨false, false⟩, inte := ⟨true, true⟩, dreq := 0,
      pwm := { s.pwm with en := true, div := some 0x020, top := some 10, ccB := 0, cmpB := 0 } } := by
  simp [State.engineStarted]

theorem engineStarted_dma (x : Chan) :
    s.engineStarted.dma.get x =
      { readAddr := some (s.cfg.bufBase x), writeAddr := some s.cfg.ccBAddr, countReload := some 908,
        count := if x = .a then 908 else 0, ctrl := some (ctrlValue s.cfg x), busy := decide (x = .a) } := by
  cases x with
  | a => simp only [State.engineStarted, Pair.get_set, startBuilt_dma]; rfl
  | b => exact startBuilt_dma s .b

variable (hfault : s.fault = none)
include hfault

theorem exec_start_twice (hstarted : s.started = true) : exec .start s = .fault .startTwice :=
  (whenEnabled_run hfault rfl).trans (if_pos hstarted)

variable (hnot : s.started = false)
include hnot

theorem exec_start_clock (hclock : s.cfg.sysClkHz ≠ 315000000) : exec .start s = .fault .clock := by
  refine (whenEnabled_run hfault rfl).trans ?_
  rw [if_neg (by simp [hnot]), if_pos hclock]

theorem exec_start_dmaAlloc (hclock : s.cfg.sysClkHz = 315000000) (hfew : s.cfg.freeDmaChannels.val < 2) :
    exec .start s = .fault .dmaAlloc := by
  refine (whenEnabled_run hfault rfl).trans ?_
  rw [if_neg (by simp [hnot]), if_neg (not_not.mpr hclock), if_pos hfew]

theorem exec_start_completes (hclock : s.cfg.sysClkHz = 315000000) (hfree : 2 ≤ s.cfg.freeDmaChannels.val)
    (hunowned : s.pend.a = false) : exec .start s = .next s.engineStarted := by
  rw [exec, execStart_eq hfault hnot hclock (by omega), finish_next, trigger_startBuilt hunowned]

end Start

/-- Settles O17: the checks in their order, and then `engineStarted`, element by element. -/
theorem startLeavesEngineRunning : Obligations.StartLeavesEngineRunning := by
  unfold Obligations.StartLeavesEngineRunning
  intro s hfault
  refine ⟨exec_start_twice hfault, exec_start_clock hfault, exec_start_dmaAlloc hfault,
    fun hnot hclock hfree hplaced hunowned =>
      ⟨s.engineStarted, exec_start_completes hfault hnot hclock hfree hunowned, engineStarted_eq, ?_, ?_, ?_,
        ?_, ?_, ?_, ?_, ?_⟩⟩
  · rw [← renderAfter_nonactive]
    exact startBuilt_renderActive
  · intro x
    rw [engineStarted_dma]
    exact ⟨rfl, rfl, rfl, rfl⟩
  · exact congrArg Dma.count (engineStarted_dma .a)
  · exact congrArg Dma.busy (engineStarted_dma .a)
  · exact congrArg Dma.count (engineStarted_dma .b)
  · exact congrArg Dma.busy (engineStarted_dma .b)
  · exact fun x n hn => startBuilt_buf hplaced x hn
  · exact fun a ha => startBuilt_byteAt ha

/-! ### The host after START (R149, R151) -/

/-- The step of a host access that decodes to an operation executes it. -/
theorem step_host {s : State} {write : Bool} {offset : BitVec 8} {data : BitVec 32} {i : Instr}
    (hfault : s.fault = none) (hi : decodeHost write offset data = .ok i) :
    step (s.withAccess (.host write offset data)) = exec i (s.advance s.inbox) := by
  rw [step_withAccess hfault]
  refine present_of_schedulable hi ?_
  obtain ⟨-, -, rfl⟩ | ⟨-, -, rfl⟩ | ⟨-, -, rfl⟩ | ⟨-, -, rfl⟩ := decodeHost_ok_iff.mp hi <;> rfl

/-- Settles O20: the four selectors of R78, each by its own operation, and any other access refused. -/
theorem hostAfterStartOnlyReads : Obligations.HostAfterStartOnlyReads := by
  unfold Obligations.HostAfterStartOnlyReads
  intro s write offset data hfault hstarted
  have hfault' : (s.advance s.inbox).fault = none := hfault
  refine ⟨?_, ?_, ?_, ?_, fun hwrite hread => ?_⟩
  · rintro rfl rfl
    exact (step_host hfault rfl).trans (exec_palWrite_started _ _ _ _ hfault' hstarted)
  · rintro rfl rfl
    exact (step_host hfault rfl).trans (exec_start_twice hfault' hstarted)
  · rintro rfl rfl hdiag
    exact (step_host hfault rfl).trans (exec_rdFrameCount_diag hfault' hdiag)
  · rintro rfl rfl hdiag
    exact (step_host hfault rfl).trans (exec_rdRenderActive_diag hfault' hdiag)
  · rw [step_withAccess hfault]
    refine present_refused fun i hi => .inr ?_
    obtain ⟨rfl, rfl, -⟩ | ⟨rfl, rfl, -⟩ | ⟨rfl, rfl, rfl⟩ | ⟨rfl, rfl, rfl⟩ := decodeHost_ok_iff.mp hi
    · exact absurd ⟨rfl, .inl rfl⟩ hwrite
    · exact absurd ⟨rfl, .inr rfl⟩ hwrite
    · exact exec_rdFrameCount_no_diag hfault' (by simpa using hread)
    · exact exec_rdRenderActive_no_diag hfault' (by simpa using hread)

/-! ### FB_WRITE (R147) -/

section FbWrite

variable (offset : BitVec 17) (byte : Byte) (s : State)

/-- The state after an FB_WRITE that completes. -/
def State.fbStored : State :=
  { s with mem := Memory.writeBytes s.cfg s.mem (s.cfg.fbBase.toNat + offset.toNat) [byte] }

theorem fbStored_fb : (s.fbStored offset byte).fb offset.toNat = some byte := by
  refine (read1_writeBytes_inside le_rfl (by simp)).trans ?_
  simp

variable {s} (hfault : s.fault = none)
include hfault

theorem exec_fbWrite_inside (hin : offset.toNat < 76800) :
    exec (.fbWrite offset byte) s = .next (s.fbStored offset byte) :=
  (whenEnabled_run hfault rfl).trans (if_neg (Nat.not_le.mpr hin))

theorem exec_fbWrite_past (hpast : 76800 ≤ offset.toNat) :
    exec (.fbWrite offset byte) s = .next { s with refused := true } :=
  (whenEnabled_run hfault rfl).trans (if_pos hpast)

end FbWrite

/-- Settles O30: inside the framebuffer the next state is `fbStored`. -/
theorem fbWriteStoresOneByte : Obligations.FbWriteStoresOneByte := by
  unfold Obligations.FbWriteStoresOneByte
  intro offset byte s hfault
  exact ⟨fun hin => ⟨s.fbStored offset byte, exec_fbWrite_inside offset byte hfault hin, rfl,
    fbStored_fb offset byte s, fun a ha => fbWrite_byteAt ha⟩, exec_fbWrite_past offset byte hfault⟩

end Sys2Proof.Machine

/-!
What a fault, a refusal and a free choice make of a step: the held fault is the only answer (R152), the mark comes alone
(R156), and a freely chosen access is some agent's step, a refusal or nothing (R84, R158).
-/
namespace Sys2Proof.Machine

/-! ### A held fault (R152) -/

/-- Every operation runs under the check for a held fault, which answers it. -/
theorem exec_of_fault {s : State} {f : Fault} (hf : s.fault = some f) (i : Instr) : exec i s = .fault f := by
  cases i <;> exact whenEnabled_fault.mpr (.inl hf)

/-- Settles O6: neither a step nor an operation gets past the check for a held fault. -/
theorem faultedMachineHasNoStep : Obligations.FaultedMachineHasNoStep := by
  unfold Obligations.FaultedMachineHasNoStep
  exact fun s f hf => ⟨step_of_fault hf, exec_of_fault hf⟩

/-! ### The mark (R23, R156) -/

theorem OnlyGenerated.refused_eq {s t : State} (h : OnlyGenerated s t) : t.refused = s.refused := by
  rw [h.rest]

theorem trigger_refused {y : Chan} {s t : State} (h : trigger y s = .ok t) : t.refused = s.refused := by
  obtain ⟨-, -, rfl⟩ := trigger_ok.mp h
  rfl

theorem completeRun_refused {x : Chan} {s t : State} (h : completeRun x s = .ok t) : t.refused = s.refused := by
  obtain ⟨r, rfl⟩ := completeRun_ok h
  rfl

theorem transfer_refused {x : Chan} {s t : State} (h : transfer x s = .ok t) : t.refused = s.refused := by
  obtain ⟨addr, v, -, -, -, ⟨-, rfl⟩ | ⟨-, hcomplete⟩⟩ := transfer_ok h
  · rfl
  · exact (completeRun_refused hcomplete).trans (moveSample_refused s x addr v)

theorem service_refused {x : Chan} {rest : List Chan} {s t : State} (h : service x rest s = .ok t) :
    t.refused = s.refused := by
  obtain ⟨made, hgen, hback⟩ := bind_ok.mp h
  cases hback
  exact (generate_onlyGenerated hgen).refused_eq

/-- An operation that completes is refused, which sets the mark and nothing else, or keeps the mark (R23, R156). -/
theorem exec_refused {i : Instr} {s t : State} (h : exec i s = .next t) :
    t = { s with refused := true } ∨ t.refused = s.refused := by
  have he := (exec_effect h).2
  cases i with
  | rdFrameCount | rdRenderActive =>
    obtain rfl | rfl := he
    · exact .inr rfl
    · exact .inl rfl
  | fbWrite offset byte =>
    obtain ⟨-, rfl⟩ | rfl := he
    · exact .inr rfl
    · exact .inl rfl
  | genTest x idx =>
    obtain ⟨-, rfl⟩ | ⟨-, hgen⟩ := he
    · exact .inl rfl
    · exact .inr (generate_onlyGenerated hgen).refused_eq
  | start =>
    obtain ⟨-, -, -, htrigger⟩ := he
    exact .inr ((trigger_refused htrigger).trans (startBuilt_refused s))
  | dmaXfer x => exact .inr (transfer_refused he.2)
  | dmaComplete x => exact .inr (completeRun_refused he)
  | irqService => obtain ⟨-, x, rest, -, hservice⟩ := he; exact .inr (service_refused hservice)
  | irqReturn => obtain ⟨-, -, rfl⟩ := he; exact .inr rfl
  | palWrite | pwmWrap | irqEntry => obtain ⟨-, rfl⟩ := he; exact .inr rfl
  | genActive x idx => exact .inr (onlyGenerated_lineActive he).refused_eq
  | genPreeq | genVsync | genBottom | genNowrite => obtain rfl := he; exact .inr rfl

/-- Settles O7: a refusal is the only operation that changes the mark, and it sets it. -/
theorem refusalChangesNothingElse : Obligations.RefusalChangesNothingElse := by
  unfold Obligations.RefusalChangesNothingElse
  intro i s t h
  obtain rfl | hkeep := exec_refused h
  · exact ⟨fun _ => rfl, fun _ => rfl⟩
  · exact ⟨hkeep.trans, fun hchanged => absurd hkeep hchanged⟩

/-! ### The free choice (R84, R158) -/

@[simp] theorem enabled_advance (i : Instr) (s : State) (rest : List Access) :
    enabled i (s.advance rest) = enabled i s := rfl

/-- With no access in the schedule, taking one moves only the index of the free values. -/
theorem advance_of_inbox_nil {s : State} (h : s.inbox = []) : s.advance [] = { s with tick := s.tick + 1 } := by
  rw [State.advance, ← h]

section PresentFree

variable {acc : Access} {s : State}

/-- An access that decodes to an operation which may stand as a step is a step exactly where its agent has it (R84). -/
theorem hasStep_of_schedulable {i : Instr} (hi : decode acc = .ok i) (hs : schedulable i s = true) :
    hasStep acc s = enabled i s := by
  simp only [hasStep, hi, hs, if_true]

/-- A refusal is always a step (R84). -/
theorem hasStep_of_not_schedulable (h : ∀ i, decode acc = .ok i → schedulable i s = false) : hasStep acc s = true := by
  unfold hasStep
  cases hi : decode acc with
  | error e => rfl
  | ok i => simp [h i hi]

theorem presentFree_of_enabled {i : Instr} (hi : decode acc = .ok i) (hs : schedulable i s = true)
    (hen : enabled i s = true) : presentFree acc s = exec i s := by
  rw [presentFree, hasStep_of_schedulable hi hs, if_pos hen, present_of_schedulable hi hs]

theorem presentFree_of_not_enabled {i : Instr} (hi : decode acc = .ok i) (hs : schedulable i s = true)
    (hen : enabled i s = false) : presentFree acc s = .next s := by
  rw [presentFree, hasStep_of_schedulable hi hs, if_neg (by simp [hen])]

theorem presentFree_refused (h : ∀ i, decode acc = .ok i → schedulable i s = false) :
    presentFree acc s = .next { s with refused := true } := by
  rw [presentFree, if_pos (hasStep_of_not_schedulable h), present_refused fun i hi => .inl (h i hi)]

end PresentFree

/-- Settles O9: the three answers of `presentFree`, in the state with the index of the free values moved on. -/
theorem freeStepIsSomeAgentsStep : Obligations.FreeStepIsSomeAgentsStep := by
  unfold Obligations.FreeStepIsSomeAgentsStep
  rintro s acc hfault hinbox rfl
  rw [step_of_nil hfault hinbox, ← advance_of_inbox_nil hinbox]
  refine ⟨fun i hi hs hen => ?_, fun i hi hs hen => ?_, fun hs => ?_⟩
  · have hrun := presentFree_of_enabled (s := s.advance []) hi hs hen
    refine ⟨hrun, fun hnot => ?_⟩
    rw [hrun, exec_notEnabled_iff (s := s.advance []) hfault] at hnot
    exact hnot hen
  · exact ⟨presentFree_of_not_enabled (s := s.advance []) hi hs hen,
      (exec_notEnabled_iff hfault).mpr (by simp [hen])⟩
  · rw [presentFree_refused (s := s.advance []) hs, State.advance, hinbox]

end Sys2Proof.Machine

/-!
The launch (R26, R51, R169): the power-on state of every accepted launch, its memory and its invariants, and the reset
state as one of them.
-/
namespace Sys2Proof.Machine

/-! ### The launched memory -/

section LaunchedMemory

variable {cfg : Config} {bytes : List Byte}

/-- Bytes that their addresses read as unlisted need no cell. -/
theorem cellsOf_eq_nil {addr : Nat} (h : ∀ i (hi : i < bytes.length), Memory.unlisted cfg (addr + i) = some bytes[i]) :
    Memory.cellsOf cfg addr bytes = [] := by
  induction bytes generalizing addr with
  | nil => rfl
  | cons v rest ih =>
    have hfirst : Memory.unlisted cfg addr = some v := h 0 (Nat.zero_lt_succ _)
    rw [Memory.cellsOf, if_pos hfirst]
    refine ih fun i hi => ?_
    rw [Nat.add_assoc, Nat.add_comm 1 i]
    exact h (i + 1) (Nat.succ_lt_succ hi)

/-- Nothing outside the framebuffer has been written at power-on (R24, R25, R169). -/
theorem read1_launched_outside (hlen : bytes.length = fbBytes) {a : Nat}
    (ha : a < cfg.fbBase.toNat ∨ cfg.fbBase.toNat + fbBytes ≤ a) :
    Memory.read1 cfg (Memory.cellsOf cfg cfg.fbBase.toNat bytes) a = none := by
  have hcell : Memory.cell (Memory.cellsOf cfg cfg.fbBase.toNat bytes) a = none := by
    obtain hbelow | habove := ha
    · exact cell_cellsOf_below hbelow
    · exact cell_cellsOf_above (by rw [hlen]; exact habove)
  have hunlisted : Memory.unlisted cfg a = none := if_neg (by omega)
  simp only [Memory.read1, hcell, hunlisted]

/-- A sample of an array whose samples lie outside the framebuffer is UNWRITTEN at power-on (R169). -/
theorem sample_launched_outside (hlen : bytes.length = fbBytes) {base : Addr} {n size : Nat} (hn : 2 * n + 2 ≤ size)
    (happart : cfg.fbBase.toNat + 76800 ≤ base.toNat ∨ base.toNat + size ≤ cfg.fbBase.toNat) :
    Memory.sample cfg (Memory.cellsOf cfg cfg.fbBase.toNat bytes) base n = none := by
  have hlow : Memory.read1 cfg (Memory.cellsOf cfg cfg.fbBase.toNat bytes) (base.toNat + 2 * n) = none :=
    read1_launched_outside hlen (by simp only [fbBytes]; omega)
  simp only [Memory.sample, Memory.read2, hlow]

end LaunchedMemory

/-! ### The launched state -/

theorem launch_ok {cfg : Config} {fbInit : Vector Byte fbBytes} {s : State} (h : launch cfg fbInit = .ok s) :
    placementOk cfg = true ∧ s = State.powerOn cfg (Memory.cellsOf cfg cfg.fbBase.toNat fbInit.toList) := by
  have hp : placementOk cfg = true := launch_ok_iff.mp ⟨s, h⟩
  exact ⟨hp, (Except.ok.inj ((launch_of_placed hp fbInit).symm.trans h)).symm⟩

/-- Settles O1: the power-on value of each register is the definition's, and memory lists FB_INIT alone. -/
theorem launchGivesPowerOnState : Obligations.LaunchGivesPowerOnState := by
  unfold Obligations.LaunchGivesPowerOnState
  intro cfg fbInit s h
  obtain ⟨hp, rfl⟩ := launch_ok h
  have hlen : fbInit.toList.length = fbBytes := Vector.length_toList
  obtain ⟨hpal, hbufA, hbufB, -⟩ := placementOk_apart hp
  refine ⟨rfl, rfl, rfl, rfl, rfl, rfl, rfl, fun j hj => ?_, fun x n hn => ?_, fun o ho => ?_, fun x => ?_,
    rfl, rfl, rfl, rfl, rfl, rfl, rfl, rfl, rfl, rfl, rfl⟩
  · exact sample_launched_outside hlen (by omega) hpal
  · cases x with
    | a => exact sample_launched_outside hlen (by omega) hbufA
    | b => exact sample_launched_outside hlen (by omega) hbufB
  · exact (read1_cellsOf (by rw [hlen]; exact ho)).trans (congrArg some (Vector.getElem_toList _))
  · cases x <;> exact ⟨rfl, rfl, rfl, rfl, rfl, rfl, rfl, rfl, rfl⟩

/-- Settles O3: FB_INIT holds what an unlisted framebuffer byte reads as, so that memory lists nothing. -/
theorem resetIsStandardLaunch : Obligations.ResetIsStandardLaunch := by
  unfold Obligations.ResetIsStandardLaunch
  have hp : placementOk Config.standard = true := by decide
  have hmem : Memory.cellsOf Config.standard Config.standard.fbBase.toNat
      (Vector.replicate fbBytes (0 : Byte)).toList = [] := by
    refine cellsOf_eq_nil fun i hi => ?_
    rw [Vector.length_toList] at hi
    rw [Vector.getElem_toList, Vector.getElem_replicate]
    exact if_pos ⟨Nat.le_add_right _ _, Nat.add_lt_add_left hi _⟩
  rw [launch_of_placed hp, hmem]
  rfl

/-! ### The invariants (R50, R169, R171) -/

theorem launch_dataOk {cfg : Config} {fbInit : Vector Byte fbBytes} {s : State} (h : launch cfg fbInit = .ok s) :
    DataOk s := by
  obtain ⟨-, rfl⟩ := launch_ok h
  refine ⟨cellsOf_wf cfg fbInit.toList _, fun c hc => ?_, nofun, nofun⟩
  obtain ⟨hlo, hhi, -⟩ := mem_cellsOf hc
  exact ⟨fbRegion cfg, List.mem_cons_self, hlo, by rwa [Vector.length_toList] at hhi⟩

theorem launch_beforeStart {cfg : Config} {fbInit : Vector Byte fbBytes} {s : State} (h : launch cfg fbInit = .ok s) :
    BeforeStart s := by
  obtain ⟨hp, rfl⟩ := launch_ok h
  exact ⟨hp, rfl, rfl, rfl, ⟨rfl, rfl⟩, rfl, rfl, rfl, rfl, rfl, rfl, rfl⟩

/-- Settles O49: the reset state is a launched state too. -/
theorem launchMeetsInvariants : Obligations.LaunchMeetsInvariants := by
  unfold Obligations.LaunchMeetsInvariants
  have hall (cfg : Config) (fbInit : Vector Byte fbBytes) (s : State) (h : launch cfg fbInit = .ok s) :
      DataOk s ∧ BeforeStart s ∧ EngineInv s :=
    ⟨launch_dataOk h, launch_beforeStart h, .inl (launch_beforeStart h)⟩
  exact ⟨hall, hall _ _ _ resetIsStandardLaunch⟩

end Sys2Proof.Machine

/-!
Prompt runs (R172, R174) and paced runs (R177, R183): a run that keeps HANDLER_PROMPT under LAUNCH_OK meets no fault, and
the paced schedule reaches every number of samples.
-/
namespace Sys2Proof.Machine

/-! ### The palette covers the rest of a run (R172) -/

/-- Covering goes over to a state with the same palette and to accesses with which no other byte is held. -/
theorem paletteCovers.of_samePalette {s t : State} {accs rest : List Access} (h : paletteCovers s accs)
    (hpal : ∀ j < 1024, t.pal j = s.pal j) (hheld : ∀ p, byteHeld t rest p → byteHeld s accs p) :
    paletteCovers t rest := by
  intro p hp q hq
  have hbound := p.isLt
  rw [hpal _ (by omega)]
  exact h p (hheld p hp) q hq

/-- START stores in the two buffers only, so that it keeps what the palette covers (R94, R144). -/
theorem start_paletteCovers {s t : State} {accs : List Access} (hp : placementOk s.cfg = true)
    (h : exec .start s = .next t) (hc : paletteCovers s accs) : paletteCovers t accs := by
  have hpal {j : Nat} (hj : j < 1024) : t.pal j = s.pal j :=
    (exec_dataStep h).pal_eq (fun _ hr => storeRegions_apart_pal hp (by simp) hr) hj
  refine hc.of_samePalette (fun j hj => hpal hj) fun p => Or.imp_left ?_
  rintro ⟨o, ho, hfb⟩
  exact ⟨o, ho, (onlyProducerWritesFramebuffer .start s t hp h (by simp) o ho).symm.trans hfb⟩

section Access

variable {s t : State} {m : Nat} {x : Chan} {acc : Access} {rest : List Access}

/-- A framebuffer byte after an access of a run is the byte before it, or the one that the access writes (R26, R147). -/
theorem step_fb (hs : Running s m x) (h : step (s.withAccess acc) = .next t) {o : Nat} (ho : o < 76800) {p : Byte}
    (hp : t.fb o = some p) : s.fb o = some p ∨ decode acc = .ok (.fbWrite (BitVec.ofNat 17 o) p) := by
  obtain ⟨-, rfl⟩ | ⟨i, hd, -, hx⟩ := step_withAccess_next hs h
  · exact .inl hp
  by_cases hi : ∃ offset byte, i = .fbWrite offset byte
  · obtain ⟨offset, byte, rfl⟩ := hi
    obtain ⟨-, ⟨-, rfl⟩ | rfl⟩ := exec_effect hx
    · by_cases heq : o = offset.toNat
      · subst heq
        have hbyte := fbStored_fb offset byte (s.advance s.inbox)
        obtain rfl : byte = p := Option.some.inj (hbyte.symm.trans hp)
        exact .inr (by rw [hd, BitVec.ofNat_toNat, BitVec.setWidth_eq])
      · have hbyte := fbWrite_byteAt (s := s.advance s.inbox) (o := offset.toNat) (byte := byte)
          (a := s.cfg.fbBase.toNat + o) (by simp only [advance_cfg]; omega)
        exact .inl (hbyte.symm.trans hp)
    · exact .inl hp
  · have hkeep := onlyProducerWritesFramebuffer i (s.advance s.inbox) t hs.placed hx
      (fun offset byte he => hi ⟨offset, byte, he⟩) o ho
    exact .inl (hkeep.symm.trans hp)

/-- What the palette covers in a run it covers after the first access (R24, R172). -/
theorem step_paletteCovers (hs : Running s m x) (h : step (s.withAccess acc) = .next t)
    (hc : paletteCovers s (acc :: rest)) : paletteCovers t rest := by
  refine hc.of_samePalette (paletteFixedAfterStart (s.withAccess acc) t hs.placed hs.isStarted h) fun p hp => ?_
  obtain ⟨o, ho, hfb⟩ | ⟨c, hmem, hwrite⟩ := hp
  · obtain hold | hnew := step_fb hs h ho hfb
    · exact .inl ⟨o, ho, hold⟩
    · exact .inr ⟨acc, List.mem_cons_self, _, hnew⟩
  · exact .inr ⟨c, List.mem_cons_of_mem acc hmem, hwrite⟩

/-! ### HANDLER_PROMPT for the rest of a run (R174) -/

/-- The marks ahead keep HANDLER_PROMPT, and first among them the peer's service if the peer still awaits it: its run has
completed. -/
structure PromptAhead (s : State) (x : Chan) (ahead : List Mark) : Prop where
  prompt : handlerPrompt ahead = true
  owed : s.pend.get x.peer = true → servedFirst x.peer ahead = true

theorem lt_lineNext (s : State) (m : Nat) (x : Chan) : m < lineNext s m x := by
  unfold lineNext
  split <;> omega

theorem pend_of_lineNext (h : lineNext s m x = m + 1) : s.pend.get x.peer = true := by
  by_contra hfree
  rw [lineNext_of_not_pend (by simpa using hfree)] at h
  omega

/-- After an access the marks ahead are those that its own mark leaves. -/
theorem step_promptAhead {ahead : List Mark} (hs : Running s m x) (h : step (s.withAccess acc) = .next t)
    (hp : PromptAhead s x ((markOf acc s).toList ++ ahead)) :
    ∃ m' x', Running t m' x' ∧ PromptAhead t x' ahead := by
  obtain ⟨m', x', ht⟩ := running_step hs h
  refine ⟨m', x', ht.running, ?_⟩
  obtain ⟨hprompt, howed⟩ := hp
  have hcompleted := step_completions hs h ht.running
  have hserved := services_markOf h
  have hlines := ht.lines
  have hturn := ht.turn
  cases hmark : markOf acc s with
  | none =>
    rw [hmark] at hprompt howed hcompleted hserved
    refine ⟨hprompt, fun hpend => ?_⟩
    obtain rfl : m' = m := by simpa [completions] using hcompleted
    obtain rfl : x' = x := by simpa using hturn
    refine howed (pend_of_lineNext (m := m') ?_)
    rw [lineNext_of_pend hpend, ← hserved] at hlines
    simpa [services] using hlines.symm
  | some mk =>
    cases mk with
    | completed y =>
      rw [hmark] at hprompt hcompleted
      obtain ⟨rfl, rfl⟩ : m' = m + 1 ∧ y = x := by simpa [completions] using hcompleted
      obtain rfl : x' = y.peer := by simpa using hturn
      simp only [Option.toList_some, List.singleton_append, handlerPrompt, Bool.and_eq_true] at hprompt
      exact ⟨hprompt.2, fun _ => by rw [Chan.peer_peer]; exact hprompt.1⟩
    | serviced y =>
      rw [hmark] at hprompt hcompleted hserved
      refine ⟨hprompt, fun hpend => ?_⟩
      obtain rfl : m' = m := by simpa [completions] using hcompleted
      rw [lineNext_of_pend hpend, ← hserved] at hlines
      have hmin : m' < lineNext s m' x := lt_lineNext s m' x
      simp [services] at hlines
      omega

theorem marks_cons_of_next (h : step (s.withAccess acc) = .next t) :
    marks s (acc :: rest) = (markOf acc s).toList ++ marks t rest := by
  rw [marks, h]

end Access

/-- Along a run after START the marks ahead stay prompt, and the palette goes on to cover what is left of the run. -/
theorem run_promptAhead {s u : State} {m : Nat} {x : Chan} {accs rest : List Access} (hs : Running s m x)
    (h : Run s accs u) (hp : PromptAhead s x (marks s (accs ++ rest))) (hc : paletteCovers s (accs ++ rest)) :
    ∃ m' x', Running u m' x' ∧ PromptAhead u x' (marks u rest) ∧ paletteCovers u rest := by
  induction h generalizing m x with
  | done s => exact ⟨m, x, hs, hp, hc⟩
  | more hstep _ ih =>
    rw [List.cons_append, marks_cons_of_next hstep] at hp
    obtain ⟨m₁, x₁, h₁, hp₁⟩ := step_promptAhead hs hstep hp
    exact ih h₁ hp₁ (step_paletteCovers hs hstep hc)

/-! ### No fault under the premises (R172, R174) -/

/-- No access but PAL_WRITE and START faults while the marks ahead are prompt and the palette covers the framebuffer: a
transfer that ends a run while the peer awaits its service would put its completion before that service. -/
theorem step_ne_fault {s : State} {m : Nat} {x : Chan} {acc : Access} {rest : List Access} {f : Fault}
    (hs : Running s m x) (hp : PromptAhead s x (marks s (acc :: rest))) (hc : paletteCovers s (acc :: rest))
    (hstart : decode acc ≠ .ok .start)
    (hpal : ∀ index blue red green, decode acc ≠ .ok (.palWrite index blue red green)) :
    step (s.withAccess acc) ≠ .fault f := by
  intro h
  have hpresent := h
  rw [step_withAccess hs.noFault] at hpresent
  obtain ⟨i, hd, hi, hx⟩ := present_fault hpresent
  obtain ⟨index, blue, red, green, rfl, -⟩ | ⟨rfl, -⟩ | ⟨rfl, hlast, hpend, -⟩ | ⟨-, -, cur, hrow, hpixels⟩ :=
    running_fault (running_advance s.inbox hs) hi hx
  · exact hpal _ _ _ _ hd
  · exact hstart hd
  · have hmark : markOf acc s = some (.completed x) := by
      simp only [markOf, hd]
      exact if_pos hlast
    have howed := hp.owed hpend
    rw [marks, h, hmark] at howed
    simp [servedFirst] at howed
  · have hnow : paletteCovers s [] := hc.of_samePalette (fun _ _ => rfl) fun p hp => .inl (by simpa [byteHeld] using hp)
    exact pixelWords_of_covers hnow hrow hpixels

/-- Settles O52: START leaves no buffer that awaits a service, and the two promises hold along the run. -/
theorem promptRunNeverFaults : Obligations.PromptRunNeverFaults := by
  unfold Obligations.PromptRunNeverFaults
  intro s t u before acc after f hs hlaunch hstart hhost hprompt hrun
  have ht : Running t 0 .a := start_running hs hstart
  have hahead : PromptAhead t .a (marks t (before ++ acc :: after)) := by
    refine ⟨hprompt, fun hpend => ?_⟩
    have hlines := ht.lineNext_first
    rw [lineNext_of_pend hpend] at hlines
    omega
  obtain ⟨m, x, hu, hp, hc⟩ := run_promptAhead ht hrun hahead (start_paletteCovers hs.placed hstart hlaunch.covers)
  obtain ⟨hnotStart, hnotPal⟩ := hhost acc (by simp)
  exact step_ne_fault hu hp hc hnotStart hnotPal

/-! ### Paced runs of any length (R177, R183) -/

/-- A count that starts at 0 and rises by at most 1 at a time reaches `n` for the first time. -/
theorem exists_first_reach {sent : Nat → Nat} {n : Nat} (hzero : sent 0 = 0) (hrise : ∀ k, sent (k + 1) ≤ sent k + 1)
    (hreach : ∃ k, n ≤ sent k) : ∃ k, sent k = n ∧ ∀ j < k, sent j ≠ n := by
  have hbefore {j : Nat} (hj : j < Nat.find hreach) : sent j < n := Nat.lt_of_not_le (Nat.find_min hreach hj)
  refine ⟨Nat.find hreach, le_antisymm ?_ (Nat.find_spec hreach), fun j hj => (hbefore hj).ne⟩
  cases hk : Nat.find hreach with
  | zero => omega
  | succ k => exact (hrise k).trans (hbefore (by omega))

/-- An access after START adds at most one sample to either stream. -/
theorem step_sent_le {s t : State} {m : Nat} {x : Chan} {acc : Access} (hs : Running s m x)
    (h : step (s.withAccess acc) = .next t) (stream : Stream) : stream.sent t ≤ stream.sent s + 1 := by
  obtain ⟨hhist, hout, -⟩ | ⟨-, hhist, hout, -⟩ | ⟨y, -, hhist, hout, -⟩ := step_streams hs h <;>
    cases stream <;> simp only [Stream.sent, hhist, hout] <;> omega

/-- START leaves both streams empty (R144, R169). -/
theorem start_sent {s t : State} (hs : BeforeStart s) (h : exec .start s = .next t) (stream : Stream) :
    stream.sent t = 0 := by
  obtain ⟨-, -, -, -, htrigger⟩ := exec_effect h
  obtain ⟨-, -, rfl⟩ := trigger_ok.mp htrigger
  cases stream <;> simp [Stream.sent, hs.noDmaHist, hs.noOutHist]

theorem paced_reaches {s : State} (h : ∃ m x, Paced s m x) (stream : Stream) (n : Nat) :
    ∃ k, n ≤ stream.sent (pacedNext^[k] s) := by
  obtain ⟨k, hk⟩ := paced_output h (n + 1)
  obtain ⟨m, x, hpaced⟩ := paced_iterate h k
  have hcounted := hpaced.counted
  have hone := hpaced.oneRequest
  refine ⟨k, ?_⟩
  cases stream <;> simp only [Stream.sent] <;> omega

theorem pacedAccs_length (n : Nat) (s : State) : (pacedAccs n s).length = n := by
  induction n generalizing s with
  | zero => rfl
  | succ n ih => rw [pacedAccs, List.length_cons, ih]

/-- A run that makes the first accesses of the paced schedule ends in the state the schedule goes on with. -/
theorem pacedNext_of_run {s v : State} {n : Nat} {before after : List Access} (hs : ∃ m x, Paced s m x)
    (hsplit : pacedAccs n s = before ++ after) (h : Run s before v) : v = pacedNext^[before.length] s := by
  induction h generalizing n with
  | done s => rfl
  | @more s s' v acc before hstep _ ih =>
    cases n with
    | zero => simp [pacedAccs] at hsplit
    | succ n =>
      obtain ⟨m, x, hpaced⟩ := hs
      obtain ⟨hnext, hpaced', -⟩ := pacedNext_step hpaced
      obtain ⟨rfl, htail⟩ := List.cons.inj hsplit
      obtain rfl : s' = pacedNext s := Host.Outcome.next.inj (hstep.symm.trans hnext)
      exact ih hpaced' htail

/-- The paced schedule, up to where it first reaches `n` samples, is the end of a run for `n` samples (R183). -/
theorem paced_runEnded {s t : State} {stream : Stream} {n k : Nat} (hstart : exec .start s = .next t)
    (ht : ∃ m x, Paced t m x) (hreach : stream.sent (pacedNext^[k] t) = n)
    (hfirst : ∀ j < k, stream.sent (pacedNext^[j] t) ≠ n) : RunEnded stream n t (pacedAccs k t) (pacedNext^[k] t) where
  afterStart := ⟨s, hstart⟩
  run := paced_run ht k
  reached := hreach
  first before after v hsplit hafter hv := by
    have hlength := congrArg List.length hsplit
    rw [pacedAccs_length, List.length_append] at hlength
    have hpos := List.length_pos_iff.mpr hafter
    rw [pacedNext_of_run ht hsplit hv]
    exact hfirst _ (by omega)
  noFault := by
    obtain ⟨m, x, hpaced⟩ := paced_iterate ht k
    exact hpaced.running.noFault

/-- Settles O57: the paced schedule from START, up to the first state with `n` samples. -/
theorem pacedRunsReachAnyLength : Obligations.PacedRunsReachAnyLength := by
  unfold Obligations.PacedRunsReachAnyLength
  intro s t stream n hs hlaunch hstart
  have ht : ∃ m x, Paced t m x := ⟨0, .a, start_paced hs hlaunch.covers hstart⟩
  have hrise (k : Nat) : stream.sent (pacedNext^[k + 1] t) ≤ stream.sent (pacedNext^[k] t) + 1 := by
    obtain ⟨m, x, hpaced⟩ := paced_iterate ht k
    rw [Function.iterate_succ_apply']
    exact step_sent_le hpaced.running (pacedNext_step hpaced).1 stream
  obtain ⟨k, hreach, hfirst⟩ := exists_first_reach (start_sent hs hstart stream) hrise (paced_reaches ht stream n)
  exact ⟨pacedAccs k t, pacedNext^[k] t, paced_runEnded hstart ht hreach hfirst,
    ⟨hlaunch.placed, hlaunch.clock, hlaunch.channels, paletteCovers_paced hlaunch.covers k⟩, dmaPace_paced ht k,
    (handlerPrompt_paced ht k).1, fun c hc => pacedAccs_decode hc⟩

end Sys2Proof.Machine

/-!
Weakly fair runs (R119, R131, R179): both streams grow past every length, and the handler hands back every buffer that
awaits its service.
-/
namespace Sys2Proof.Machine

/-! ### The agents' steps in the running engine -/

/-- The channel that a run leaves waiting has the interrupt agent enabled: to enter, to service it, or to return first
(R125, R127, R128). -/
theorem irq_enabled_of_pend {s : State} {m : Nat} {x : Chan} (hs : Running s m x) (hpend : s.pend.get x.peer = true) :
    agentEnabled .irq s := by
  refine ⟨hs.noFault, ?_⟩
  by_cases hactive : s.handler.active = true
  · by_cases htodo : s.handler.todo = []
    · exact ⟨.irqReturn, rfl, by simp [enabled, irqReturnEnabled, hactive, htodo]⟩
    · exact ⟨.irqService, rfl, by simp [enabled, irqServiceEnabled, hactive, htodo]⟩
  · have htodo := hs.idleTodo (by simpa using hactive)
    have hbit : s.intr.get x.peer = true := by
      obtain ⟨hfree, -⟩ | ⟨-, -, ⟨hbit, -⟩ | ⟨-, hlisted⟩, -⟩ := hs.peer
      · simp [hfree] at hpend
      · exact hbit
      · simp [htodo] at hlisted
    exact ⟨.irqEntry, rfl, by simp [enabled, irqEntryEnabled, hs.isStarted, irqLine_running hs, hbit, hactive]⟩

theorem isStepOf_pwm {acc : Access} (h : isStepOf .pwm acc) : decode acc = .ok .pwmWrap := by
  obtain ⟨i, hd, hagent⟩ := h
  cases i <;> simp [agentOf] at hagent
  exact hd

theorem isStepOf_dma {acc : Access} {x : Chan} (h : isStepOf (.dma x) acc) : decode acc = .ok (.dmaXfer x) := by
  obtain ⟨i, hd, hagent⟩ := h
  cases i <;> simp [agentOf] at hagent
  rwa [hagent] at hd

theorem isStepOf_irq {acc : Access} (h : isStepOf .irq acc) :
    decode acc = .ok .irqEntry ∨ decode acc = .ok .irqService ∨ decode acc = .ok .irqReturn := by
  obtain ⟨i, hd, hagent⟩ := h
  cases i <;> simp [agentOf] at hagent
  · exact .inl hd
  · exact .inr (.inl hd)
  · exact .inr (.inr hd)

section Access

variable {s t : State} {m : Nat} {x : Chan} {acc : Access}

/-- An access that decodes to an operation which may stand as a step has its effect. -/
theorem step_effect {i : Instr} (hs : Running s m x) (hd : decode acc = .ok i) (hi : schedulable i s = true)
    (h : step (s.withAccess acc) = .next t) : Effect i (s.advance s.inbox) t := by
  rw [step_withAccess hs.noFault, present_of_schedulable (s := s.advance s.inbox) hd hi] at h
  exact (exec_effect h).2

theorem wrap_outHist (hs : Running s m x) (hd : decode acc = .ok .pwmWrap) (h : step (s.withAccess acc) = .next t) :
    t.outHist.length = s.outHist.length + 1 := by
  obtain ⟨-, rfl⟩ := step_effect hs hd rfl h
  simp

theorem xfer_dmaHist {y : Chan} (hs : Running s m x) (hd : decode acc = .ok (.dmaXfer y))
    (h : step (s.withAccess acc) = .next t) : t.dmaHist.length = s.dmaHist.length + 1 := by
  obtain ⟨-, htransfer⟩ := step_effect hs hd rfl h
  obtain ⟨-, -, -, -, -, hhist⟩ := transfer_frame htransfer
  exact hhist

/-- The handler enters from idle, with a service to make (R125, R126). -/
theorem entry_handler (hs : Running s m x) (hd : decode acc = .ok .irqEntry) (h : step (s.withAccess acc) = .next t) :
    s.handler.active = false ∧ t.handler.todo ≠ [] := by
  obtain ⟨hen, rfl⟩ := step_effect hs hd rfl h
  simp only [irqEntryEnabled, State.irqLine, Bool.and_eq_true, Bool.or_eq_true, Bool.not_eq_true'] at hen
  obtain ⟨⟨-, hline⟩, hidle⟩ := hen
  refine ⟨hidle, fun hempty => ?_⟩
  obtain ⟨ha, hb⟩ := serviceList_eq_nil_iff.mp hempty
  simp [ha, hb] at hline

/-- The handler returns to idle, with no service left to make (R128). -/
theorem return_handler (hs : Running s m x) (hd : decode acc = .ok .irqReturn)
    (h : step (s.withAccess acc) = .next t) :
    s.handler.active = true ∧ s.handler.todo = [] ∧ t.handler.active = false := by
  obtain ⟨hactive, htodo, rfl⟩ := step_effect hs hd rfl h
  exact ⟨hactive, htodo, rfl⟩

/-- A service hands the peer's buffer back (R127, R134). -/
theorem service_pend (hs : Running s m x) (hd : decode acc = .ok .irqService)
    (h : step (s.withAccess acc) = .next t) : t.pend.get x.peer = false := by
  obtain ⟨-, -, -, -, hservice⟩ := service_step hs hd h
  obtain ⟨-, -, -, -, -, hback, -⟩ := service_frame (s := s.advance s.inbox) hs.placed hservice
  rw [hback, Pair.get_set]

theorem step_dmaHist_le (hs : Running s m x) (h : step (s.withAccess acc) = .next t) :
    s.dmaHist.length ≤ t.dmaHist.length := by
  obtain ⟨hhist, -, -⟩ | ⟨-, hhist, -⟩ | ⟨y, -, hhist, -⟩ := step_streams hs h <;> simp [hhist]

theorem step_outHist_le (hs : Running s m x) (h : step (s.withAccess acc) = .next t) :
    s.outHist.length ≤ t.outHist.length := by
  obtain ⟨-, hout, -⟩ | ⟨-, -, hout, -⟩ | ⟨y, -, -, hout, -⟩ := step_streams hs h <;> simp [hout]

end Access

/-! ### Fair runs of the engine -/

/-- An endless, weakly fair run of the running engine with its requests counted (R119, R179). -/
structure FairRun (states : Nat → State) (accs : Nat → Access) : Prop where
  endless : EndlessRun states accs
  fair : WeaklyFair states accs
  running : ∀ k, ∃ m x, Running (states k) m x
  counted : ∀ k, RequestsCounted (states k)

/-- What follows a START without an end and fairly is a fair run. -/
theorem start_fairRun {s : State} {states : Nat → State} {accs : Nat → Access} (hs : BeforeStart s)
    (hstart : exec .start s = .next (states 0)) (hendless : EndlessRun states accs) (hfair : WeaklyFair states accs) :
    FairRun states accs := by
  have hall (k : Nat) : (∃ m x, Running (states k) m x) ∧ RequestsCounted (states k) := by
    induction k with
    | zero => exact ⟨⟨0, .a, start_running hs hstart⟩, start_requestsCounted hs hstart⟩
    | succ k ih =>
      obtain ⟨⟨m, x, hk⟩, hcounted⟩ := ih
      obtain ⟨m', x', hnext⟩ := running_step hk (hendless k)
      exact ⟨⟨m', x', hnext.running⟩, step_requestsCounted hk (hendless k) hcounted⟩
  exact ⟨hendless, hfair, fun k => (hall k).1, fun k => (hall k).2⟩

/-- A count that always rises later passes every bound. -/
theorem unbounded_of_rises {sent : Nat → Nat} (h : ∀ k, ∃ j, sent k < sent j) (n : Nat) : ∃ k, n ≤ sent k := by
  induction n with
  | zero => exact ⟨0, Nat.zero_le _⟩
  | succ n ih =>
    obtain ⟨k, hk⟩ := ih
    obtain ⟨j, hj⟩ := h k
    exact ⟨j, by omega⟩

namespace FairRun

variable {states : Nat → State} {accs : Nat → Access} (h : FairRun states accs)
include h

theorem outHist_mono : Monotone fun k => (states k).outHist.length :=
  monotone_nat_of_le_succ fun k => by
    obtain ⟨m, x, hk⟩ := h.running k
    exact step_outHist_le hk (h.endless k)

theorem dmaHist_mono : Monotone fun k => (states k).dmaHist.length :=
  monotone_nat_of_le_succ fun k => by
    obtain ⟨m, x, hk⟩ := h.running k
    exact step_dmaHist_le hk (h.endless k)

/-! #### The streams grow (R119) -/

/-- The slice is always enabled, so that there is always another wrap. -/
theorem outHist_rises (k : Nat) : ∃ j, (states k).outHist.length < (states j).outHist.length := by
  have henabled (j : Nat) : agentEnabled .pwm (states j) := by
    obtain ⟨m, x, hj⟩ := h.running j
    exact ⟨hj.noFault, .pwmWrap, rfl, by simp [enabled, pwmWrapEnabled, hj.isStarted, hj.pwmOn]⟩
  obtain ⟨j, hle, hstep⟩ := h.fair .pwm (by simp) k fun j _ => henabled j
  obtain ⟨m, x, hj⟩ := h.running j
  have hwrap := wrap_outHist hj (isStepOf_pwm hstep) (h.endless j)
  have hmono : (states k).outHist.length ≤ (states j).outHist.length := h.outHist_mono hle
  exact ⟨j + 1, by omega⟩

/-- While nothing more is sent one channel stays busy, and the requests of the wraps keep it enabled. -/
theorem dmaHist_rises (k : Nat) : ∃ j, (states k).dmaHist.length < (states j).dmaHist.length := by
  by_contra hnever
  have hstuck {j : Nat} (hj : k ≤ j) : (states j).dmaHist.length = (states k).dmaHist.length :=
    le_antisymm (Nat.le_of_not_lt fun hlt => hnever ⟨j, hlt⟩) (h.dmaHist_mono hj)
  obtain ⟨m, x, hk⟩ := h.running k
  have hsame {j : Nat} (hj : k ≤ j) : Running (states j) m x := by
    obtain ⟨m', x', hrun⟩ := h.running j
    obtain rfl : m' = m := by rw [← hrun.sentCount.1, hstuck hj, hk.sentCount.1]
    obtain rfl : x' = x := hrun.turn.trans hk.turn.symm
    exact hrun
  obtain ⟨j₀, hasked⟩ := h.outHist_rises k
  have hrequest {j : Nat} (hkj : k ≤ j) (hj : j₀ ≤ j) : 0 < (states j).dreq := by
    have hmono : (states j₀).outHist.length ≤ (states j).outHist.length := h.outHist_mono hj
    have hcountk : (states k).outHist.length = (states k).dmaHist.length + (states k).dreq := h.counted k
    have hcount : (states j).outHist.length = (states j).dmaHist.length + (states j).dreq := h.counted j
    have := hstuck hkj
    omega
  have henabled (j : Nat) (hj : max k j₀ ≤ j) : agentEnabled (.dma x) (states j) := by
    have hrun := hsame (le_of_max_le_left hj)
    refine ⟨hrun.noFault, .dmaXfer x, rfl, ?_⟩
    simp [enabled, dmaXferEnabled, hrun.isStarted, hrun.busy, hrun.countPos,
      hrequest (le_of_max_le_left hj) (le_of_max_le_right hj)]
  obtain ⟨j, hj, hstep⟩ := h.fair (.dma x) (by cases x <;> simp) _ henabled
  have hkj : k ≤ j := le_of_max_le_left hj
  have hsent := xfer_dmaHist (hsame hkj) (isStepOf_dma hstep) (h.endless j)
  rw [hstuck hkj, hstuck (by omega : k ≤ j + 1)] at hsent
  omega

/-! #### Every waiting buffer is handed back (R131) -/

section NeverHandedBack

variable {k : Nat} {y : Chan} (hpend : ∀ j, k ≤ j → (states j).pend.get y = true)
include hpend

/-- The channel that waits is always the peer of the one that sends, which owns its buffer (R134). -/
theorem running_of_pend {j : Nat} (hj : k ≤ j) : ∃ m x, Running (states j) m x ∧ x.peer = y := by
  obtain ⟨m, x, hrun⟩ := h.running j
  refine ⟨m, x, hrun, ?_⟩
  obtain rfl | rfl := Chan.eq_or_peer x y
  · have hown := hrun.ownedByDma
    simp [hpend j hj] at hown
  · rfl

theorem no_service {j : Nat} (hj : k ≤ j) : decode (accs j) ≠ .ok .irqService := by
  intro hd
  obtain ⟨m, x, hrun, rfl⟩ := h.running_of_pend hpend hj
  have hfree := service_pend hrun hd (h.endless j)
  simp [hpend (j + 1) (by omega)] at hfree

/-- Without a service, in one activation, the handler stays as it is. -/
theorem handler_step {j : Nat} (hj : k ≤ j) (hact : OneActivation (states j) (states (j + 1))) :
    (states (j + 1)).handler = (states j).handler := by
  obtain ⟨m, x, hrun, -⟩ := h.running_of_pend hpend hj
  exact step_handler hrun (h.endless j) (if_neg (h.no_service hpend hj)) hact

/-- The interrupt agent is enabled all the time, and what it does is no service. -/
theorem exists_entry_or_return {i : Nat} (hi : k ≤ i) :
    ∃ j, i ≤ j ∧ (decode (accs j) = .ok .irqEntry ∨ decode (accs j) = .ok .irqReturn) := by
  obtain ⟨j, hij, hstep⟩ := h.fair .irq (by simp) i fun j hj => by
    obtain ⟨m, x, hrun, rfl⟩ := h.running_of_pend hpend (hi.trans hj)
    exact irq_enabled_of_pend hrun (hpend j (hi.trans hj))
  obtain hentry | hservice | hreturn := isStepOf_irq hstep
  · exact ⟨j, hij, .inl hentry⟩
  · exact absurd hservice (h.no_service hpend (hi.trans hij))
  · exact ⟨j, hij, .inr hreturn⟩

/-- A listed service would stay listed, and the handler could neither enter nor return. -/
theorem todo_eq_nil {i : Nat} (hi : k ≤ i) : (states i).handler.todo = [] := by
  by_contra htodo
  have hactive : (states i).handler.active = true := by
    obtain ⟨m, x, hrun⟩ := h.running i
    by_contra hidle
    exact htodo (hrun.idleTodo (by simpa using hidle))
  have hstays (j : Nat) (hij : i ≤ j) : (states j).handler = (states i).handler := by
    induction j, hij using Nat.le_induction with
    | base => rfl
    | succ j hij ih =>
      refine (h.handler_step hpend (hi.trans hij) (.inl ?_)).trans ih
      rw [ih]
      exact ⟨hactive, htodo⟩
  obtain ⟨j, hij, hstep⟩ := h.exists_entry_or_return hpend hi
  obtain ⟨m, x, hrun⟩ := h.running j
  obtain hentry | hreturn := hstep
  · have hidle := (entry_handler hrun hentry (h.endless j)).1
    simp [hstays j hij, hactive] at hidle
  · obtain ⟨-, hempty, -⟩ := return_handler hrun hreturn (h.endless j)
    exact htodo (hstays j hij ▸ hempty)

/-- An entry would list a service, so that what the handler does is return. -/
theorem exists_return {i : Nat} (hi : k ≤ i) : ∃ j, i ≤ j ∧ decode (accs j) = .ok .irqReturn := by
  obtain ⟨j, hij, hentry | hreturn⟩ := h.exists_entry_or_return hpend hi
  · obtain ⟨m, x, hrun⟩ := h.running j
    exact absurd (h.todo_eq_nil hpend (by omega)) (entry_handler hrun hentry (h.endless j)).2
  · exact ⟨j, hij, hreturn⟩

/-- An idle handler stays idle: only an entry, which lists a service, could make it active. -/
theorem idle_stays {i j : Nat} (hi : k ≤ i) (hidle : (states i).handler.active = false) (hij : i ≤ j) :
    (states j).handler.active = false := by
  induction j, hij using Nat.le_induction with
  | base => exact hidle
  | succ j hij ih =>
    by_contra hactive
    have hstep := h.handler_step hpend (hi.trans hij)
      (.inr ⟨by simpa using hactive, h.todo_eq_nil hpend (by omega)⟩)
    rw [hstep] at hactive
    exact hactive ih

/-- The handler returns once, and then it is idle and cannot return again. -/
theorem not_always_pend : False := by
  obtain ⟨i, hi, hreturn⟩ := h.exists_return hpend le_rfl
  obtain ⟨m, x, hrun⟩ := h.running i
  obtain ⟨-, -, hidle⟩ := return_handler hrun hreturn (h.endless i)
  obtain ⟨j, hij, hagain⟩ := h.exists_return hpend (i := i + 1) (by omega)
  obtain ⟨m', x', hrun'⟩ := h.running j
  have hactive := (return_handler hrun' hagain (h.endless j)).1
  simp [h.idle_stays hpend (by omega) hidle hij] at hactive

end NeverHandedBack

theorem handed_back (k : Nat) (y : Chan) : ∃ j, k ≤ j ∧ (states j).pend.get y = false := by
  by_contra hnever
  refine h.not_always_pend (k := k) (y := y) fun j hj => ?_
  by_contra hfree
  exact hnever ⟨j, hj, by simpa using hfree⟩

end FairRun

/-- Settles O58: there is always another wrap, another transfer, and a service for a buffer that waits. -/
theorem fairRunsKeepGoing : Obligations.FairRunsKeepGoing := by
  unfold Obligations.FairRunsKeepGoing
  intro s states accs hs hstart hendless hfair
  have h : FairRun states accs := start_fairRun hs hstart hendless hfair
  exact ⟨unbounded_of_rises h.outHist_rises, unbounded_of_rises h.dmaHist_rises, fun k x _ => h.handed_back k x⟩

end Sys2Proof.Machine
